-- ==== Sys2Proof/Word.lean ====
section
/-! DEFINITION. The word types of the block: a bus datum, a bus address, a binary32 bit pattern and a committed audio block. -/

namespace Sys2Proof

/-- A bus datum: 8 bits, unsigned (R12, DATA_WIDTH). -/
abbrev Byte := BitVec 8

/-- A bus address of the primary CPU or of the ACP: 16 bits (R12, ADDR_WIDTH). -/
abbrev Addr := BitVec 16

/-- The bit pattern of a 32-bit IEEE-754 binary floating-point sample (R130). -/
abbrev F32 := BitVec 32

/-- A block of the output ring: exactly 64 samples in time order (R48, R130). -/
abbrev Block := Vector F32 64

end Sys2Proof
end

