-- ==== Sys2Proof/Config.lean ====
section
/-! DEFINITION. What an implementation fixes (Table P1 of R10), what the two external CPUs supply (R8), and the free values. -/

namespace Sys2Proof

/-- One bus transaction of a CPU, as the CPU presents it (R120). The value a read returns is an output. -/
inductive BusOp where
  | read (addr : Addr)
  | write (addr : Addr) (v : Byte)
  deriving DecidableEq, Repr, Inhabited

/-- One `CPU.step()` of the primary CPU (R281): at least one transaction (R418, U18), so the list is a head and a tail. -/
structure CpuStep where
  first : BusOp
  rest : List BusOp
  deriving DecidableEq, Repr, Inhabited

/-- One `ACP.step()` (R292): at least one ACP access, and the byte `ACP_SAMPLE` that the ACP presents if a sample
event follows this step (R295). -/
structure AcpStep where
  first : BusOp
  rest : List BusOp
  sample : Byte
  deriving DecidableEq, Repr, Inhabited

/-- The lines that the primary CPU samples at the start of a step (R281, R396, R418): the level `cpu_irq`, and whether an
NMI and a reset have been delivered to it. -/
structure CpuSample where
  irq : Bool
  nmi : Bool
  reset : Bool
  deriving DecidableEq, Repr, Inhabited

/-- The events that the ACP samples at the start of a step (R292, R418). -/
structure AcpSample where
  irq : Bool
  nmi : Bool
  reset : Bool
  deriving DecidableEq, Repr, Inhabited

/-- What the primary CPU is about to do, as a function of the lines it samples (R8): the step of the first listed sample
that equals them, and `plain` for any other. -/
structure CpuInput where
  plain : CpuStep
  answers : List (CpuSample × CpuStep)
  deriving DecidableEq, Repr, Inhabited

/-- What the ACP is about to do, as a function of the events it samples (R8). -/
structure AcpInput where
  plain : AcpStep
  answers : List (AcpSample × AcpStep)
  deriving DecidableEq, Repr, Inhabited

/-- An exact rational sample rate `num / den` in samples per second (R296). -/
structure Rate where
  num : Nat
  den : Nat
  deriving DecidableEq, Repr, Inhabited

/-- The six writable memories of R21 to R26; `CART` (R27) is held apart. -/
inductive MemId where
  | zp | stack | ram | aram | vram | fb
  deriving DecidableEq, Repr, Inhabited

/-- How a read of one pad port affects the other pad's `port_select` (parameter `PAD_COUPLING`, R177, C2). -/
inductive PadCoupling where
  | independent | resetOther | section3Literal
  deriving DecidableEq, Repr

/-- Which steps the primary CPU takes: any finite non-empty sequence (R8, R281, R418, D43), or, in the reading of R218
that at most one of CPU and blitter writes `FB` within an iteration, none in which `dma_enable` is set after a write to the
framebuffer. The default is the first: log entry 24. -/
inductive CpuContract where
  | anySequence | oneOwner
  deriving DecidableEq, Repr

/-- When the sample events of one run of the ACP's loop drain the pipeline: after each push, as R295 and R328 write it, or
once after the loop, the reading in which the pushes of a burst find the native ring full (R300, R453). The spec has both
and no ruling on the burst: log entry 23. -/
inductive DrainPoint where
  | everySample | afterLoop
  deriving DecidableEq, Repr

/-- Where an OPEN function parameter of Table P1 takes its value from: the default that the spec gives, or a free
function that nothing constrains. -/
inductive ParamSource where
  | specDefault | free
  deriving DecidableEq, Repr

/-- Parameter `RESET_REGS` (R54): the power-on values of the control registers and of the stored blitter registers. -/
structure ResetRegs where
  banking : Byte
  dmaFlags : Byte
  audioCtl : Byte
  vx : Byte
  vy : Byte
  gx : Byte
  gy : Byte
  width : Byte
  height : Byte
  color : Byte
  deriving DecidableEq, Repr

/-- The OPEN parameters of Table P1 that are data. They are fixed for a machine: no operation writes them (R52). The set
`Button` (D21) is the button numbers below `buttons`. `drainPoint` and `cpuContract` are the model's, each between two
readings of the spec (log entries 23 and 24). -/
structure Params where
  cyclesPerFrame : Nat
  padCoupling : PadCoupling
  drainPoint : DrainPoint
  cpuContract : CpuContract
  resetRegs : ResetRegs
  buttons : Nat
  flipAdj : ParamSource
  acpDecode : ParamSource
  resample : ParamSource
  deriving DecidableEq, Repr

/-- The defaults of Table P1: `CYCLES_PER_FRAME` = 59,659, `PAD_COUPLING` = `independent`, `RESET_REGS` all zero, and
the defaults of `FLIP_ADJ` (R240), `ACP_DECODE` (R82) and `RESAMPLE` (R326). `Button` has the eight members of the
layout that the spec gives as general knowledge (U9, G9). PRESUMED, unsafe: log entry 9. The drain after every push is
the pseudocode of R295 (log entry 23), and the CPU's steps are those of R418 (log entry 24). -/
def Params.default : Params where
  cyclesPerFrame := 59659
  padCoupling := .independent
  drainPoint := .everySample
  cpuContract := .anySequence
  resetRegs := ⟨0, 0, 0, 0, 0, 0, 0, 0, 0, 0⟩
  buttons := 8
  flipAdj := .specDefault
  acpDecode := .specDefault
  resample := .specDefault

namespace Config

/-- `NOMINAL_HZ`: bus cycles per second (R10). -/
def nominalHz : Nat := 3579545
/-- `ACP_RATIO`: ACP cycles per primary cycle (R10, R285). -/
def acpRatio : Nat := 4
/-- `CLAMP_TRIGGER_NS` (R10, R282). -/
def clampTriggerNs : Nat := 33000000
/-- `CLAMP_VALUE_NS` (R10, R282). -/
def clampValueNs : Nat := 16667000
/-- Nanoseconds in a second, the divisor of the budget (R282). -/
def nsPerSecond : Nat := 1000000000
/-- `NATIVE_CAP`: slots of the native ring (R10, D33). -/
def nativeCap : Nat := 128
/-- `OUT_CAP`: blocks of the output ring (R10, D33). -/
def outCap : Nat := 512
/-- `BLOCK`: samples of a committed block (R10). -/
def blockLen : Nat := 64
/-- `EXHAUST_MIN`: samples below which the resampler is exhausted (R10, R324). -/
def exhaustMin : Nat := 64
/-- `OUT_FREE_MIN`: free output slots needed to commit (R10, R327). -/
def outFreeMin : Nat := 8
/-- `TARGET_RATE`: output samples per second (R10, D33). -/
def targetRate : Nat := 48000
/-- `RAM_BANK_SIZE`: bytes of a RAM bank (R23). -/
def ramBankSize : Nat := 0x1E00
/-- Blitter steps within which a blit with unchanged registers reaches `Idle` (R251: at most 256 · 257), and one more
for a start strobe that starts nothing. -/
def blitStepBound : Nat := 256 * 257 + 1

/-- FREE VALUE: the byte that a cell of a memory holds after a power-on and before its first write (U13, R54). The
first argument counts power-ons, so that two resets need not agree. -/
opaque powerOnByte : Nat → MemId → Nat → Byte

/-- FREE VALUE: parameter `PAD_ENCODE(pressed, half)` (R128, D21), before the constraint that its halves can be told
apart. The spec gives a layout only as general knowledge and lets no proof rest on it (G9). -/
opaque padEncode : BitVec 256 → Bool → Byte

/-- FREE VALUE: a record of buttons on which the two halves of `PAD_ENCODE` differ (D21). -/
opaque padTell : BitVec 256

/-- FREE VALUE: parameter `FLIP_ADJ(size, offset)` where it is not the default (R240, D15, U1). -/
opaque flipAdj : Byte → Byte → Byte

/-- FREE VALUE: parameter `ACP_DECODE` where it is not the default (R82, D30, U10). -/
opaque acpDecode : Addr → Option (BitVec 12)

/-- FREE VALUE: the fresh internal state of a resampler that is not the default (R326, U15). -/
opaque resampleInit : Rate → List Nat

/-- FREE VALUE: how many samples a resampler that is not the default would emit in a pull, before the contract of R326
bounds the number. -/
opaque resampleCount : Rate → List Nat → List F32 → Nat

/-- FREE VALUE: sample number `j` of a pull of a resampler that is not the default (R326, U15). -/
opaque resampleSample : Rate → List Nat → List F32 → Nat → F32

/-- FREE VALUE: the internal state after a pull of a resampler that is not the default (R326, U15). -/
opaque resampleNext : Rate → List Nat → List F32 → List Nat

/-- FREE VALUE: the fixed `K` of the contract of R326. -/
opaque resampleSlack : Nat

/-- FREE VALUE: after how many input samples that all equal `v` the output is `v`, the "eventually" of the contract of
R326. -/
opaque resampleSettle : Rate → F32 → Nat

/-- FREE VALUE: what the primary CPU does, on the lines it samples, in a step that the input queue does not give (R8,
R281). -/
opaque cpuStep : Nat → CpuSample → CpuStep

/-- FREE VALUE: what the ACP does, on the events it samples, in a step that the input queue does not give (R8, R292). -/
opaque acpStep : Nat → AcpSample → AcpStep

end Config

end Sys2Proof
end

