-- ==== Sys2Proof/Syntax.lean ====
section
/-! DEFINITION. The operations of the block, one constructor per row of spec/opcode_table.json, and the raw words they
are decoded from. -/

namespace Sys2Proof

/-- A gamepad: `PAD[0]` behind `$2008` or `PAD[1]` behind `$2009` (R41). -/
inductive PadPort where
  | pad1 | pad2
  deriving DecidableEq, Repr

/-- What the window `$4000-$7FFF` shows (R200). -/
inductive WindowMode where
  | registers | framebuffer | vram
  deriving DecidableEq, Repr

/-- A raw operation as it reaches the block: a 25-bit BUS word (R120), or an event code of Table E2 (R137) with the
bytes of its operands, which the model lays out since the spec gives events no operand format. -/
inductive RawOp where
  | bus (word : BitVec 25)
  | evt (code : Byte) (operands : List Byte)
  deriving DecidableEq, Repr

/-- The operations. A bus operation carries the address bits its region leaves free and, for a write, the data byte. -/
inductive Instr where
  /-- RD.ZP, `$0000-$00FF` (R163) -/
  | rdZp (o : BitVec 8)
  /-- WR.ZP (R164) -/
  | wrZp (o : BitVec 8) (v : Byte)
  /-- RD.STACK, `$0100-$01FF` (R165) -/
  | rdStack (o : BitVec 8)
  /-- WR.STACK (R166) -/
  | wrStack (o : BitVec 8) (v : Byte)
  /-- RD.RAM, `$0200-$1FFF`, the operand being `addr[12:0]` (R167) -/
  | rdRam (a : BitVec 13)
  /-- WR.RAM (R168) -/
  | wrRam (a : BitVec 13) (v : Byte)
  /-- RD.WO.ACPRST, a read of `$2000` (R174) -/
  | rdWoAcprst
  /-- WR.ACPRST, a write of `$2000` (R169) -/
  | wrAcprst (v : Byte)
  /-- RD.WO.ACPNMI, a read of `$2001` (R174) -/
  | rdWoAcpnmi
  /-- WR.ACPNMI, a write of `$2001` (R170) -/
  | wrAcpnmi (v : Byte)
  /-- RD.WO.BANK, a read of `$2005` (R174) -/
  | rdWoBank
  /-- WR.BANK, a write of `$2005` (R171) -/
  | wrBank (v : Byte)
  /-- RD.WO.AUDIO, a read of `$2006` (R174) -/
  | rdWoAudio
  /-- WR.AUDIO, a write of `$2006` (R172) -/
  | wrAudio (v : Byte)
  /-- RD.WO.DMA, a read of `$2007` (R174) -/
  | rdWoDma
  /-- WR.DMA, a write of `$2007` (R173) -/
  | wrDma (v : Byte)
  /-- RD.PAD1, a read of `$2008` (R175) -/
  | rdPad1
  /-- WR.PAD.1, a write of `$2008` (R178) -/
  | wrPad1 (v : Byte)
  /-- RD.PAD2, a read of `$2009` (R176) -/
  | rdPad2
  /-- WR.PAD.2, a write of `$2009` (R178) -/
  | wrPad2 (v : Byte)
  /-- RD.VIA, `$2800-$280F` (R179) -/
  | rdVia (r : BitVec 4)
  /-- WR.VIA (R180) -/
  | wrVia (r : BitVec 4) (v : Byte)
  /-- RD.ARAM, `$3000-$3FFF` (R181) -/
  | rdAram (o : BitVec 12)
  /-- WR.ARAM (R182) -/
  | wrAram (o : BitVec 12) (v : Byte)
  /-- RD.WIN, `$4000-$7FFF` before the sub-decode (R183) -/
  | rdWin (o : BitVec 14)
  /-- WR.WIN (R183) -/
  | wrWin (o : BitVec 14) (v : Byte)
  /-- WR.BR0, write `vx`; `k` is `addr[13:3]`, ignored by the decoder (R203, R202) -/
  | wrBr0 (k : BitVec 11) (v : Byte)
  /-- WR.BR1, write `vy` (R204) -/
  | wrBr1 (k : BitVec 11) (v : Byte)
  /-- WR.BR2, write `gx` (R205) -/
  | wrBr2 (k : BitVec 11) (v : Byte)
  /-- WR.BR3, write `gy` (R206) -/
  | wrBr3 (k : BitVec 11) (v : Byte)
  /-- WR.BR4, write `width` (R207) -/
  | wrBr4 (k : BitVec 11) (v : Byte)
  /-- WR.BR5, write `height` (R208) -/
  | wrBr5 (k : BitVec 11) (v : Byte)
  /-- WR.BR6, write `start` (R209) -/
  | wrBr6 (k : BitVec 11) (v : Byte)
  /-- WR.BR7, write `color` (R210) -/
  | wrBr7 (k : BitVec 11) (v : Byte)
  /-- RD.BR, any window read in register mode (R211) -/
  | rdBr (o : BitVec 14)
  /-- RD.FB, a window read in framebuffer mode (R212) -/
  | rdFb (o : BitVec 14)
  /-- WR.FB (R213) -/
  | wrFb (o : BitVec 14) (v : Byte)
  /-- RD.VRAM, a window read in VRAM mode (R214) -/
  | rdVram (o : BitVec 14)
  /-- WR.VRAM (R215) -/
  | wrVram (o : BitVec 14) (v : Byte)
  /-- RD.CART, `$8000-$FFFF` (R184) -/
  | rdCart (o : BitVec 15)
  /-- WR.CART (R185) -/
  | wrCart (o : BitVec 15) (v : Byte)
  /-- RD.UNMAPPED, `$2002-$2004`, `$200A-$27FF`, `$2810-$2FFF` (R186) -/
  | rdUnmapped (addr : Addr)
  /-- WR.UNMAPPED (R187) -/
  | wrUnmapped (addr : Addr) (v : Byte)
  /-- BSTEP, one blitter step (R232) -/
  | bstep
  /-- TICK, one orchestrator tick; `elapsed` is the wall time in nanoseconds since the last one (R283, R16) -/
  | tick (elapsed : Nat)
  /-- ITER, one iteration of the tick loop (R284) -/
  | iter
  /-- ACPLOOP, the ACP sub-loop of one iteration (R294) -/
  | acploop
  /-- SAMPLE, one sample event with the byte `ACP_SAMPLE` (R295) -/
  | sample (v : Byte)
  /-- IRQPROP, copy `irq_pending` to `cpu_irq` (R288) -/
  | irqprop
  /-- VBLANK, the vblank countdown update for `c` bus cycles (R289) -/
  | vblank (c : Nat)
  /-- A.PUSH, push one native sample (R322) -/
  | aPush (v : Byte)
  /-- A.RESAMPLE, one resampler pull (R325) -/
  | aResample
  /-- A.COMMIT, commit one block (R327) -/
  | aCommit
  /-- A.DRAIN, resample and commit until neither can proceed (R328) -/
  | aDrain
  /-- A.POP, the consumer takes one block (R329) -/
  | aPop
  /-- A.RECREATE, create the pipeline for the native rate `num / den` (R332) -/
  | aRecreate (num den : Nat)
  /-- H.LOADROM, `load_rom(bytes)` (R360) -/
  | hLoadrom (bytes : List Byte)
  /-- H.SETBTN, `set_gamepad_button(controller, button, pressed)` (R364) -/
  | hSetbtn (p : PadPort) (b : BitVec 8) (pressed : Bool)
  /-- H.READFB, `read_full_framebuffer()` (R366) -/
  | hReadfb
  /-- H.INSTANT, `instant_blit` (R367) -/
  | hInstant
  /-- H.POWERON, power-on reset at the instant `now` (R431) -/
  | hPoweron (now : Nat)
  /-- ACP.RD, one ACP read (R293) -/
  | acpRd (a : Addr)
  /-- ACP.WR, one ACP write (R293) -/
  | acpWr (a : Addr) (v : Byte)
  deriving DecidableEq, Repr

end Sys2Proof
end

