-- ==== Sys2Proof/WellFormed.lean ====
section
/-! DEFINITION. Which operations are well formed: the operands that the encodings can carry and the regions admit. -/

namespace Sys2Proof

/-- The three address ranges that no listed region takes (Table M1 of R89, R186). -/
def unmappedAddr (a : Addr) : Bool :=
  (0x2002 ≤ a.toNat && a.toNat ≤ 0x2004) || (0x200A ≤ a.toNat && a.toNat ≤ 0x27FF)
    || (0x2810 ≤ a.toNat && a.toNat ≤ 0x2FFF)

/-- `addr[12:0]` of an address in the RAM region `$0200-$1FFF` (R134). -/
def ramAddr (a : BitVec 13) : Bool := 0x200 ≤ a.toNat

/-- A number that the model's 8-byte operand field can carry (log entry 10). -/
def fits64 (n : Nat) : Bool := n < 2 ^ 64

/-- A positive number that the model's 8-byte operand field can carry, stored less one (log entry 10). -/
def fitsPos64 (n : Nat) : Bool := 0 < n && n ≤ 2 ^ 64

/-- The check on an operation's operands. Where the operand's type already says all, nothing is left to check. -/
def wellFormed : Instr → Bool
  | .rdRam a => ramAddr a
  | .wrRam a _ => ramAddr a
  | .rdUnmapped a => unmappedAddr a
  | .wrUnmapped a _ => unmappedAddr a
  | .tick n => fits64 n
  | .vblank n => fits64 n
  | .aRecreate n d => fitsPos64 n && fitsPos64 d
  | .hPoweron n => fits64 n
  | .rdZp _ => true
  | .wrZp _ _ => true
  | .rdStack _ => true
  | .wrStack _ _ => true
  | .rdWoAcprst => true
  | .wrAcprst _ => true
  | .rdWoAcpnmi => true
  | .wrAcpnmi _ => true
  | .rdWoBank => true
  | .wrBank _ => true
  | .rdWoAudio => true
  | .wrAudio _ => true
  | .rdWoDma => true
  | .wrDma _ => true
  | .rdPad1 => true
  | .wrPad1 _ => true
  | .rdPad2 => true
  | .wrPad2 _ => true
  | .rdVia _ => true
  | .wrVia _ _ => true
  | .rdAram _ => true
  | .wrAram _ _ => true
  | .rdWin _ => true
  | .wrWin _ _ => true
  | .wrBr0 _ _ => true
  | .wrBr1 _ _ => true
  | .wrBr2 _ _ => true
  | .wrBr3 _ _ => true
  | .wrBr4 _ _ => true
  | .wrBr5 _ _ => true
  | .wrBr6 _ _ => true
  | .wrBr7 _ _ => true
  | .rdBr _ => true
  | .rdFb _ => true
  | .wrFb _ _ => true
  | .rdVram _ => true
  | .wrVram _ _ => true
  | .rdCart _ => true
  | .wrCart _ _ => true
  | .bstep => true
  | .iter => true
  | .acploop => true
  | .sample _ => true
  | .irqprop => true
  | .aPush _ => true
  | .aResample => true
  | .aCommit => true
  | .aDrain => true
  | .aPop => true
  | .hLoadrom _ => true
  | .hSetbtn _ _ _ => true
  | .hReadfb => true
  | .hInstant => true
  | .acpRd _ => true
  | .acpWr _ _ => true

/-- The `when` column of the window's sub-rows (R139, R142): in which window mode the decoder answers this operation.
The region rows RD.WIN and WR.WIN are never answered, because the decoder uses the thirteen sub-rows. -/
def answeredIn (m : WindowMode) : Instr → Bool
  | .rdWin _ | .wrWin _ _ => false
  | .wrBr0 _ _ | .wrBr1 _ _ | .wrBr2 _ _ | .wrBr3 _ _ | .wrBr4 _ _ | .wrBr5 _ _ | .wrBr6 _ _ | .wrBr7 _ _
  | .rdBr _ => m == .registers
  | .rdFb _ | .wrFb _ _ => m == .framebuffer
  | .rdVram _ | .wrVram _ _ => m == .vram
  | .rdZp _ | .wrZp _ _ | .rdStack _ | .wrStack _ _ | .rdRam _ | .wrRam _ _ | .rdWoAcprst | .wrAcprst _
  | .rdWoAcpnmi | .wrAcpnmi _ | .rdWoBank | .wrBank _ | .rdWoAudio | .wrAudio _ | .rdWoDma | .wrDma _ | .rdPad1
  | .wrPad1 _ | .rdPad2 | .wrPad2 _ | .rdVia _ | .wrVia _ _ | .rdAram _ | .wrAram _ _ | .rdCart _ | .wrCart _ _
  | .rdUnmapped _ | .wrUnmapped _ _ | .bstep | .tick _ | .iter | .acploop | .sample _ | .irqprop | .vblank _
  | .aPush _ | .aResample | .aCommit | .aDrain | .aPop | .aRecreate _ _ | .hLoadrom _ | .hSetbtn _ _ _
  | .hReadfb | .hInstant | .hPoweron _ | .acpRd _ | .acpWr _ _ => true

end Sys2Proof
end

