-- ==== Sys2Proof/Decode.lean ====
section
/-! DEFINITION. The decoder, total on every raw operation and rejecting by name, and the encoder. -/

namespace Sys2Proof

/-- The fifteen regions of the primary bus space, in priority order (Table E1 of R136). -/
inductive Region where
  | zp | stack | ram | acprst | acpnmi | banking | audioctl | dmaflags | pad1 | pad2 | via | aram | window | cart
  | unmapped
  deriving DecidableEq, Repr

/-- `Region(addr)`, R162: the first line of the list that holds the address. -/
def region (addr : Addr) : Region :=
  let a := addr.toNat
  if a ≤ 0x00FF then .zp
  else if a ≤ 0x01FF then .stack
  else if a ≤ 0x1FFF then .ram
  else if a = 0x2000 then .acprst
  else if a = 0x2001 then .acpnmi
  else if a = 0x2005 then .banking
  else if a = 0x2006 then .audioctl
  else if a = 0x2007 then .dmaflags
  else if a = 0x2008 then .pad1
  else if a = 0x2009 then .pad2
  else if 0x2800 ≤ a ∧ a ≤ 0x280F then .via
  else if 0x3000 ≤ a ∧ a ≤ 0x3FFF then .aram
  else if 0x4000 ≤ a ∧ a ≤ 0x7FFF then .window
  else if 0x8000 ≤ a then .cart
  else .unmapped

/-- Table E1 (R136): mask, match and region of each line, in priority order. -/
def tableE1 : List (Addr × Addr × Region) :=
  [(0xFF00, 0x0000, .zp), (0xFF00, 0x0100, .stack), (0xE000, 0x0000, .ram), (0xFFFF, 0x2000, .acprst),
   (0xFFFF, 0x2001, .acpnmi), (0xFFFF, 0x2005, .banking), (0xFFFF, 0x2006, .audioctl), (0xFFFF, 0x2007, .dmaflags),
   (0xFFFF, 0x2008, .pad1), (0xFFFF, 0x2009, .pad2), (0xFFF0, 0x2800, .via), (0xF000, 0x3000, .aram),
   (0xC000, 0x4000, .window), (0x8000, 0x8000, .cart), (0x0000, 0x0000, .unmapped)]

/-- The priority decoder of R136 written with the masks of Table E1. -/
def regionByMask (addr : Addr) : Region :=
  ((tableE1.find? fun row => addr &&& row.1 == row.2.1).map fun row => row.2.2).getD .unmapped

/-- The read operation of an address (Table E1, and R139 for the window). -/
def decodeRead (m : WindowMode) (addr : Addr) : Instr :=
  match region addr with
  | .zp => .rdZp (addr.extractLsb' 0 8)
  | .stack => .rdStack (addr.extractLsb' 0 8)
  | .ram => .rdRam (addr.extractLsb' 0 13)
  | .acprst => .rdWoAcprst
  | .acpnmi => .rdWoAcpnmi
  | .banking => .rdWoBank
  | .audioctl => .rdWoAudio
  | .dmaflags => .rdWoDma
  | .pad1 => .rdPad1
  | .pad2 => .rdPad2
  | .via => .rdVia (addr.extractLsb' 0 4)
  | .aram => .rdAram (addr.extractLsb' 0 12)
  | .window =>
    match m with
    | .registers => .rdBr (addr.extractLsb' 0 14)
    | .framebuffer => .rdFb (addr.extractLsb' 0 14)
    | .vram => .rdVram (addr.extractLsb' 0 14)
  | .cart => .rdCart (addr.extractLsb' 0 15)
  | .unmapped => .rdUnmapped addr

/-- The blitter register that a window write reaches in register mode, by `addr[2:0]` (R133, Table E3). -/
def decodeBrWrite (addr : Addr) (v : Byte) : Instr :=
  let k : BitVec 11 := addr.extractLsb' 3 11
  match (addr.extractLsb' 0 3).toNat with
  | 0 => .wrBr0 k v
  | 1 => .wrBr1 k v
  | 2 => .wrBr2 k v
  | 3 => .wrBr3 k v
  | 4 => .wrBr4 k v
  | 5 => .wrBr5 k v
  | 6 => .wrBr6 k v
  | _ => .wrBr7 k v

/-- The write operation of an address and a datum (Table E1, and R139 for the window). -/
def decodeWrite (m : WindowMode) (addr : Addr) (v : Byte) : Instr :=
  match region addr with
  | .zp => .wrZp (addr.extractLsb' 0 8) v
  | .stack => .wrStack (addr.extractLsb' 0 8) v
  | .ram => .wrRam (addr.extractLsb' 0 13) v
  | .acprst => .wrAcprst v
  | .acpnmi => .wrAcpnmi v
  | .banking => .wrBank v
  | .audioctl => .wrAudio v
  | .dmaflags => .wrDma v
  | .pad1 => .wrPad1 v
  | .pad2 => .wrPad2 v
  | .via => .wrVia (addr.extractLsb' 0 4) v
  | .aram => .wrAram (addr.extractLsb' 0 12) v
  | .window =>
    match m with
    | .registers => decodeBrWrite addr v
    | .framebuffer => .wrFb (addr.extractLsb' 0 14) v
    | .vram => .wrVram (addr.extractLsb' 0 14) v
  | .cart => .wrCart (addr.extractLsb' 0 15) v
  | .unmapped => .wrUnmapped addr v

/-- Bit 24 of the BUS word (R120): 1 for a write. -/
def busRw (word : BitVec 25) : Bool := word.getLsbD 24

/-- Bits 23:8 of the BUS word (R120). -/
def busAddr (word : BitVec 25) : Addr := word.extractLsb' 8 16

/-- Bits 7:0 of the BUS word (R120); for a read the field is no input. -/
def busData (word : BitVec 25) : Byte := word.extractLsb' 0 8

/-- The operation of a BUS word in a window mode. Every word has one (R138, R188). -/
def decodeBus (m : WindowMode) (word : BitVec 25) : Instr :=
  if busRw word then decodeWrite m (busAddr word) (busData word) else decodeRead m (busAddr word)

/-- Why the decoder rejects an event. -/
inductive Reject where
  /-- The event code is none of Table E2. -/
  | reservedEvent (code : Byte)
  /-- `set_gamepad_button` for a controller that is not 0 or 1 (R364, U9). -/
  | noSuchController (i : Byte)
  deriving DecidableEq, Repr

/-- The number that bytes stand for, least significant byte first. -/
def natOfBytes : List Byte → Nat
  | [] => 0
  | b :: bs => b.toNat + 256 * natOfBytes bs

/-- The `k` low bytes of a number, least significant byte first. -/
def bytesOfNat : Nat → Nat → List Byte
  | 0, _ => []
  | k + 1, n => BitVec.ofNat 8 n :: bytesOfNat k (n / 256)

/-- Operand byte `k` of an event; an operand byte that is not given is 0. -/
def operand (ops : List Byte) (k : Nat) : Byte := ops.getD k 0

/-- The number in operand bytes `8j` to `8j + 7` of an event. -/
def operandNat (ops : List Byte) (j : Nat) : Nat := natOfBytes ((ops.drop (8 * j)).take 8)

/-- The address in operand bytes 0 and 1 of an event, low byte first. -/
def operandAddr (ops : List Byte) : Addr := operand ops 1 ++ operand ops 0

/-- H.SETBTN's operands: controller, button, pressed (R364). The spec has the operand p in 0 and 1 and gives no byte for
it: the model reads a pressed byte of 0 as released and each of the other 255 values, which no rule speaks of, as pressed.
DESIGN CHOICE, safe: log entry 10. -/
def decodeSetbtn (ops : List Byte) : Except Reject Instr :=
  match (operand ops 0).toNat with
  | 0 => .ok (.hSetbtn .pad1 (operand ops 1) (operand ops 2 != 0))
  | 1 => .ok (.hSetbtn .pad2 (operand ops 1) (operand ops 2 != 0))
  | _ => .error (.noSuchController (operand ops 0))

/-- The operation of an event code (Table E2 of R137) with its operand bytes. -/
def decodeEvt (code : Byte) (ops : List Byte) : Except Reject Instr :=
  match code.toNat with
  | 0x00 => .ok .bstep
  | 0x01 => .ok (.tick (operandNat ops 0))
  | 0x02 => .ok .iter
  | 0x03 => .ok .acploop
  | 0x04 => .ok (.sample (operand ops 0))
  | 0x05 => .ok .irqprop
  | 0x06 => .ok (.vblank (operandNat ops 0))
  | 0x10 => .ok (.aPush (operand ops 0))
  | 0x11 => .ok .aResample
  | 0x12 => .ok .aCommit
  | 0x13 => .ok .aDrain
  | 0x14 => .ok .aPop
  | 0x15 => .ok (.aRecreate (operandNat ops 0 + 1) (operandNat ops 1 + 1))
  | 0x20 => .ok (.hLoadrom ops)
  | 0x21 => decodeSetbtn ops
  | 0x22 => .ok .hReadfb
  | 0x23 => .ok .hInstant
  | 0x24 => .ok (.hPoweron (operandNat ops 0))
  | 0x30 => .ok (.acpRd (operandAddr ops))
  | 0x31 => .ok (.acpWr (operandAddr ops) (operand ops 2))
  | _ => .error (.reservedEvent code)

/-- The decoder. It looks at the raw operation and, for the window only, at the window mode (R120, R139). -/
def decode (m : WindowMode) : RawOp → Except Reject Instr
  | .bus word => .ok (decodeBus m word)
  | .evt code ops => decodeEvt code ops

/-- The BUS word of a read; the data field is written as 0. -/
def busRead (addr : Addr) : RawOp := .bus ((0#1 ++ addr) ++ (0#8 : Byte))

/-- The BUS word of a write (R120). -/
def busWrite (addr : Addr) (v : Byte) : RawOp := .bus ((1#1 ++ addr) ++ v)

/-- The bus address of an 8-bit zero-page offset. -/
def zpAddr (o : BitVec 8) : Addr := 0x00#8 ++ o
/-- The bus address of an 8-bit stack-page offset. -/
def stackAddr (o : BitVec 8) : Addr := 0x01#8 ++ o
/-- The bus address of `addr[12:0]` of the RAM region. -/
def ramBusAddr (a : BitVec 13) : Addr := 0#3 ++ a
/-- The bus address of a VIA register. -/
def viaAddr (r : BitVec 4) : Addr := 0x280#12 ++ r
/-- The bus address of an audio RAM offset. -/
def aramAddr (o : BitVec 12) : Addr := 0x3#4 ++ o
/-- The bus address of a window offset (R132). -/
def winAddr (o : BitVec 14) : Addr := 0b01#2 ++ o
/-- The window address of blitter register `i` in its repetition `k` (R133). -/
def brAddr (k : BitVec 11) (i : BitVec 3) : Addr := (0b01#2 ++ k) ++ i
/-- The bus address of a cartridge offset. -/
def cartAddr (o : BitVec 15) : Addr := 1#1 ++ o

/-- The operand byte of a controller (R364). -/
def padByte : PadPort → Byte
  | .pad1 => 0
  | .pad2 => 1

/-- The encoder: the BUS word of R120, or the event code of Table E2 with its operand bytes. -/
def encode : Instr → RawOp
  | .rdZp o => busRead (zpAddr o)
  | .wrZp o v => busWrite (zpAddr o) v
  | .rdStack o => busRead (stackAddr o)
  | .wrStack o v => busWrite (stackAddr o) v
  | .rdRam a => busRead (ramBusAddr a)
  | .wrRam a v => busWrite (ramBusAddr a) v
  | .rdWoAcprst => busRead 0x2000
  | .wrAcprst v => busWrite 0x2000 v
  | .rdWoAcpnmi => busRead 0x2001
  | .wrAcpnmi v => busWrite 0x2001 v
  | .rdWoBank => busRead 0x2005
  | .wrBank v => busWrite 0x2005 v
  | .rdWoAudio => busRead 0x2006
  | .wrAudio v => busWrite 0x2006 v
  | .rdWoDma => busRead 0x2007
  | .wrDma v => busWrite 0x2007 v
  | .rdPad1 => busRead 0x2008
  | .wrPad1 v => busWrite 0x2008 v
  | .rdPad2 => busRead 0x2009
  | .wrPad2 v => busWrite 0x2009 v
  | .rdVia r => busRead (viaAddr r)
  | .wrVia r v => busWrite (viaAddr r) v
  | .rdAram o => busRead (aramAddr o)
  | .wrAram o v => busWrite (aramAddr o) v
  | .rdWin o => busRead (winAddr o)
  | .wrWin o v => busWrite (winAddr o) v
  | .wrBr0 k v => busWrite (brAddr k 0) v
  | .wrBr1 k v => busWrite (brAddr k 1) v
  | .wrBr2 k v => busWrite (brAddr k 2) v
  | .wrBr3 k v => busWrite (brAddr k 3) v
  | .wrBr4 k v => busWrite (brAddr k 4) v
  | .wrBr5 k v => busWrite (brAddr k 5) v
  | .wrBr6 k v => busWrite (brAddr k 6) v
  | .wrBr7 k v => busWrite (brAddr k 7) v
  | .rdBr o => busRead (winAddr o)
  | .rdFb o => busRead (winAddr o)
  | .wrFb o v => busWrite (winAddr o) v
  | .rdVram o => busRead (winAddr o)
  | .wrVram o v => busWrite (winAddr o) v
  | .rdCart o => busRead (cartAddr o)
  | .wrCart o v => busWrite (cartAddr o) v
  | .rdUnmapped a => busRead a
  | .wrUnmapped a v => busWrite a v
  | .bstep => .evt 0x00 []
  | .tick n => .evt 0x01 (bytesOfNat 8 n)
  | .iter => .evt 0x02 []
  | .acploop => .evt 0x03 []
  | .sample v => .evt 0x04 [v]
  | .irqprop => .evt 0x05 []
  | .vblank c => .evt 0x06 (bytesOfNat 8 c)
  | .aPush v => .evt 0x10 [v]
  | .aResample => .evt 0x11 []
  | .aCommit => .evt 0x12 []
  | .aDrain => .evt 0x13 []
  | .aPop => .evt 0x14 []
  | .aRecreate n d => .evt 0x15 (bytesOfNat 8 (n - 1) ++ bytesOfNat 8 (d - 1))
  | .hLoadrom bytes => .evt 0x20 bytes
  | .hSetbtn p b pressed => .evt 0x21 [padByte p, b, if pressed then 1 else 0]
  | .hReadfb => .evt 0x22 []
  | .hInstant => .evt 0x23 []
  | .hPoweron now => .evt 0x24 (bytesOfNat 8 now)
  | .acpRd a => .evt 0x30 [a.extractLsb' 0 8, a.extractLsb' 8 8]
  | .acpWr a v => .evt 0x31 [a.extractLsb' 0 8, a.extractLsb' 8 8, v]

/-- The raw operation of a word numbered as the opcode table numbers it: up to 8 bits are an event code without operand
bytes, more are the 17-bit decode word `T` of R120, with the data byte 0. -/
def rawOfTableWord (nbits w : Nat) : RawOp :=
  if nbits ≤ 8 then .evt (BitVec.ofNat 8 w) [] else .bus (BitVec.ofNat 17 w ++ (0#8 : Byte))

/-- The window mode in which a table word is decoded: one word stands for several rows of the window, told apart by
their `when` column only, and the first of the strict priority list (R139) is register mode. -/
def tableWordMode : WindowMode := .registers

/-- The instruction the decoder reads from a table word. -/
def decodeTableWord (nbits w : Nat) : Option Instr :=
  match decode tableWordMode (rawOfTableWord nbits w) with
  | .ok i => some i
  | .error _ => none

/-- The operations for which a loaded cartridge is a launch premise (R27, R431). -/
def needsCart : Option Instr → Bool
  | some (.tick _) => true
  | some .iter => true
  | some (.rdCart _) => true
  | _ => false

/-- A BUS table word that lies in the window. -/
def isWindowWord (nbits w : Nat) : Bool :=
  match rawOfTableWord nbits w with
  | .bus word => region (busAddr word) == .window
  | .evt _ _ => false

end Sys2Proof
end

