-- ==== Sys2Proof/Machine/State.lean ====
section
/-! DEFINITION. The state of the block as plain data (R20), what it hands outside, why a step can stop, and the state
after power-on (Table S2 of R54). -/

namespace Sys2Proof.Machine

/-- A memory as (cell number, byte) pairs with strictly rising cell numbers. A cell that is not listed has not been
written since power-on and reads as its free value (R54, U13). -/
abbrev Memory := List Host.Cell

/-- The cartridge: fixed-size storage tagged by its size (R27). -/
inductive Cart where
  | cart8K (rom : Vector Byte 0x2000)
  | cart32K (rom : Vector Byte 0x8000)
  | cart2M (rom : Vector Byte 0x200000)
  deriving DecidableEq, Repr

/-- The seven memories (R21 to R27). -/
structure Memories where
  zp : Memory
  stack : Memory
  ram : Memory
  aram : Memory
  vram : Memory
  fb : Memory
  cart : Option Cart
  deriving DecidableEq, Repr

/-- The control registers (R28, R29, R31) and the blitter register file (R30, R33). `BR[6]` stores nothing; its write
sets `startStrobe`. -/
structure Registers where
  banking : Byte
  dmaFlags : Byte
  audioCtl : Byte
  vx : Byte
  vy : Byte
  gx : Byte
  gy : Byte
  width : Byte
  height : Byte
  color : Byte
  startStrobe : Bool
  deriving DecidableEq, Repr

/-- The blitter's state (R37). -/
inductive BState where
  | idle | running
  deriving DecidableEq, Repr

/-- The blitter's sequencing state, latches, counters and pending interrupt (R37 to R40). -/
structure Blitter where
  bstate : BState
  srcY : Byte
  dstY : Byte
  heightL : Byte
  colorL : Byte
  colorFillL : Bool
  offsetX : Byte
  offsetY : Byte
  irqPending : Bool
  deriving DecidableEq, Repr

/-- A gamepad (R41). Bit b of `pressed` is button b; which numbers are buttons is the parameter `Params.buttons` (D21),
and at most 256 can be named. -/
structure Pad where
  pressed : BitVec 256
  portSelect : Bool
  deriving DecidableEq, Repr

/-- The counters and budgets (R42 to R46). Budgets and countdowns are unbounded integers (D26). -/
structure Orchestrator where
  cycleCounter : Nat
  acpCycleCounter : Nat
  lastTick : Nat
  remainingCycles : Int
  acpBudget : Int
  vblankCountdown : Int
  sampleCountdown : Int
  deriving DecidableEq, Repr

/-- The lines to the two CPUs (R47, Table X2 of R390). `cpuIrq` is a level; each of the others is an event that has been
delivered and that its CPU has not taken yet (R395). -/
structure Lines where
  cpuIrq : Bool
  cpuNmi : Bool
  cpuReset : Bool
  acpIrq : Bool
  acpNmi : Bool
  acpReset : Bool
  deriving DecidableEq, Repr

/-- The five event lines (R395). -/
inductive EventLine where
  | cpuNmi | cpuReset | acpIrq | acpNmi | acpReset
  deriving DecidableEq, Repr

/-- The resampler `RS` once created (R48, R326): its native rate and the counts of samples consumed and produced since
creation; and for an instance other than `RESAMPLE_ZOH` the one value that all samples consumed so far had, if there is
one, and its internal state. -/
structure Resampler where
  rate : Rate
  nIn : Nat
  nOut : Nat
  steady : Option F32
  inner : List Nat
  deriving DecidableEq, Repr

/-- The audio pipeline's stages (R48), oldest item first in every queue. `rs` is none before the first creation. -/
structure AudioPipeline where
  nr : List Byte
  rs : Option Resampler
  aq : List F32
  ring : List Block
  deriving DecidableEq, Repr

/-- A record of the diagnostic output: codes 2 to 7 of Table X1 (R381). -/
inductive Diag where
  | readOfWriteOnly (addr : Addr)
  | readOfUnmapped (addr : Addr)
  | writeToReadOnly (addr : Addr)
  | writeToUnmapped (addr : Addr)
  | nativeOverflow (dropped : Byte)
  | outputOverflow (dropped : Block)
  | timingAnomaly (elapsedNs : Nat)
  deriving DecidableEq, Repr

/-- What `A.RESAMPLE` returns (R325). -/
inductive PullStatus where
  | exhausted | pulled
  deriving DecidableEq, Repr

/-- What `A.COMMIT` returns (R327). -/
inductive CommitStatus where
  | notReady | noRoom | committed
  deriving DecidableEq, Repr

/-- What an operation hands outside the block. -/
inductive Output where
  /-- the byte a bus read returns to the primary CPU (R160) -/
  | busRead (addr : Addr) (v : Byte)
  /-- the byte an ACP read returns (R293) -/
  | acpRead (a : Addr) (v : Byte)
  /-- the result of `A.RESAMPLE` (R325) -/
  | resample (r : PullStatus)
  /-- the result of `A.COMMIT` (R327) -/
  | commit (r : CommitStatus)
  /-- the block a pop gives to the audio callback (R329) -/
  | block (b : Block)
  /-- `load_rom` succeeded (R360) -/
  | romLoaded
  /-- `ConfigError(BadRomSize, n)`, code 1 of Table X1 (R360, R382) -/
  | configError (n : Nat)
  /-- the borrowed view of one framebuffer that `read_full_framebuffer` returns (R366) -/
  | frame (page : Bool)
  deriving DecidableEq, Repr

/-- The MODEL's own fields: the inputs still to come (R52), the counters that index the free values, and the two output
streams, newest record first. -/
structure Environment where
  pending : List RawOp
  cpuIn : List CpuInput
  acpIn : List AcpInput
  popIn : List Nat
  cpuFree : Nat
  acpFree : Nat
  powerOns : Nat
  diags : List Diag
  output : List Output
  deriving DecidableEq, Repr

/-- The state of the block (R20), the model's environment and the configuration. -/
structure State where
  mem : Memories
  regs : Registers
  blit : Blitter
  pad1 : Pad
  pad2 : Pad
  orch : Orchestrator
  lines : Lines
  audio : AudioPipeline
  env : Environment
  cfg : Params
  deriving DecidableEq, Repr

/-- Why the machine stops with a fault. The block itself raises no trap (R380). -/
inductive Fault where
  /-- Raised by RD.RAM and WR.RAM for an operand that names no byte of the RAM region (R167: only `$0200-$1FFF`). No
  word decodes to such an operation. Safe: the machine stops where the spec gives no operation. -/
  | noSuchCell
  deriving DecidableEq, Repr

/-- Why an operation has no meaning. Each is safe: the machine stops where the spec gives no effect. -/
inductive Refusal where
  /-- Raised by `exec` for an instruction whose meaning is not written. -/
  | notModelled (mnemonic : String)
  /-- Raised by `step` for a raw operation that the decoder rejects. -/
  | undecodable (r : Reject)
  /-- Raised by RD.CART, ITER and TICK while no cartridge is loaded (R27, R431, U7: refuse). -/
  | noCartridge
  /-- Raised by A.RESAMPLE and A.DRAIN when there are samples to pull and no resampler has been created (R325: not
  reachable). -/
  | noResampler
  /-- Raised by A.RECREATE for a rate that is not a positive number (U6: the model refuses to create a pipeline for it). -/
  | noSuchRate
  /-- Raised by H.SETBTN for a button that is no member of `Button` (R364, U9: refuse without changing state). -/
  | noSuchButton
  deriving DecidableEq, Repr

/-- The outcome of an operation. -/
abbrev Result := Host.Outcome State Fault Refusal

/-- The power-on column of Table S2 (R54, R431), at the instant `now`, with the model's environment `env` kept. -/
def State.powerOn (cfg : Params) (env : Environment) (now : Nat) : State where
  mem := { zp := [], stack := [], ram := [], aram := [], vram := [], fb := [], cart := none }
  regs :=
    { banking := cfg.resetRegs.banking, dmaFlags := cfg.resetRegs.dmaFlags, audioCtl := cfg.resetRegs.audioCtl,
      vx := cfg.resetRegs.vx, vy := cfg.resetRegs.vy, gx := cfg.resetRegs.gx, gy := cfg.resetRegs.gy,
      width := cfg.resetRegs.width, height := cfg.resetRegs.height, color := cfg.resetRegs.color,
      startStrobe := false }
  blit :=
    { bstate := .idle, srcY := 0, dstY := 0, heightL := 0, colorL := 0, colorFillL := false, offsetX := 0,
      offsetY := 0, irqPending := false }
  pad1 := { pressed := 0, portSelect := false }
  pad2 := { pressed := 0, portSelect := false }
  orch :=
    { cycleCounter := 0, acpCycleCounter := 0, lastTick := now, remainingCycles := 0, acpBudget := 0,
      vblankCountdown := cfg.cyclesPerFrame, sampleCountdown := 0 }
  lines :=
    { cpuIrq := false, cpuNmi := false, cpuReset := true, acpIrq := false, acpNmi := false, acpReset := true }
  audio := { nr := [], rs := none, aq := [], ring := [] }
  env := env
  cfg := cfg

/-- The model's environment before anything has happened: no input waits, no free value is used, nothing is output. -/
def Environment.empty : Environment where
  pending := []
  cpuIn := []
  acpIn := []
  popIn := []
  cpuFree := 0
  acpFree := 0
  powerOns := 0
  diags := []
  output := []

/-- The machine right after power-on with the default configuration (R431, R55). -/
def State.reset : State := State.powerOn Params.default Environment.empty 0

end Sys2Proof.Machine
end

