-- ==== Sys2Proof/Machine/Flags.lean ====
section
/-! DEFINITION. The fields of the control registers and of the extent bytes, and the window mode they select. -/

namespace Sys2Proof.Machine

/-- `BANKING` bits 2:0 (R121). -/
def vramPage (banking : Byte) : BitVec 3 := banking.extractLsb' 0 3
/-- `BANKING` bit 3: the draw target (R121). -/
def framebufferSel (banking : Byte) : Bool := banking.getLsbD 3
/-- `BANKING` bit 4, stored and without effect (R28, D17). -/
def clipH (banking : Byte) : Bool := banking.getLsbD 4
/-- `BANKING` bit 5, stored and without effect (R28, D17). -/
def clipV (banking : Byte) : Bool := banking.getLsbD 5
/-- `BANKING` bits 7:6 (R121). -/
def ramBank (banking : Byte) : BitVec 2 := banking.extractLsb' 6 2

/-- `DMA_FLAGS` bit 0 (R122). -/
def dmaEnable (flags : Byte) : Bool := flags.getLsbD 0
/-- `DMA_FLAGS` bit 1: the visible framebuffer (R122). -/
def pageOut (flags : Byte) : Bool := flags.getLsbD 1
/-- `DMA_FLAGS` bit 2 (R122). -/
def nmiEnable (flags : Byte) : Bool := flags.getLsbD 2
/-- `DMA_FLAGS` bit 3 (R122). -/
def colorfillEnable (flags : Byte) : Bool := flags.getLsbD 3
/-- `DMA_FLAGS` bit 4: linear source addressing (R122). -/
def gcarry (flags : Byte) : Bool := flags.getLsbD 4
/-- `DMA_FLAGS` bit 5: the window shows the framebuffer when set (R122, C6). -/
def cpuToVram (flags : Byte) : Bool := flags.getLsbD 5
/-- `DMA_FLAGS` bit 6 (R122). -/
def irqEnable (flags : Byte) : Bool := flags.getLsbD 6
/-- `DMA_FLAGS` bit 7: no transparency test (R122). -/
def opaqueFlag (flags : Byte) : Bool := flags.getLsbD 7

/-- `AUDIO_CTL` bit 7 (R123). -/
def acpEnable (ctl : Byte) : Bool := ctl.getLsbD 7
/-- `AUDIO_CTL` bits 6:0 (R123). -/
def rateDivisor (ctl : Byte) : Nat := (ctl.extractLsb' 0 7).toNat

/-- Flip mode of an extent byte: the byte is 128 or more (R34, R125). -/
def flipped (extent : Byte) : Bool := 128 ≤ extent.toNat

/-- `WindowMode()`, R200: register mode wins over framebuffer mode, which wins over VRAM mode. -/
def windowModeOf (flags : Byte) : WindowMode :=
  if dmaEnable flags then .registers else if cpuToVram flags then .framebuffer else .vram

end Sys2Proof.Machine
end

