-- ==== Sys2Proof/Machine/Operands.lean ====
section
/-! DEFINITION. Operand assembly (R131 to R135): which cell of which memory an operand names. -/

namespace Sys2Proof.Machine

/-- The cell of offset `o` of RAM bank `b` (R23, R134). -/
def ramCell (b : BitVec 2) (o : Nat) : Nat := b.toNat * Config.ramBankSize + o

/-- The RAM offset of `addr[12:0]`: `addr − $0200` (R134). -/
def ramOffset (a : BitVec 13) : Nat := a.toNat - 0x200

/-- The cell `VRAM[p][Y][X]` of the flattened 256 × 256 view (R25). -/
def vramCell (p : BitVec 3) (y x : Nat) : Nat := (p.toNat * 256 + y) * 256 + x

/-- The cell `FB[f][y][x]` (R26). -/
def fbCell (f : Bool) (y x : Nat) : Nat := (f.toNat * 128 + y) * 128 + x

/-- `off[6:0]` of a window offset (R132). -/
def winX (o : BitVec 14) : Nat := o.toNat % 128

/-- `off[13:7]` of a window offset (R132). -/
def winY (o : BitVec 14) : Nat := o.toNat / 128

/-- The quadrant half that bit 7 of a source register selects: 0 or 128 (R131). -/
def quadBase (g : Byte) : Nat := if g.getLsbD 7 then 128 else 0

/-- The VRAM cell of position (x, y) inside the quadrant that `gx` and `gy` select in the page `BANKING` selects
(R25, R131, Table M2). -/
def quadCell (r : Registers) (y x : Nat) : Nat :=
  vramCell (vramPage r.banking) (quadBase r.gy + y) (quadBase r.gx + x)

/-- The VRAM cell that a window offset names in VRAM mode (R214). -/
def winVramCell (r : Registers) (o : BitVec 14) : Nat := quadCell r (winY o) (winX o)

/-- The framebuffer cell that a window offset names in framebuffer mode: of the draw target (R212). -/
def winFbCell (r : Registers) (o : BitVec 14) : Nat := fbCell (framebufferSel r.banking) (winY o) (winX o)

/-- The RAM cell that `addr[12:0]` names through the selected bank (R167). -/
def bankedRamCell (r : Registers) (a : BitVec 13) : Nat := ramCell (ramBank r.banking) (ramOffset a)

/-- RD.CART's translation (R184): mirrored, direct, or the last 32 KB. -/
def cartByte (c : Cart) (o : BitVec 15) : Byte :=
  match c with
  | .cart8K rom => rom[o.toNat % 0x2000]'(by omega)
  | .cart32K rom => rom[o.toNat]
  | .cart2M rom => rom[0x1F8000 + o.toNat]

/-- The record in which every button of the set `Button` is pressed: the button numbers below `n` (D21). -/
def buttonMask (n : Nat) : BitVec 256 := BitVec.ofNat 256 (2 ^ min n 256 - 1)

/-- A record of buttons of the set on which the two halves differ (D21). -/
def tellingRecord (buttons : Nat) : BitVec 256 := Config.padTell &&& buttonMask buttons

/-- `PAD_ENCODE(pressed, half)` (R128, R177): a free function of the pad's buttons and the half within the constraint of
D21, that the two halves are distinct functions of the buttons. Where the free function does not tell the halves apart on
the telling record, half 1 is the complement of half 0 there. DESIGN CHOICE, safe: log entry 26. -/
def padEncode (buttons : Nat) (pressed : BitVec 256) (half : Bool) : Byte :=
  let v := Config.padEncode pressed half
  if half = true ∧ pressed = tellingRecord buttons ∧ v = Config.padEncode pressed false then ~~~v else v

/-- `FLIP_ADJ(size, offset)` (R240): by default `(size − 128 − offset) mod 256`. -/
def flipAdj (src : ParamSource) (size offset : Byte) : Byte :=
  match src with
  | .specDefault => size - 128 - offset
  | .free => Config.flipAdj size offset

/-- `ACP_DECODE(a)` (R82): by default `a mod 4096`. -/
def acpDecode (src : ParamSource) (a : Addr) : Option (BitVec 12) :=
  match src with
  | .specDefault => some (a.extractLsb' 0 12)
  | .free => Config.acpDecode a

/-- `NativeRate(d) = NOMINAL_HZ / d` as an exact rational, for d in 1..127 (R296). -/
def nativeRate (d : Nat) : Rate := ⟨Config.nominalHz, d⟩

/-- Two rates are the same rational number. -/
def sameRate (a b : Rate) : Bool := a.num * b.den == b.num * a.den

/-- The rate in lowest terms, the one pair of all that stand for the same rational number. A free resampler is a function
of this pair, so that it depends on the rate alone (R326, log entries 14 and 17). -/
def reducedRate (r : Rate) : Rate := ⟨r.num / r.num.gcd r.den, r.den / r.num.gcd r.den⟩

end Sys2Proof.Machine
end

