-- ==== Sys2Proof/Machine/Ops.lean ====
section
/-! DEFINITION. The named operations over the state: memory cells, outputs, diagnostics, cycle counters, the event
lines, and taking the next raw operation. -/

namespace Sys2Proof.Machine

/-- The number of cells of a memory (R21 to R26). -/
def memSize : MemId → Nat
  | .zp => 256
  | .stack => 256
  | .ram => 4 * Config.ramBankSize
  | .aram => 4096
  | .vram => 8 * 65536
  | .fb => 2 * 16384

/-- The byte written last to a cell, or none if the cell has not been written since power-on. -/
def Memory.read : Memory → Nat → Option Byte
  | [], _ => none
  | (k, v) :: rest, a => if k = a then some v else Memory.read rest a

/-- Write a cell, keeping the cell numbers strictly rising. -/
def Memory.write : Memory → Nat → Byte → Memory
  | [], a, v => [(a, v)]
  | (k, w) :: rest, a, v =>
    if a < k then (a, v) :: (k, w) :: rest
    else if a = k then (a, v) :: rest
    else (k, w) :: Memory.write rest a v

/-- The canonical form: cell numbers strictly rising and below `size`. -/
def Memory.wf (size : Nat) : Memory → Bool
  | [] => true
  | (a, _) :: rest =>
    decide (a < size) && (match rest with | [] => true | (b, _) :: _ => decide (a < b)) && Memory.wf size rest

/-- The memory of a name. -/
def Memories.get (m : Memories) : MemId → Memory
  | .zp => m.zp
  | .stack => m.stack
  | .ram => m.ram
  | .aram => m.aram
  | .vram => m.vram
  | .fb => m.fb

/-- Replace the memory of a name. -/
def Memories.set (m : Memories) (id : MemId) (x : Memory) : Memories :=
  match id with
  | .zp => { m with zp := x }
  | .stack => { m with stack := x }
  | .ram => { m with ram := x }
  | .aram => { m with aram := x }
  | .vram => { m with vram := x }
  | .fb => { m with fb := x }

/-- The model's read of one byte of storage. An unwritten cell holds the free value of this power-on (U13). -/
def State.byte (s : State) (id : MemId) (a : Nat) : Byte :=
  ((s.mem.get id).read a).getD (Config.powerOnByte s.env.powerOns id a)

/-- A direct write of one byte of storage. -/
def State.putByte (s : State) (id : MemId) (a : Nat) (v : Byte) : State :=
  { s with mem := s.mem.set id ((s.mem.get id).write a v) }

/-- Hand a record outside the block. -/
def State.emit (s : State) (o : Output) : State :=
  { s with env := { s.env with output := o :: s.env.output } }

/-- `diag K(info)`: append one record and change nothing else (R383). -/
def State.diag (s : State) (d : Diag) : State :=
  { s with env := { s.env with diags := d :: s.env.diags } }

/-- One bus transaction of the primary CPU is one bus cycle (R189). -/
def State.countCycle (s : State) : State :=
  { s with orch := { s.orch with cycleCounter := s.orch.cycleCounter + 1 } }

/-- One ACP access is one ACP cycle (R292, R293). -/
def State.countAcpCycle (s : State) : State :=
  { s with orch := { s.orch with acpCycleCounter := s.orch.acpCycleCounter + 1 } }

/-- `assert LINE` for a line of kind event: deliver one event, which merges with one not yet taken (R395). The block
performs no trap entry: what follows is the CPU's (R399). -/
def State.assertLine (s : State) (l : EventLine) : State :=
  match l with
  | .cpuNmi => { s with lines := { s.lines with cpuNmi := true } }
  | .cpuReset => { s with lines := { s.lines with cpuReset := true } }
  | .acpIrq => { s with lines := { s.lines with acpIrq := true } }
  | .acpNmi => { s with lines := { s.lines with acpNmi := true } }
  | .acpReset => { s with lines := { s.lines with acpReset := true } }

/-- The lines as the primary CPU samples them now (R281, R396, R418). -/
def State.cpuSample (s : State) : CpuSample := ⟨s.lines.cpuIrq, s.lines.cpuNmi, s.lines.cpuReset⟩

/-- The events as the ACP samples them now (R292, R418). -/
def State.acpSample (s : State) : AcpSample := ⟨s.lines.acpIrq, s.lines.acpNmi, s.lines.acpReset⟩

/-- The primary CPU takes its events at the start of a step (R395, R418). -/
def State.takeCpuEvents (s : State) : State :=
  { s with lines := { s.lines with cpuNmi := false, cpuReset := false } }

/-- The ACP takes its events at the start of a step (R395, R418). -/
def State.takeAcpEvents (s : State) : State :=
  { s with lines := { s.lines with acpIrq := false, acpNmi := false, acpReset := false } }

/-- The end of a bus read: the byte is returned and the cycle counted (R160, R189). -/
def State.answerRead (s : State) (addr : Addr) (v : Byte) : State :=
  (s.emit (.busRead addr v)).countCycle

/-- A pad of a port (R41). -/
def State.pad (s : State) : PadPort → Pad
  | .pad1 => s.pad1
  | .pad2 => s.pad2

/-- Replace the pad of a port. -/
def State.setPad (s : State) (p : PadPort) (x : Pad) : State :=
  match p with
  | .pad1 => { s with pad1 := x }
  | .pad2 => { s with pad2 := x }

/-- The other port. -/
def otherPad : PadPort → PadPort
  | .pad1 => .pad2
  | .pad2 => .pad1

/-- `WindowMode()` of the state (R200). -/
def State.windowMode (s : State) : WindowMode := windowModeOf s.regs.dmaFlags

/-- The next raw operation, and the state without it. None when none waits. -/
def State.fetch (s : State) : Option (RawOp × State) :=
  match s.env.pending with
  | [] => none
  | raw :: rest => some (raw, { s with env := { s.env with pending := rest } })

/-- The cartridge a program is launched with where the spec takes a loaded cartridge as a launch premise (R27): an 8 KB
image of zero bytes, inserted by `State.withFetchWord` only. -/
def blankCart : Cart := .cart8K (Vector.replicate 0x2000 0)

end Sys2Proof.Machine
end

