-- ==== Sys2Proof/Machine/Bus.lean ====
section
/-! DEFINITION. The bus operations outside the window (R163 to R187): what each transaction does to the state, and the
meanings of their rows. Every transaction also counts one bus cycle (R189). -/

namespace Sys2Proof.Machine

/-- A read that returns a stored byte (R163, R165, R167, R181). -/
def State.readCell (s : State) (addr : Addr) (id : MemId) (a : Nat) : State := s.answerRead addr (s.byte id a)

/-- A write that stores a byte (R164, R166, R168, R182). -/
def State.writeCell (s : State) (id : MemId) (a : Nat) (v : Byte) : State := (s.putByte id a v).countCycle

/-- A read of a location with nothing to read: 0 and one diagnostic (R174, R186, R211). -/
def State.readNothing (s : State) (addr : Addr) (d : Diag) : State := (s.diag d).answerRead addr 0

/-- A write to a location with nothing to write: one diagnostic (R178, R185, R187). -/
def State.writeNothing (s : State) (d : Diag) : State := (s.diag d).countCycle

/-- RD.ZP (R163). -/
def rdZp (o : BitVec 8) (s : State) : State := s.readCell (zpAddr o) .zp o.toNat

/-- WR.ZP (R164). -/
def wrZp (o : BitVec 8) (v : Byte) (s : State) : State := s.writeCell .zp o.toNat v

/-- RD.STACK (R165). -/
def rdStack (o : BitVec 8) (s : State) : State := s.readCell (stackAddr o) .stack o.toNat

/-- WR.STACK (R166). -/
def wrStack (o : BitVec 8) (v : Byte) (s : State) : State := s.writeCell .stack o.toNat v

/-- RD.RAM (R167): through the selected bank. -/
def rdRam (a : BitVec 13) (s : State) : State := s.readCell (ramBusAddr a) .ram (bankedRamCell s.regs a)

/-- WR.RAM (R168): through the selected bank. -/
def wrRam (a : BitVec 13) (v : Byte) (s : State) : State := s.writeCell .ram (bankedRamCell s.regs a) v

/-- RD.WO (R174): a read of a write-only control register or strobe. -/
def rdWo (addr : Addr) (s : State) : State := s.readNothing addr (.readOfWriteOnly addr)

/-- WR.ACPRST (R169): one `acp_reset` event; nothing is stored. -/
def wrAcprst (s : State) : State := (s.assertLine .acpReset).countCycle

/-- WR.ACPNMI (R170): one `acp_nmi` event; nothing is stored. -/
def wrAcpnmi (s : State) : State := (s.assertLine .acpNmi).countCycle

/-- WR.BANK (R171). -/
def wrBank (v : Byte) (s : State) : State := { s with regs := { s.regs with banking := v } }.countCycle

/-- WR.AUDIO (R172). -/
def wrAudio (v : Byte) (s : State) : State := { s with regs := { s.regs with audioCtl := v } }.countCycle

/-- WR.DMA (R173). -/
def wrDma (v : Byte) (s : State) : State := { s with regs := { s.regs with dmaFlags := v } }.countCycle

/-- The change of the two selects by a read of port `p` (R177), by the parameter `PAD_COUPLING`. -/
def padSelects (s : State) (p : PadPort) : State :=
  let mine := s.pad p
  let other := s.pad (otherPad p)
  match s.cfg.padCoupling with
  | .independent => s.setPad p { mine with portSelect := !mine.portSelect }
  | .resetOther =>
    (s.setPad p { mine with portSelect := !mine.portSelect }).setPad (otherPad p) { other with portSelect := false }
  | .section3Literal =>
    (s.setPad p { mine with portSelect := false }).setPad (otherPad p) { other with portSelect := !other.portSelect }

/-- `PadRead(i)` (R177): the byte comes from the state before the read. -/
def padRead (p : PadPort) (addr : Addr) (s : State) : State :=
  (padSelects s p).answerRead addr (padEncode s.cfg.buttons (s.pad p).pressed (s.pad p).portSelect)

/-- WR.PAD (R178). -/
def wrPad (addr : Addr) (s : State) : State := s.writeNothing (.writeToReadOnly addr)

/-- RD.VIA (R179): 0, silently. -/
def rdVia (r : BitVec 4) (s : State) : State := s.answerRead (viaAddr r) 0

/-- WR.VIA (R180): nothing, silently. -/
def wrVia (s : State) : State := s.countCycle

/-- RD.ARAM (R181). -/
def rdAram (o : BitVec 12) (s : State) : State := s.readCell (aramAddr o) .aram o.toNat

/-- WR.ARAM (R182). -/
def wrAram (o : BitVec 12) (v : Byte) (s : State) : State := s.writeCell .aram o.toNat v

/-- RD.CART (R184), for the cartridge that is loaded. -/
def rdCart (c : Cart) (o : BitVec 15) (s : State) : State := s.answerRead (cartAddr o) (cartByte c o)

/-- WR.CART (R185). -/
def wrCart (o : BitVec 15) (s : State) : State := s.writeNothing (.writeToReadOnly (cartAddr o))

/-- RD.UNMAPPED (R186). -/
def rdUnmapped (addr : Addr) (s : State) : State := s.readNothing addr (.readOfUnmapped addr)

/-- WR.UNMAPPED (R187). -/
def wrUnmapped (addr : Addr) (s : State) : State := s.writeNothing (.writeToUnmapped addr)

/-- Meaning of RD.ZP (R163). -/
def execRdZp (o : BitVec 8) (s : State) : Result := .next (rdZp o s)

/-- Meaning of WR.ZP (R164). -/
def execWrZp (o : BitVec 8) (v : Byte) (s : State) : Result := .next (wrZp o v s)

/-- Meaning of RD.STACK (R165). -/
def execRdStack (o : BitVec 8) (s : State) : Result := .next (rdStack o s)

/-- Meaning of WR.STACK (R166). -/
def execWrStack (o : BitVec 8) (v : Byte) (s : State) : Result := .next (wrStack o v s)

/-- Meaning of RD.RAM (R167). An operand below `$0200` is no RAM address, and no word decodes to it. -/
def execRdRam (a : BitVec 13) (s : State) : Result := if ramAddr a then .next (rdRam a s) else .fault .noSuchCell

/-- Meaning of WR.RAM (R168). An operand below `$0200` is no RAM address, and no word decodes to it. -/
def execWrRam (a : BitVec 13) (v : Byte) (s : State) : Result :=
  if ramAddr a then .next (wrRam a v s) else .fault .noSuchCell

/-- Meaning of RD.WO.ACPRST (R174). -/
def execRdWoAcprst (s : State) : Result := .next (rdWo 0x2000 s)

/-- Meaning of WR.ACPRST (R169); the data byte is ignored. -/
def execWrAcprst (_v : Byte) (s : State) : Result := .next (wrAcprst s)

/-- Meaning of RD.WO.ACPNMI (R174). -/
def execRdWoAcpnmi (s : State) : Result := .next (rdWo 0x2001 s)

/-- Meaning of WR.ACPNMI (R170); the data byte is ignored. -/
def execWrAcpnmi (_v : Byte) (s : State) : Result := .next (wrAcpnmi s)

/-- Meaning of RD.WO.BANK (R174). -/
def execRdWoBank (s : State) : Result := .next (rdWo 0x2005 s)

/-- Meaning of WR.BANK (R171). -/
def execWrBank (v : Byte) (s : State) : Result := .next (wrBank v s)

/-- Meaning of RD.WO.AUDIO (R174). -/
def execRdWoAudio (s : State) : Result := .next (rdWo 0x2006 s)

/-- Meaning of WR.AUDIO (R172). -/
def execWrAudio (v : Byte) (s : State) : Result := .next (wrAudio v s)

/-- Meaning of RD.WO.DMA (R174). -/
def execRdWoDma (s : State) : Result := .next (rdWo 0x2007 s)

/-- Meaning of WR.DMA (R173). -/
def execWrDma (v : Byte) (s : State) : Result := .next (wrDma v s)

/-- Meaning of RD.PAD1 (R175). -/
def execRdPad1 (s : State) : Result := .next (padRead .pad1 0x2008 s)

/-- Meaning of WR.PAD.1 (R178); the data byte is dropped. -/
def execWrPad1 (_v : Byte) (s : State) : Result := .next (wrPad 0x2008 s)

/-- Meaning of RD.PAD2 (R176). -/
def execRdPad2 (s : State) : Result := .next (padRead .pad2 0x2009 s)

/-- Meaning of WR.PAD.2 (R178); the data byte is dropped. -/
def execWrPad2 (_v : Byte) (s : State) : Result := .next (wrPad 0x2009 s)

/-- Meaning of RD.VIA (R179). -/
def execRdVia (r : BitVec 4) (s : State) : Result := .next (rdVia r s)

/-- Meaning of WR.VIA (R180); the data byte is dropped. -/
def execWrVia (_r : BitVec 4) (_v : Byte) (s : State) : Result := .next (wrVia s)

/-- Meaning of RD.ARAM (R181). -/
def execRdAram (o : BitVec 12) (s : State) : Result := .next (rdAram o s)

/-- Meaning of WR.ARAM (R182). -/
def execWrAram (o : BitVec 12) (v : Byte) (s : State) : Result := .next (wrAram o v s)

/-- Meaning of RD.CART (R184). Without a cartridge the block has no defined behaviour for the read (R27, U7). -/
def execRdCart (o : BitVec 15) (s : State) : Result :=
  match s.mem.cart with
  | some c => .next (rdCart c o s)
  | none => .refused .noCartridge

/-- Meaning of WR.CART (R185); the data byte is dropped. -/
def execWrCart (o : BitVec 15) (_v : Byte) (s : State) : Result := .next (wrCart o s)

/-- Meaning of RD.UNMAPPED (R186). -/
def execRdUnmapped (addr : Addr) (s : State) : Result := .next (rdUnmapped addr s)

/-- Meaning of WR.UNMAPPED (R187); the data byte is dropped. -/
def execWrUnmapped (addr : Addr) (_v : Byte) (s : State) : Result := .next (wrUnmapped addr s)

end Sys2Proof.Machine
end

