-- ==== Sys2Proof/Machine/Window.lean ====
section
/-! DEFINITION. The window `$4000-$7FFF` (R200 to R215) and the two entry points of the bus (R160, R161). -/

namespace Sys2Proof.Machine

/-- RD.BR (R211): 0 and one diagnostic. -/
def rdBr (o : BitVec 14) (s : State) : State := s.readNothing (winAddr o) (.readOfWriteOnly (winAddr o))

/-- RD.FB (R212): the draw target. -/
def rdFb (o : BitVec 14) (s : State) : State := s.readCell (winAddr o) .fb (winFbCell s.regs o)

/-- WR.FB (R213): the draw target, unconditionally. -/
def wrFb (o : BitVec 14) (v : Byte) (s : State) : State := s.writeCell .fb (winFbCell s.regs o) v

/-- RD.VRAM (R214): the quadrant that `gx` and `gy` select now. -/
def rdVram (o : BitVec 14) (s : State) : State := s.readCell (winAddr o) .vram (winVramCell s.regs o)

/-- WR.VRAM (R215). -/
def wrVram (o : BitVec 14) (v : Byte) (s : State) : State := s.writeCell .vram (winVramCell s.regs o) v

/-- WR.BR0 (R203). -/
def wrVx (v : Byte) (s : State) : State := { s with regs := { s.regs with vx := v } }.countCycle

/-- WR.BR1 (R204). -/
def wrVy (v : Byte) (s : State) : State := { s with regs := { s.regs with vy := v } }.countCycle

/-- WR.BR2 (R205). -/
def wrGx (v : Byte) (s : State) : State := { s with regs := { s.regs with gx := v } }.countCycle

/-- WR.BR3 (R206). -/
def wrGy (v : Byte) (s : State) : State := { s with regs := { s.regs with gy := v } }.countCycle

/-- WR.BR4 (R207). -/
def wrWidth (v : Byte) (s : State) : State := { s with regs := { s.regs with width := v } }.countCycle

/-- WR.BR5 (R208). -/
def wrHeight (v : Byte) (s : State) : State := { s with regs := { s.regs with height := v } }.countCycle

/-- WR.BR6 (R209): clear the pending interrupt and raise the start strobe; nothing is stored. -/
def wrStart (s : State) : State :=
  { s with blit := { s.blit with irqPending := false }, regs := { s.regs with startStrobe := true } }.countCycle

/-- WR.BR7 (R210). -/
def wrColor (v : Byte) (s : State) : State := { s with regs := { s.regs with color := v } }.countCycle

/-- A window write in register mode: the register of `addr[2:0]` (R202, R203 to R210). -/
def writeBr (i : Nat) (v : Byte) (s : State) : State :=
  match i with
  | 0 => wrVx v s
  | 1 => wrVy v s
  | 2 => wrGx v s
  | 3 => wrGy v s
  | 4 => wrWidth v s
  | 5 => wrHeight v s
  | 6 => wrStart s
  | _ => wrColor v s

/-- `WindowRead` (R183, R139). -/
def windowRead (o : BitVec 14) (s : State) : State :=
  match s.windowMode with
  | .registers => rdBr o s
  | .framebuffer => rdFb o s
  | .vram => rdVram o s

/-- `WindowWrite` (R183, R139). -/
def windowWrite (o : BitVec 14) (v : Byte) (s : State) : State :=
  match s.windowMode with
  | .registers => writeBr (o.toNat % 8) v s
  | .framebuffer => wrFb o v s
  | .vram => wrVram o v s

/-- `MemRead(addr, 1)` (R160), for the cartridge that is loaded. -/
def memRead (c : Cart) (addr : Addr) (s : State) : State :=
  match region addr with
  | .zp => rdZp (addr.extractLsb' 0 8) s
  | .stack => rdStack (addr.extractLsb' 0 8) s
  | .ram => rdRam (addr.extractLsb' 0 13) s
  | .acprst => rdWo addr s
  | .acpnmi => rdWo addr s
  | .banking => rdWo addr s
  | .audioctl => rdWo addr s
  | .dmaflags => rdWo addr s
  | .pad1 => padRead .pad1 addr s
  | .pad2 => padRead .pad2 addr s
  | .via => rdVia (addr.extractLsb' 0 4) s
  | .aram => rdAram (addr.extractLsb' 0 12) s
  | .window => windowRead (addr.extractLsb' 0 14) s
  | .cart => rdCart c (addr.extractLsb' 0 15) s
  | .unmapped => rdUnmapped addr s

/-- `MemWrite(addr, 1, v)` (R161). -/
def memWrite (addr : Addr) (v : Byte) (s : State) : State :=
  match region addr with
  | .zp => wrZp (addr.extractLsb' 0 8) v s
  | .stack => wrStack (addr.extractLsb' 0 8) v s
  | .ram => wrRam (addr.extractLsb' 0 13) v s
  | .acprst => wrAcprst s
  | .acpnmi => wrAcpnmi s
  | .banking => wrBank v s
  | .audioctl => wrAudio v s
  | .dmaflags => wrDma v s
  | .pad1 => wrPad addr s
  | .pad2 => wrPad addr s
  | .via => wrVia s
  | .aram => wrAram (addr.extractLsb' 0 12) v s
  | .window => windowWrite (addr.extractLsb' 0 14) v s
  | .cart => wrCart (addr.extractLsb' 0 15) s
  | .unmapped => wrUnmapped addr s

/-- One transaction of the primary CPU. -/
def busAccess (c : Cart) (op : BusOp) (s : State) : State :=
  match op with
  | .read addr => memRead c addr s
  | .write addr v => memWrite addr v s

/-- Meaning of RD.WIN (R183): handed over to the mode's operation. -/
def execRdWin (o : BitVec 14) (s : State) : Result := .next (windowRead o s)

/-- Meaning of WR.WIN (R183): handed over to the mode's operation. -/
def execWrWin (o : BitVec 14) (v : Byte) (s : State) : Result := .next (windowWrite o v s)

/-- Meaning of WR.BR0 (R203). -/
def execWrBr0 (_k : BitVec 11) (v : Byte) (s : State) : Result := .next (wrVx v s)

/-- Meaning of WR.BR1 (R204). -/
def execWrBr1 (_k : BitVec 11) (v : Byte) (s : State) : Result := .next (wrVy v s)

/-- Meaning of WR.BR2 (R205). -/
def execWrBr2 (_k : BitVec 11) (v : Byte) (s : State) : Result := .next (wrGx v s)

/-- Meaning of WR.BR3 (R206). -/
def execWrBr3 (_k : BitVec 11) (v : Byte) (s : State) : Result := .next (wrGy v s)

/-- Meaning of WR.BR4 (R207). -/
def execWrBr4 (_k : BitVec 11) (v : Byte) (s : State) : Result := .next (wrWidth v s)

/-- Meaning of WR.BR5 (R208). -/
def execWrBr5 (_k : BitVec 11) (v : Byte) (s : State) : Result := .next (wrHeight v s)

/-- Meaning of WR.BR6 (R209); the data byte is ignored. -/
def execWrBr6 (_k : BitVec 11) (_v : Byte) (s : State) : Result := .next (wrStart s)

/-- Meaning of WR.BR7 (R210). -/
def execWrBr7 (_k : BitVec 11) (v : Byte) (s : State) : Result := .next (wrColor v s)

/-- Meaning of RD.BR (R211). -/
def execRdBr (o : BitVec 14) (s : State) : Result := .next (rdBr o s)

/-- Meaning of RD.FB (R212). -/
def execRdFb (o : BitVec 14) (s : State) : Result := .next (rdFb o s)

/-- Meaning of WR.FB (R213). -/
def execWrFb (o : BitVec 14) (v : Byte) (s : State) : Result := .next (wrFb o v s)

/-- Meaning of RD.VRAM (R214). -/
def execRdVram (o : BitVec 14) (s : State) : Result := .next (rdVram o s)

/-- Meaning of WR.VRAM (R215). -/
def execWrVram (o : BitVec 14) (v : Byte) (s : State) : Result := .next (wrVram o v s)

end Sys2Proof.Machine
end

