-- ==== Sys2Proof/Machine/Blitter.lean ====
section
/-! DEFINITION. The DMA blitter (R230 to R254): one step, cut into the phases of R232. -/

namespace Sys2Proof.Machine

/-- The blitter's state on blit entry: the latches and the cleared counters (R233, R38, R39). -/
def blitEntry (r : Registers) (b : Blitter) : Blitter :=
  { b with
    srcY := r.gy
    dstY := r.vy
    heightL := r.height
    colorL := ~~~r.color
    colorFillL := colorfillEnable r.dmaFlags
    offsetX := 0
    offsetY := 0
    bstate := .running }

/-- Phase 0 (R233): use up the start strobe, and enter a blit if `Idle` with `dma_enable` set. -/
def blitStart (s : State) : State :=
  if s.regs.startStrobe then
    { s with
      regs := { s.regs with startStrobe := false }
      blit := if s.blit.bstate = .idle ∧ dmaEnable s.regs.dmaFlags = true then blitEntry s.regs s.blit else s.blit }
  else s

/-- Phase 2 (R235): the row wrap, for the live `width`. -/
def blitWrap (w : Byte) (b : Blitter) : Blitter :=
  if w.toNat ≤ b.offsetX.toNat then
    if flipped w then { b with offsetX := w - 128, offsetY := b.offsetY - 1 }
    else { b with offsetX := 0, offsetY := b.offsetY + 1 }
  else b

/-- Phase 3's test (R237): the row counter has reached the latched height. With a latched height of 0 it holds in the
entering step, whatever the width. R250 says that a blit with `width` of 128 or more handles one pixel and takes 2 steps
"whatever its extents"; for `height` = 0 that disagrees with the literal phases of R232 and with R237, which the model
follows: 1 step and no pixel. DESIGN CHOICE, unsafe: log entry 25. -/
def blitDone (b : Blitter) : Bool := b.heightL.toNat ≤ b.offsetY.toNat

/-- Phase 3 (R237): completion, with the interrupt if `irq_enable` is set now. -/
def blitComplete (flags : Byte) (b : Blitter) : Blitter :=
  { b with
    offsetY := if flipped b.heightL then b.heightL - 128 else 0
    bstate := .idle
    irqPending := b.irqPending || irqEnable flags }

/-- `Advance(w)` (R245). -/
def blitAdvance (w : Byte) (b : Blitter) : Blitter :=
  { b with offsetX := if flipped w then b.offsetX - 1 else b.offsetX + 1 }

/-- The source offset of one axis (R240): `FLIP_ADJ` where the extent is flipped, the counter itself otherwise. -/
def sourceOffset (src : ParamSource) (extent offset : Byte) : Byte :=
  if flipped extent then flipAdj src extent offset else offset

/-- The source coordinate of one axis inside the quadrant (R241): linear modulo 128 with `gcarry`, else inside the
16 × 16 tile. -/
def sourceCoord (linear : Bool) (src off : Byte) : Nat :=
  if linear then (src.toNat + off.toNat) % 128
  else ((src &&& 0x70) ||| ((src + off) &&& 0x0F)).toNat

/-- Phase 5 (R239 to R242): the color about to be written. -/
def blitColor (s : State) : Byte :=
  if s.blit.colorFillL then s.blit.colorL
  else
    let linear := gcarry s.regs.dmaFlags
    let ox := sourceOffset s.cfg.flipAdj s.regs.width s.blit.offsetX
    let oy := sourceOffset s.cfg.flipAdj s.blit.heightL s.blit.offsetY
    s.byte .vram (quadCell s.regs (sourceCoord linear s.blit.srcY oy) (sourceCoord linear s.regs.gx ox))

/-- Phases 6 and 7 (R243, R244): the pixel of the step, dropped if off-screen or transparent. -/
def blitPixel (s : State) : State :=
  let dx := s.regs.vx + s.blit.offsetX
  let dy := s.blit.dstY + s.blit.offsetY
  let c := blitColor s
  if dx.toNat < 128 ∧ dy.toNat < 128 ∧ (opaqueFlag s.regs.dmaFlags = true ∨ c ≠ 0) then
    s.putByte .fb (fbCell (framebufferSel s.regs.banking) dy.toNat dx.toNat) c
  else s

/-- Phases 1 to 7 of a `Running` blitter (R234 to R245). -/
def blitWork (s : State) : State :=
  let w := s.regs.width
  let s := { s with blit := blitWrap w s.blit }
  if blitDone s.blit then { s with blit := blitComplete s.regs.dmaFlags s.blit }
  else
    let s := if dmaEnable s.regs.dmaFlags then blitPixel s else s
    { s with blit := blitAdvance w s.blit }

/-- `BSTEP()` (R232). -/
def blitStep (s : State) : State :=
  let s := blitStart s
  match s.blit.bstate with
  | .idle => s
  | .running => blitWork s

/-- `n` blitter steps (R287). -/
def blitSteps : Nat → State → State
  | 0, s => s
  | n + 1, s => blitSteps n (blitStep s)

/-- The loop of `H.INSTANT` (R367), cut off after `n` steps. -/
def blitUntilIdle : Nat → State → State
  | 0, s => s
  | n + 1, s => if s.blit.bstate = .running ∨ s.regs.startStrobe = true then blitUntilIdle n (blitStep s) else s

/-- Meaning of BSTEP (R232). -/
def execBstep (s : State) : Result := .next (blitStep s)

end Sys2Proof.Machine
end

