-- ==== Sys2Proof/Machine/Float.lean ====
section
/-! DEFINITION. The binary32 arithmetic of the sample conversion (R323): exact results rounded to nearest even. -/

namespace Sys2Proof.Machine

/-- A finite binary32 number as an exact fraction: signed numerator and positive denominator. -/
def f32ToRat (x : F32) : Int × Nat :=
  let e := (x.extractLsb' 23 8).toNat
  let f := (x.extractLsb' 0 23).toNat
  let m := if e = 0 then f else 2 ^ 23 + f
  let sh := if e = 0 then 1 else e
  let n : Nat := m * 2 ^ (sh - 150)
  (if x.getLsbD 31 then -(n : Int) else n, 2 ^ (150 - sh))

/-- `n / d` rounded to an integer, ties to even. -/
def roundDiv (n d : Nat) : Nat :=
  let q := n / d
  let r := n % d
  if 2 * r < d then q else if d < 2 * r then q + 1 else if q % 2 = 0 then q else q + 1

/-- The exponent field (at least 1) at which the significand of `n / d` has 24 bits, for `n` and `d` positive. -/
def f32Exponent (n d : Nat) : Nat :=
  let k : Int := (n.log2 : Int) - d.log2
  let e : Int := k + 127
  let scaled : Bool := if 0 ≤ k then d * 2 ^ k.toNat ≤ n else d ≤ n * 2 ^ (-k).toNat
  (if scaled then e else e - 1).toNat.max 1

/-- The binary32 number nearest to `± n / d`, ties to even, with gradual underflow and overflow to infinity. -/
def f32OfRat (neg : Bool) (n d : Nat) : F32 :=
  let mag : Nat :=
    if n = 0 then 0
    else
      let e := f32Exponent n d
      let m := roundDiv (n * 2 ^ (150 - e)) (d * 2 ^ (e - 150))
      min ((e - 1) * 2 ^ 23 + m) 0x7F800000
  BitVec.ofNat 32 (mag + if neg then 2 ^ 31 else 0)

/-- The binary32 number nearest to a fraction with a signed numerator. -/
def f32OfInt (n : Int) (d : Nat) : F32 := f32OfRat (n < 0) n.natAbs d

/-- Division of finite binary32 numbers, the divisor not 0. -/
def f32Div (x y : F32) : F32 :=
  let a := f32ToRat x
  let b := f32ToRat y
  f32OfInt (a.1 * b.2 * b.1.sign) (a.2 * b.1.natAbs)

/-- Multiplication of finite binary32 numbers. -/
def f32Mul (x y : F32) : F32 :=
  let a := f32ToRat x
  let b := f32ToRat y
  f32OfInt (a.1 * b.1) (a.2 * b.2)

/-- Subtraction of finite binary32 numbers. -/
def f32Sub (x y : F32) : F32 :=
  let a := f32ToRat x
  let b := f32ToRat y
  f32OfInt (a.1 * b.2 - b.1 * a.2) (a.2 * b.2)

/-- A natural number in binary32; exact for the bytes 0 to 255. -/
def f32OfNat (n : Nat) : F32 := f32OfInt n 1

/-- `ToF32(s) = (s/255)*2-1` in binary32, each operation rounded to nearest even, in that order (R323, D35). -/
def toF32 (v : Byte) : F32 :=
  f32Sub (f32Mul (f32Div (f32OfNat v.toNat) (f32OfNat 255)) (f32OfNat 2)) (f32OfNat 1)

end Sys2Proof.Machine
end

