-- ==== Sys2Proof/Machine/Audio.lean ====
section
/-! DEFINITION. The audio pipeline (R320 to R335). -/

namespace Sys2Proof.Machine

/-- `A.PUSH(s)` (R322): the newest sample is the one dropped. -/
def audioPush (v : Byte) (s : State) : State :=
  if s.audio.nr.length < Config.nativeCap then { s with audio := { s.audio with nr := s.audio.nr ++ [v] } }
  else s.diag (.nativeOverflow v)

/-- `floor(k · r / TARGET_RATE)`: the input sample that output sample `k` repeats in `RESAMPLE_ZOH` (R326). -/
def zohIndex (r : Rate) (k : Nat) : Nat := k * r.num / (Config.targetRate * r.den)

/-- The first output number whose input number is `n` or more: outputs below it can be emitted once `n` inputs are in
(R326). -/
def zohEnd (r : Rate) (n : Nat) : Nat := (n * (Config.targetRate * r.den) + r.num - 1) / r.num

/-- One pull of `RESAMPLE_ZOH` (R326). -/
def zohPull (rs : Resampler) (y : List F32) : Resampler × List F32 :=
  let stop := zohEnd rs.rate (rs.nIn + y.length)
  let out := (List.range (stop - rs.nOut)).map fun j => y.getD (zohIndex rs.rate (rs.nOut + j) - rs.nIn) 0
  ({ rs with nIn := rs.nIn + y.length, nOut := max rs.nOut stop }, out)

/-- `floor(n · TARGET_RATE / r)`, the lower bound of R326 before its slack. Its upper bound, the same quotient rounded up,
is `zohEnd r n`. -/
def outputFloor (r : Rate) (n : Nat) : Nat := n * (Config.targetRate * r.den) / r.num

/-- The outputs that any resampler has produced after `n` inputs, when it wants `total` of them: held between the two
bounds of the contract of R326. -/
def boundOutputs (r : Rate) (n total : Nat) : Nat :=
  max (outputFloor r n - Config.resampleSlack) (min total (zohEnd r n + Config.resampleSlack))

/-- The value of every sample consumed since creation, after the chunk `y`, if there is one (R326). -/
def steadyAfter (rs : Resampler) (y : List F32) : Option F32 :=
  y.head?.bind fun v => if (∀ x ∈ y, x = v) ∧ (rs.nIn = 0 ∨ rs.steady = some v) then some v else none

/-- Output sample `j` of a pull of any other resampler (R326): the settled value where the input has been constant for
long enough, and else free. -/
def freeSample (rs : Resampler) (y : List F32) (j : Nat) : F32 :=
  match steadyAfter rs y with
  | some v =>
    if Config.resampleSettle (reducedRate rs.rate) v ≤ rs.nIn then v
    else Config.resampleSample (reducedRate rs.rate) rs.inner y j
  | none => Config.resampleSample (reducedRate rs.rate) rs.inner y j

/-- One pull of any other resampler: a free function within the contract that R326 lays on every instance. -/
def freePull (rs : Resampler) (y : List F32) : Resampler × List F32 :=
  let n := rs.nIn + y.length
  let wanted := rs.nOut + Config.resampleCount (reducedRate rs.rate) rs.inner y
  let count := boundOutputs rs.rate n wanted - rs.nOut
  ({ rs with
      nIn := n
      nOut := rs.nOut + count
      steady := steadyAfter rs y
      inner := Config.resampleNext (reducedRate rs.rate) rs.inner y },
    (List.range count).map (freeSample rs y))

/-- `RESAMPLE(RS, y)` (R326), by the parameter. -/
def resample (src : ParamSource) (rs : Resampler) (y : List F32) : Resampler × List F32 :=
  match src with
  | .specDefault => zohPull rs y
  | .free => freePull rs y

/-- A fresh resampler for a rate (R326, R332). The rate is kept as the pair it was given in, which need not be in lowest
terms; the free instance's state is made from the rate in lowest terms, so that two pairs for the same rate make the same
one, as R326 asks. The pair is the model's form of a rate. DESIGN CHOICE, safe: log entry 14. -/
def freshResampler (src : ParamSource) (r : Rate) : Resampler :=
  match src with
  | .specDefault => { rate := r, nIn := 0, nOut := 0, steady := none, inner := [] }
  | .free => { rate := r, nIn := 0, nOut := 0, steady := none, inner := Config.resampleInit (reducedRate r) }

/-- `Exhausted` (R324). -/
def exhausted (a : AudioPipeline) : Bool := a.nr.length < Config.exhaustMin

/-- The pull of R325 for the resampler `rs`: the 64 oldest samples, converted and resampled. -/
def pullChunk (s : State) (rs : Resampler) : State :=
  let p := resample s.cfg.resample rs ((s.audio.nr.take Config.exhaustMin).map toF32)
  { s with
    audio := { s.audio with nr := s.audio.nr.drop Config.exhaustMin, rs := some p.1, aq := s.audio.aq ++ p.2 } }

/-- `A.RESAMPLE()` (R325). R325 calls a pull with 64 samples or more and no resampler not reachable and gives it no effect.
A.RESAMPLE and A.DRAIN as operations of their own are refused there; a drain that is part of ACPLOOP takes it as exhausted
and leaves `NR` as it is. DESIGN CHOICE, unsafe: log entry 13. -/
def audioResample (s : State) : PullStatus × State :=
  if exhausted s.audio then (.exhausted, s)
  else
    match s.audio.rs with
    | some rs => (.pulled, pullChunk s rs)
    | none => (.exhausted, s)

/-- The 64 oldest samples of a queue that holds a full block (R327). -/
def firstBlock (aq : List F32) (h : Config.blockLen ≤ aq.length) : Block :=
  ⟨(aq.take Config.blockLen).toArray, by simpa [Config.blockLen] using h⟩

/-- `A.COMMIT()` (R327). The inner drop branch is kept although it cannot be reached (C8). -/
def audioCommit (s : State) : CommitStatus × State :=
  if h : Config.blockLen ≤ s.audio.aq.length then
    if Config.outCap - s.audio.ring.length < Config.outFreeMin then (.noRoom, s)
    else
      let b := firstBlock s.audio.aq h
      let s := { s with audio := { s.audio with aq := s.audio.aq.drop Config.blockLen } }
      if s.audio.ring.length < Config.outCap then
        (.committed, { s with audio := { s.audio with ring := s.audio.ring ++ [b] } })
      else (.committed, s.diag (.outputOverflow b))
  else (.notReady, s)

/-- `Silence` (R330): 64 samples of value 0.0. -/
def silence : Block := Vector.replicate 64 0

/-- `A.POP()` (R329, R330): the oldest block, or silence. -/
def audioPop (s : State) : State :=
  match s.audio.ring with
  | b :: rest => { s with audio := { s.audio with ring := rest } }.emit (.block b)
  | [] => s.emit (.block silence)

/-- `n` pops in a row. -/
def audioPops : Nat → State → State
  | 0, s => s
  | n + 1, s => audioPops n (audioPop s)

/-- The audio callback's turn between two producer operations (R321, R369): the pops that the schedule puts here, none
when no schedule is given. -/
def audioThread (s : State) : State :=
  match s.env.popIn with
  | [] => s
  | n :: rest => audioPops n { s with env := { s.env with popIn := rest } }

/-- The first loop of `A.DRAIN` (R328), cut off after `n` pulls. -/
def drainResample : Nat → State → State
  | 0, s => s
  | n + 1, s =>
    match audioResample s with
    | (.pulled, t) => drainResample n t
    | (.exhausted, _) => s

/-- The second loop of `A.DRAIN` (R328), cut off after `n` commits, with the callback's turn before each commit. -/
def drainCommit : Nat → State → State
  | 0, s => s
  | n + 1, s =>
    match audioCommit (audioThread s) with
    | (.committed, t) => drainCommit n t
    | (.notReady, t) => t
    | (.noRoom, t) => t

/-- `A.DRAIN()` (R328). Each pull takes 64 samples of `NR` and each commit 64 of `AQ`, so the bounds are never reached
before the loops end. -/
def audioDrain (s : State) : State :=
  let s := drainResample (s.audio.nr.length / Config.exhaustMin + 1) s
  drainCommit (s.audio.aq.length / Config.blockLen + 1) s

/-- `A.RECREATE(r)` (R332). -/
def audioRecreate (r : Rate) (s : State) : State :=
  { s with audio := { nr := [], rs := some (freshResampler s.cfg.resample r), aq := [], ring := [] } }

/-- There are samples to pull and no resampler (R325: not reachable). -/
def resamplerMissing (s : State) : Bool := !exhausted s.audio && s.audio.rs.isNone

/-- Meaning of A.PUSH (R322). -/
def execAPush (v : Byte) (s : State) : Result := .next (audioPush v s)

/-- Meaning of A.RESAMPLE (R325). -/
def execAResample (s : State) : Result :=
  if resamplerMissing s then .refused .noResampler
  else .next ((audioResample s).2.emit (.resample (audioResample s).1))

/-- Meaning of A.COMMIT (R327). -/
def execACommit (s : State) : Result := .next ((audioCommit s).2.emit (.commit (audioCommit s).1))

/-- Meaning of A.DRAIN (R328). -/
def execADrain (s : State) : Result := if resamplerMissing s then .refused .noResampler else .next (audioDrain s)

/-- Meaning of A.POP (R329). -/
def execAPop (s : State) : Result := .next (audioPop s)

/-- Meaning of A.RECREATE (R332). A rate that is not a positive number has no pipeline (U6). -/
def execARecreate (num den : Nat) (s : State) : Result :=
  if 0 < num ∧ 0 < den then .next (audioRecreate ⟨num, den⟩ s) else .refused .noSuchRate

end Sys2Proof.Machine
end

