-- ==== Sys2Proof/Machine/Orchestrator.lean ====
section
/-! DEFINITION. The timing orchestrator (R280 to R302): the tick, the iteration, the ACP sub-loop, the sample event and
the ACP's accesses. -/

namespace Sys2Proof.Machine

/-- ACP.RD (R293): `ARAM` through `ACP_DECODE`, 0 where it maps nothing. -/
def acpRead (a : Addr) (s : State) : State :=
  let v : Byte :=
    match acpDecode s.cfg.acpDecode a with
    | some o => s.byte .aram o.toNat
    | none => 0
  (s.emit (.acpRead a v)).countAcpCycle

/-- ACP.WR (R293): discarded where `ACP_DECODE` maps nothing. -/
def acpWrite (a : Addr) (v : Byte) (s : State) : State :=
  match acpDecode s.cfg.acpDecode a with
  | some o => (s.putByte .aram o.toNat v).countAcpCycle
  | none => s.countAcpCycle

/-- One access of the ACP. -/
def acpAccess (op : BusOp) (s : State) : State :=
  match op with
  | .read a => acpRead a s
  | .write a v => acpWrite a v s

/-- The step that an input of the primary CPU gives for the lines it samples (R8). -/
def cpuAnswer (x : CpuInput) (l : CpuSample) : CpuStep :=
  ((x.answers.find? fun p => p.1 = l).map fun p => p.2).getD x.plain

/-- The step that an input of the ACP gives for the events it samples (R8). -/
def acpAnswer (x : AcpInput) (l : AcpSample) : AcpStep :=
  ((x.answers.find? fun p => p.1 = l).map fun p => p.2).getD x.plain

/-- `DMA_FLAGS` after a transaction, when it was `flags` before (R173). -/
def flagsAfter (op : BusOp) (flags : Byte) : Byte :=
  match op with
  | .write addr v => if addr = 0x2007 then v else flags
  | .read _ => flags

/-- A transaction writes the framebuffer, when `DMA_FLAGS` is `flags` before it (R200, R213). -/
def writesFramebuffer (op : BusOp) (flags : Byte) : Bool :=
  match op with
  | .write addr _ => decide (region addr = .window) && decide (windowModeOf flags = .framebuffer)
  | .read _ => false

/-- A transaction sets `dma_enable` (R173). -/
def setsDmaEnable (op : BusOp) : Bool :=
  match op with
  | .write addr v => decide (addr = 0x2007) && dmaEnable v
  | .read _ => false

/-- The transactions without those that set `dma_enable` after one that writes the framebuffer. `owned` says that one has
been before. -/
def ownedOps : Byte → Bool → List BusOp → List BusOp
  | _, _, [] => []
  | flags, owned, op :: ops =>
    if owned && setsDmaEnable op then ownedOps flags owned ops
    else op :: ownedOps (flagsAfter op flags) (owned || writesFramebuffer op flags) ops

/-- The step that a CPU under the contract of `cfg` takes where its input or the free value gives `st`. By default it is
that step, whatever it holds (R281, R418). Under `oneOwner` it sets `dma_enable` at no transaction after a write to the
framebuffer, so that R218 holds; a step of a 6502-family CPU is left as it is, since no instruction does both. DESIGN
CHOICE: log entry 24. -/
def cpuConform (s : State) (st : CpuStep) : CpuStep :=
  match s.cfg.cpuContract with
  | .anySequence => st
  | .oneOwner =>
    { st with
      rest := ownedOps (flagsAfter st.first s.regs.dmaFlags) (writesFramebuffer st.first s.regs.dmaFlags) st.rest }

/-- What the primary CPU does in its next step, on the lines it samples now: by the queue's head, or a free step (R8), within the
CPU's contract (R218, R418). -/
def nextCpuStep (s : State) : CpuStep × State :=
  match s.env.cpuIn with
  | x :: rest => (cpuConform s (cpuAnswer x s.cpuSample), { s with env := { s.env with cpuIn := rest } })
  | [] =>
    (cpuConform s (Config.cpuStep s.env.cpuFree s.cpuSample),
      { s with env := { s.env with cpuFree := s.env.cpuFree + 1 } })

/-- What the ACP does in its next step, on the events it samples now: by the queue's head, or a free step (R8). -/
def nextAcpStep (s : State) : AcpStep × State :=
  match s.env.acpIn with
  | x :: rest => (acpAnswer x s.acpSample, { s with env := { s.env with acpIn := rest } })
  | [] => (Config.acpStep s.env.acpFree s.acpSample, { s with env := { s.env with acpFree := s.env.acpFree + 1 } })

/-- `CPU.step()` (R281): the CPU samples its lines, takes its events, then issues its transactions in order. -/
def cpuStep (c : Cart) (s : State) : State :=
  let p := nextCpuStep s
  (p.1.first :: p.1.rest).foldl (fun t op => busAccess c op t) p.2.takeCpuEvents

/-- `ACP.step()` (R292) with the byte it presents: the ACP samples and takes its events, then makes its accesses in
order. -/
def acpStep (s : State) : Byte × State :=
  let p := nextAcpStep s
  (p.1.sample, (p.1.first :: p.1.rest).foldl (fun t op => acpAccess op t) p.2.takeAcpEvents)

/-- The pipeline has been created for this rate; `none` differs from every rate (R295, R332). -/
def rateMatches (a : AudioPipeline) (r : Rate) : Bool :=
  match a.rs with
  | some rs => sameRate rs.rate r
  | none => false

/-- The rate check of `SAMPLE()` (R295): the pipeline is created again if its rate differs. -/
def ensureRate (r : Rate) (s : State) : State := if rateMatches s.audio r then s else audioRecreate r s

/-- The rate check and the push of `SAMPLE()` (R295). -/
def sampleQueue (r : Rate) (v : Byte) (s : State) : State := audioPush v (ensureRate r s)

/-- The pipeline part of `SAMPLE()` (R295): the rate check, the push and the drain. -/
def samplePipeline (r : Rate) (v : Byte) (s : State) : State := audioDrain (sampleQueue r v s)

/-- A sample event (R295) with the byte `ACP_SAMPLE`, whose pipeline part is `pipe`. With a divisor of 0 the pipeline is
left as it was (U6). -/
def sampleEventBy (pipe : Rate → Byte → State → State) (v : Byte) (s : State) : State :=
  let d := rateDivisor s.regs.audioCtl
  let s := { s with orch := { s.orch with sampleCountdown := 4 * (d : Int) } }.assertLine .acpIrq
  if d = 0 then s else pipe (nativeRate d) v (audioThread s)

/-- `SAMPLE()` (R295). -/
def sampleEvent (v : Byte) (s : State) : State := sampleEventBy samplePipeline v s

/-- The sample event inside the ACP's loop. The spec disagrees with itself on a burst of them: R295 and R328 drain after
every push, so that `NR` cannot overflow, while R300 and R453 say that most pushes of a burst find `NR` full and are
dropped. By `drainPoint` the event is that of R295, the default, or leaves the drain to the end of the loop, where the
pushes of a burst fill `NR` and the rest are dropped. DESIGN CHOICE: log entry 23. -/
def loopSampleEvent (v : Byte) (s : State) : State :=
  match s.cfg.drainPoint with
  | .everySample => sampleEvent v s
  | .afterLoop => sampleEventBy sampleQueue v s

/-- The drain after the ACP's loop, in the reading that leaves it there (R300, log entry 23). As in a sample event, a
divisor of 0 leaves the pipeline as it was (U6). With 64 samples or more and no resampler, a case that R325 calls not
reachable, its pulls take nothing (log entry 13). -/
def loopDrain (s : State) : State :=
  match s.cfg.drainPoint with
  | .everySample => s
  | .afterLoop => if rateDivisor s.regs.audioCtl = 0 then s else audioDrain s

/-- One pass of the loop of `ACPLOOP()` (R294). -/
def acpPass (s : State) : State :=
  let p := acpStep s
  let s := p.2
  let a : Nat := s.orch.acpCycleCounter
  let s :=
    { s with
      orch :=
        { s.orch with
          acpCycleCounter := 0
          acpBudget := s.orch.acpBudget - a
          sampleCountdown := s.orch.sampleCountdown - a } }
  if s.orch.sampleCountdown ≤ 0 then loopSampleEvent p.1 s else s

/-- The loop of `ACPLOOP()` (R294), cut off after `n` passes. -/
def acpPasses : Nat → State → State
  | 0, s => s
  | n + 1, s => if 0 < s.orch.acpBudget then acpPasses n (acpPass s) else s

/-- `ACPLOOP()` (R294). Each pass takes at least one cycle off the budget, so the bound is never reached before the loop
ends. -/
def acpLoop (s : State) : State := loopDrain (acpPasses s.orch.acpBudget.toNat s)

/-- IRQPROP (R288): the line copies the flag. -/
def irqProp (s : State) : State := { s with lines := { s.lines with cpuIrq := s.blit.irqPending } }

/-- VBLANK (R289, R290) for an iteration of `c` bus cycles. -/
def vblank (c : Nat) (s : State) : State :=
  let left := s.orch.vblankCountdown - c
  if left ≤ 0 then
    let s := { s with orch := { s.orch with vblankCountdown := left + s.cfg.cyclesPerFrame } }
    if nmiEnable s.regs.dmaFlags then s.assertLine .cpuNmi else s
  else { s with orch := { s.orch with vblankCountdown := left } }

/-- The accounting of an iteration after the CPU step (R284, R285): read and zero the counter, charge both budgets. -/
def chargeCycles (s : State) : State :=
  { s with
    orch :=
      { s.orch with
        cycleCounter := 0
        remainingCycles := s.orch.remainingCycles - s.orch.cycleCounter
        acpBudget := s.orch.acpBudget + (Config.acpRatio * s.orch.cycleCounter : Nat) } }

/-- `ITER()` (R284), for the cartridge that is loaded. By default a CPU step may write `FB` and then set `dma_enable`, and
the blitter steps of the same iteration, which follow all its writes (R287), write `FB` too; under the contract `oneOwner`
at most one of the two writes `FB` (R218). DESIGN CHOICE: log entry 24. -/
def iteration (c : Cart) (s : State) : State :=
  let s := cpuStep c s
  let n := s.orch.cycleCounter
  let s := chargeCycles s
  let s := if acpEnable s.regs.audioCtl then acpLoop s else s
  vblank n (irqProp (blitSteps n s))

/-- The elapsed time that a tick emulates (R282): above the trigger it is replaced. -/
def clampElapsed (elapsed : Nat) : Nat :=
  if Config.clampTriggerNs < elapsed then Config.clampValueNs else elapsed

/-- The cycles of an elapsed time (R282). -/
def cyclesOf (elapsed : Nat) : Nat := elapsed * Config.nominalHz / Config.nsPerSecond

/-- `Budget(now)` (R282), with `now` given as the time elapsed since the last tick. -/
def budget (elapsed : Nat) (s : State) : State :=
  let s := if Config.clampTriggerNs < elapsed then s.diag (.timingAnomaly elapsed) else s
  { s with
    orch :=
      { s.orch with
        lastTick := s.orch.lastTick + elapsed
        remainingCycles := cyclesOf (clampElapsed elapsed) } }

/-- The loop of `TICK` (R283), cut off after `n` iterations. -/
def tickLoop (c : Cart) : Nat → State → State
  | 0, s => s
  | n + 1, s => if 0 < s.orch.remainingCycles then tickLoop c n (iteration c s) else s

/-- `TICK(now)` (R283). Each iteration takes at least one cycle (R291), so the bound is never reached before the loop
ends. -/
def tick (c : Cart) (elapsed : Nat) (s : State) : State :=
  tickLoop c (cyclesOf (clampElapsed elapsed)) (budget elapsed s)

/-- Meaning of TICK (R283). A tick without a cartridge is outside the spec (R431, U7: refuse). -/
def execTick (elapsed : Nat) (s : State) : Result :=
  match s.mem.cart with
  | some c => .next (tick c elapsed s)
  | none => .refused .noCartridge

/-- Meaning of ITER (R284). An iteration is part of a tick, which needs a cartridge (R431, U7: refuse). -/
def execIter (s : State) : Result :=
  match s.mem.cart with
  | some c => .next (iteration c s)
  | none => .refused .noCartridge

/-- Meaning of ACPLOOP (R294). -/
def execAcploop (s : State) : Result := .next (acpLoop s)

/-- Meaning of SAMPLE (R295). -/
def execSample (v : Byte) (s : State) : Result := .next (sampleEvent v s)

/-- Meaning of IRQPROP (R288). -/
def execIrqprop (s : State) : Result := .next (irqProp s)

/-- Meaning of VBLANK (R289). -/
def execVblank (c : Nat) (s : State) : Result := .next (vblank c s)

/-- Meaning of ACP.RD (R293). -/
def execAcpRd (a : Addr) (s : State) : Result := .next (acpRead a s)

/-- Meaning of ACP.WR (R293). -/
def execAcpWr (a : Addr) (v : Byte) (s : State) : Result := .next (acpWrite a v s)

end Sys2Proof.Machine
end

