-- ==== Sys2Proof/Machine/HostOps.lean ====
section
/-! DEFINITION. The host's operations (R360 to R370, R431). -/

namespace Sys2Proof.Machine

/-- The cartridge of a ROM image; the length alone selects the variant, and any other length has none (R129, R360). -/
def cartOfImage (bytes : List Byte) : Option Cart :=
  if h : bytes.length = 0x2000 then some (.cart8K ⟨bytes.toArray, by simpa using h⟩)
  else if h : bytes.length = 0x8000 then some (.cart32K ⟨bytes.toArray, by simpa using h⟩)
  else if h : bytes.length = 0x200000 then some (.cart2M ⟨bytes.toArray, by simpa using h⟩)
  else none

/-- The effects of a successful load, the complete list (R362): the cartridge, the pending interrupt, and one reset
event to each CPU. -/
def insertCart (c : Cart) (s : State) : State :=
  ({ s with mem := { s.mem with cart := some c }, blit := { s.blit with irqPending := false } }.assertLine
    .cpuReset).assertLine .acpReset

/-- `H.LOADROM(bytes)` (R360): a rejected length changes nothing but what is returned to the host (R361). -/
def loadRom (bytes : List Byte) (s : State) : State :=
  match cartOfImage bytes with
  | some c => (insertCart c s).emit .romLoaded
  | none => s.emit (.configError bytes.length)

/-- `H.SETBTN(i, b, p)` (R364): one bit of the pad's button record. -/
def setButton (p : PadPort) (b : BitVec 8) (pressed : Bool) (s : State) : State :=
  let bit : BitVec 256 := 1#256 <<< b.toNat
  let old := (s.pad p).pressed
  s.setPad p { s.pad p with pressed := if pressed then old ||| bit else old &&& ~~~bit }

/-- `H.READFB()` (R366): a borrowed view of the buffer that `page_out` selects now. -/
def readFramebuffer (s : State) : State := s.emit (.frame (pageOut s.regs.dmaFlags))

/-- The 16,384 bytes that a borrowed view of buffer `f` shows, row 0 first (R366). -/
def frameView (s : State) (f : Bool) : List Byte :=
  (List.range 16384).map fun i => s.byte .fb (fbCell f (i / 128) (i % 128))

/-- `H.INSTANT()` (R367): every blit ends within the bound (R251). -/
def instantBlit (s : State) : State := blitUntilIdle Config.blitStepBound s

/-- `H.POWERON` (R431): the power-on column of Table S2, with new free values in every memory. The two resets are
asserted in `State.powerOn`. -/
def powerOn (now : Nat) (s : State) : State :=
  State.powerOn s.cfg { s.env with powerOns := s.env.powerOns + 1 } now

/-- Meaning of H.LOADROM (R360). -/
def execHLoadrom (bytes : List Byte) (s : State) : Result := .next (loadRom bytes s)

/-- Meaning of H.SETBTN (R364). A button outside the set `Button` is refused and changes nothing (R364, U9); which buttons
the set has is a parameter (D21, log entry 9). -/
def execHSetbtn (p : PadPort) (b : BitVec 8) (pressed : Bool) (s : State) : Result :=
  if b.toNat < s.cfg.buttons then .next (setButton p b pressed s) else .refused .noSuchButton

/-- Meaning of H.READFB (R366). -/
def execHReadfb (s : State) : Result := .next (readFramebuffer s)

/-- Meaning of H.INSTANT (R367). -/
def execHInstant (s : State) : Result := .next (instantBlit s)

/-- Meaning of H.POWERON (R431). -/
def execHPoweron (now : Nat) (s : State) : Result := .next (powerOn now s)

end Sys2Proof.Machine
end

