-- ==== Sys2Proof/Machine/Dispatch.lean ====
section
/-! DEFINITION. The dispatch: one arm per constructor of `Instr`, each a direct call of its meaning. -/

namespace Sys2Proof.Machine

def exec (i : Instr) (s : State) : Host.Outcome State Fault Refusal :=
  match i with
  | .rdZp o => Sys2Proof.Machine.execRdZp o s
  | .wrZp o v => Sys2Proof.Machine.execWrZp o v s
  | .rdStack o => Sys2Proof.Machine.execRdStack o s
  | .wrStack o v => Sys2Proof.Machine.execWrStack o v s
  | .rdRam a => Sys2Proof.Machine.execRdRam a s
  | .wrRam a v => Sys2Proof.Machine.execWrRam a v s
  | .rdWoAcprst => Sys2Proof.Machine.execRdWoAcprst s
  | .wrAcprst v => Sys2Proof.Machine.execWrAcprst v s
  | .rdWoAcpnmi => Sys2Proof.Machine.execRdWoAcpnmi s
  | .wrAcpnmi v => Sys2Proof.Machine.execWrAcpnmi v s
  | .rdWoBank => Sys2Proof.Machine.execRdWoBank s
  | .wrBank v => Sys2Proof.Machine.execWrBank v s
  | .rdWoAudio => Sys2Proof.Machine.execRdWoAudio s
  | .wrAudio v => Sys2Proof.Machine.execWrAudio v s
  | .rdWoDma => Sys2Proof.Machine.execRdWoDma s
  | .wrDma v => Sys2Proof.Machine.execWrDma v s
  | .rdPad1 => Sys2Proof.Machine.execRdPad1 s
  | .wrPad1 v => Sys2Proof.Machine.execWrPad1 v s
  | .rdPad2 => Sys2Proof.Machine.execRdPad2 s
  | .wrPad2 v => Sys2Proof.Machine.execWrPad2 v s
  | .rdVia r => Sys2Proof.Machine.execRdVia r s
  | .wrVia r v => Sys2Proof.Machine.execWrVia r v s
  | .rdAram o => Sys2Proof.Machine.execRdAram o s
  | .wrAram o v => Sys2Proof.Machine.execWrAram o v s
  | .rdWin o => Sys2Proof.Machine.execRdWin o s
  | .wrWin o v => Sys2Proof.Machine.execWrWin o v s
  | .wrBr0 k v => Sys2Proof.Machine.execWrBr0 k v s
  | .wrBr1 k v => Sys2Proof.Machine.execWrBr1 k v s
  | .wrBr2 k v => Sys2Proof.Machine.execWrBr2 k v s
  | .wrBr3 k v => Sys2Proof.Machine.execWrBr3 k v s
  | .wrBr4 k v => Sys2Proof.Machine.execWrBr4 k v s
  | .wrBr5 k v => Sys2Proof.Machine.execWrBr5 k v s
  | .wrBr6 k v => Sys2Proof.Machine.execWrBr6 k v s
  | .wrBr7 k v => Sys2Proof.Machine.execWrBr7 k v s
  | .rdBr o => Sys2Proof.Machine.execRdBr o s
  | .rdFb o => Sys2Proof.Machine.execRdFb o s
  | .wrFb o v => Sys2Proof.Machine.execWrFb o v s
  | .rdVram o => Sys2Proof.Machine.execRdVram o s
  | .wrVram o v => Sys2Proof.Machine.execWrVram o v s
  | .rdCart o => Sys2Proof.Machine.execRdCart o s
  | .wrCart o v => Sys2Proof.Machine.execWrCart o v s
  | .rdUnmapped addr => Sys2Proof.Machine.execRdUnmapped addr s
  | .wrUnmapped addr v => Sys2Proof.Machine.execWrUnmapped addr v s
  | .bstep => Sys2Proof.Machine.execBstep s
  | .tick elapsed => Sys2Proof.Machine.execTick elapsed s
  | .iter => Sys2Proof.Machine.execIter s
  | .acploop => Sys2Proof.Machine.execAcploop s
  | .sample v => Sys2Proof.Machine.execSample v s
  | .irqprop => Sys2Proof.Machine.execIrqprop s
  | .vblank c => Sys2Proof.Machine.execVblank c s
  | .aPush v => Sys2Proof.Machine.execAPush v s
  | .aResample => Sys2Proof.Machine.execAResample s
  | .aCommit => Sys2Proof.Machine.execACommit s
  | .aDrain => Sys2Proof.Machine.execADrain s
  | .aPop => Sys2Proof.Machine.execAPop s
  | .aRecreate num den => Sys2Proof.Machine.execARecreate num den s
  | .hLoadrom bytes => Sys2Proof.Machine.execHLoadrom bytes s
  | .hSetbtn p b pressed => Sys2Proof.Machine.execHSetbtn p b pressed s
  | .hReadfb => Sys2Proof.Machine.execHReadfb s
  | .hInstant => Sys2Proof.Machine.execHInstant s
  | .hPoweron now => Sys2Proof.Machine.execHPoweron now s
  | .acpRd a => Sys2Proof.Machine.execAcpRd a s
  | .acpWr a v => Sys2Proof.Machine.execAcpWr a v s

end Sys2Proof.Machine
end

