-- ==== Sys2Proof/Machine/Step.lean ====
section
/-! DEFINITION. One step of the machine: take the next raw operation, decode it in the window mode of the moment, run
it. -/

namespace Sys2Proof.Machine

/-- One step. With no operation waiting nothing runs and all state is kept (R414). -/
def step (s : State) : Host.Outcome State Fault Refusal :=
  match s.fetch with
  | none => .next s
  | some (raw, t) =>
    match decode s.windowMode raw with
    | .ok i => exec i t
    | .error r => .refused (.undecodable r)

/-- The state in which the very next step runs the operation of a table word: the raw operation waits first; for a
window word the window is in the mode in which `decodeTableWord` reads it; and an operation that has a loaded cartridge
as its launch premise finds one. -/
def State.withFetchWord (s : State) (nbits w : Nat) : State :=
  let flags := if isWindowWord nbits w then s.regs.dmaFlags ||| 1 else s.regs.dmaFlags
  let cart := if needsCart (decodeTableWord nbits w) then some (s.mem.cart.getD blankCart) else s.mem.cart
  { s with
    env := { s.env with pending := rawOfTableWord nbits w :: s.env.pending }
    regs := { s.regs with dmaFlags := flags }
    mem := { s.mem with cart := cart } }

end Sys2Proof.Machine
end

