-- ==== Sys2Proof/Safety.lean ====
section
/-! DEFINITION. The terms that claims about runs use: the launch premise, the invariant of the data, and what it is to
store one byte. -/

namespace Sys2Proof.Machine

/-- The launch premise of R27 and R431: a cartridge is loaded. -/
def Launched (s : State) : Prop := ∃ c, s.mem.cart = some c

/-- The data of the state is in canonical form: every memory lists its written cells in rising order inside its size
(R21 to R26), the two rings are within their capacities (R48), and a resampler's rate is a positive number (R296). -/
structure Canonical (s : State) : Prop where
  mem : ∀ id, Memory.wf (memSize id) (s.mem.get id) = true
  native : s.audio.nr.length ≤ Config.nativeCap
  ring : s.audio.ring.length ≤ Config.outCap
  rate : ∀ rs, s.audio.rs = some rs → 0 < rs.rate.num ∧ 0 < rs.rate.den

/-- Between `s` and `t` no byte of any memory changes, and the cartridge stays. -/
def SameStorage (s t : State) : Prop := (∀ id a, t.byte id a = s.byte id a) ∧ t.mem.cart = s.mem.cart

/-- Between `s` and `t` the cell `a` of memory `id` becomes `v`, no other byte changes, and the cartridge stays. -/
def StoresByte (s t : State) (id : MemId) (a : Nat) (v : Byte) : Prop :=
  t.byte id a = v ∧ (∀ id' a', (id' ≠ id ∨ a' ≠ a) → t.byte id' a' = s.byte id' a') ∧ t.mem.cart = s.mem.cart

/-- `s` after one bus cycle that does nothing else (R189). -/
def counted (s : State) : State := { s with orch := { s.orch with cycleCounter := s.orch.cycleCounter + 1 } }

/-- `s` after a bus read of `addr` that returned `v`: the byte is handed out, one cycle is counted, nothing else (R160). -/
def answered (s : State) (addr : Addr) (v : Byte) : State :=
  { s with
    orch := { s.orch with cycleCounter := s.orch.cycleCounter + 1 }
    env := { s.env with output := .busRead addr v :: s.env.output } }

/-- `s` with one record more in the diagnostic output (R383). -/
def logged (s : State) (d : Diag) : State := { s with env := { s.env with diags := d :: s.env.diags } }

/-- `s` with one record more among the outputs. -/
def handedOut (s : State) (o : Output) : State := { s with env := { s.env with output := o :: s.env.output } }

/-- Go on with `f` after an outcome, if it is a next state. -/
def thenDo (o : Result) (f : State → Result) : Result :=
  match o with
  | .next s => f s
  | .fault e => .fault e
  | .refused r => .refused r

end Sys2Proof.Machine
end

