-- ==== Sys2Proof/Certificates/Slice0/Obligations.lean ====
section
/-! DEFINITION. The statements for the provers. Each docstring names the rules it comes from. -/

open Sys2Proof Sys2Proof.Machine

/-! Decoding and the step -/

/-- A waiting raw operation that decodes to a well-formed operation is taken from the queue and run (R120, R139; the
queue is the model's, log entry 1). -/
def Obligations.StepRunsTheDecodedInstruction : Prop :=
  ∀ (s : State) (raw : RawOp) (rest : List RawOp) (i : Instr),
    s.env.pending = raw :: rest → decode s.windowMode raw = .ok i → wellFormed i = true →
      step s = exec i { s with env := { s.env with pending := rest } }

/-- With nothing waiting a step keeps all state (R414, log entry 1); an event code that Table E2 does not list, and a
controller that is neither 0 nor 1, are refused (R137, R364, U9). That the controller is operand byte 0 of the event is the
model's layout, which the spec does not give (log entry 10). -/
def Obligations.StepWithoutAnOperation : Prop :=
  (∀ s : State, s.env.pending = [] → step s = .next s) ∧
  (∀ (s : State) (code : Byte) (ops : List Byte) (rest : List RawOp),
    s.env.pending = .evt code ops :: rest →
    code.toNat ∉ [0x00, 0x01, 0x02, 0x03, 0x04, 0x05, 0x06, 0x10, 0x11, 0x12, 0x13, 0x14, 0x15, 0x20, 0x21, 0x22, 0x23,
      0x24, 0x30, 0x31] →
    step s = .refused (.undecodable (.reservedEvent code))) ∧
  (∀ (s : State) (ops : List Byte) (rest : List RawOp),
    s.env.pending = .evt 0x21 ops :: rest → 2 ≤ (ops.getD 0 0).toNat →
    step s = .refused (.undecodable (.noSuchController (ops.getD 0 0))))

/-- BUS words that the spec's programs and vectors write out decode as the spec says (R120, R136, R139;
95_test_vectors.md P1 to P3, V-RST-3), and the event code of BSTEP names it (R137). The last clause is the model's choice:
the spec gives events no operand layout, and log entries 10 and 7 let SAMPLE take its byte from the first operand byte. -/
def Obligations.WordsOfTheSpecDecode : Prop :=
  decode .vram (.bus 0x10010AA) = .ok (.wrZp 0x10 0xAA) ∧
  decode .vram (.bus 0x0020011) = .ok (.rdRam 0x200) ∧
  decode .vram (.bus 0x12005C0) = .ok (.wrBank 0xC0) ∧
  decode .vram (.bus 0x1200749) = .ok (.wrDma 0x49) ∧
  decode .registers (.bus 0x14006F8) = .ok (.wrBr6 0 0xF8) ∧
  decode .framebuffer (.bus 0x14A0AEE) = .ok (.wrFb 0x0A0A 0xEE) ∧
  decode .vram (.bus 0x1400011) = .ok (.wrVram 0 0x11) ∧
  decode .vram (.bus 0x0FFFC00) = .ok (.rdCart 0x7FFC) ∧
  decode .vram (.evt 0x00 []) = .ok .bstep ∧
  decode .vram (.evt 0x04 [0x80]) = .ok (.sample 0x80)

/-- Decoding gives back every well-formed operation that the window mode lets the decoder answer, with every operand
(R120, R136, R137, R139; the operand bytes of events are the model's, log entry 10). -/
def Obligations.DecodeOfEncode : Prop :=
  ∀ (m : WindowMode) (i : Instr), wellFormed i = true → answeredIn m i = true → decode m (encode i) = .ok i

/-- Every one of the BUS words decodes, to a well-formed operation that encodes to the same word, the data field of a
read written as 0 (R120, R138, R188). -/
def Obligations.EncodeOfDecodedWord : Prop :=
  ∀ (m : WindowMode) (w : BitVec 25), ∃ i, decode m (.bus w) = .ok i ∧ wellFormed i = true ∧ answeredIn m i = true ∧
    encode i = .bus (if w.getLsbD 24 = true then w else w &&& 0x1FFFF00)

/-- The priority decoder with the masks of Table E1 and the list of ranges give the same region (R136, R162). -/
def Obligations.MaskDecoderAgreesWithTheRanges : Prop := ∀ addr : Addr, regionByMask addr = region addr

/-- The window mode is decided by two bits of `DMA_FLAGS`, by strict priority, at each transaction (R200). -/
def Obligations.WindowModeIsStrictPriority : Prop :=
  ∀ s : State,
    s.windowMode =
      (if s.regs.dmaFlags.getLsbD 0 = true then .registers
       else if s.regs.dmaFlags.getLsbD 5 = true then .framebuffer else .vram) ∧
    (∀ (o : BitVec 14) (rest : List RawOp), s.env.pending = busRead (winAddr o) :: rest →
      step s = exec
        (if s.regs.dmaFlags.getLsbD 0 = true then .rdBr o
         else if s.regs.dmaFlags.getLsbD 5 = true then .rdFb o else .rdVram o)
        { s with env := { s.env with pending := rest } }) ∧
    (∀ (o : BitVec 14) (v : Byte) (rest : List RawOp), s.env.pending = busWrite (winAddr o) v :: rest →
      step s = exec
        (if s.regs.dmaFlags.getLsbD 0 = true then decodeBrWrite (winAddr o) v
         else if s.regs.dmaFlags.getLsbD 5 = true then .wrFb o v else .wrVram o v)
        { s with env := { s.env with pending := rest } })

/-- A window write reaches no framebuffer and no VRAM byte in register mode, and no blitter register outside it
(R216, R213, R215). -/
def Obligations.WindowWritesKeepToTheirMode : Prop :=
  ∀ (s : State) (o : BitVec 14) (v : Byte) (rest : List RawOp),
    s.env.pending = busWrite (winAddr o) v :: rest →
    ∃ t, step s = .next t ∧
      (s.regs.dmaFlags.getLsbD 0 = true → SameStorage s t) ∧
      (s.regs.dmaFlags.getLsbD 0 = false → t.regs = s.regs ∧ t.blit = s.blit) ∧
      (s.regs.dmaFlags.getLsbD 0 = false → s.regs.dmaFlags.getLsbD 5 = true →
        StoresByte s t .fb (winFbCell s.regs o) v) ∧
      (s.regs.dmaFlags.getLsbD 0 = false → s.regs.dmaFlags.getLsbD 5 = false →
        StoresByte s t .vram (winVramCell s.regs o) v)

/-- The bus access that a CPU step makes and the operation that the decoder reads from the same address do the same
(R160, R161, R183). -/
def Obligations.BusAccessIsTheDecodedInstruction : Prop :=
  ∀ (c : Cart) (s : State), s.mem.cart = some c →
    (∀ addr : Addr, exec (decodeRead s.windowMode addr) s = .next (busAccess c (.read addr) s)) ∧
    (∀ (addr : Addr) (v : Byte), exec (decodeWrite s.windowMode addr v) s = .next (busAccess c (.write addr v) s))

/-- Every bus word is a transaction that completes, counts one cycle, moves no other counter, and logs at most one
diagnostic; the blitter, the ACP, the audio pipeline and the host's operations other than power-on leave the count
(R189, R188, R397). -/
def Obligations.TransactionsCountOneCycle : Prop :=
  (∀ (s : State) (word : BitVec 25) (rest : List RawOp) (c : Cart),
    s.env.pending = .bus word :: rest → s.mem.cart = some c →
    ∃ t, step s = .next t ∧ t.orch = { s.orch with cycleCounter := s.orch.cycleCounter + 1 } ∧
      t.audio = s.audio ∧ t.cfg = s.cfg ∧ t.mem.cart = s.mem.cart ∧
      (t.env.diags = s.env.diags ∨ ∃ d, t.env.diags = d :: s.env.diags)) ∧
  (∀ (s t : State) (i : Instr), exec i s = .next t →
    (i = .bstep ∨ i = .acploop ∨ (∃ v, i = .sample v) ∨ (∃ a, i = .acpRd a) ∨ (∃ a v, i = .acpWr a v) ∨
      (∃ v, i = .aPush v) ∨ i = .aResample ∨ i = .aCommit ∨ i = .aDrain ∨ i = .aPop ∨ (∃ n d, i = .aRecreate n d) ∨
      (∃ b, i = .hLoadrom b) ∨ (∃ p b x, i = .hSetbtn p b x) ∨ i = .hReadfb ∨ i = .hInstant) →
    t.orch.cycleCounter = s.orch.cycleCounter)

/-- Every well-formed operation completes: a cartridge is the launch premise of RD.CART, TICK and ITER, a created pipeline
that of A.RESAMPLE and A.DRAIN with samples to pull, and H.SETBTN names a button of the set `Button` (R160, R161, R188,
R333, R380, R27, R325, R364; the premises are log entries 12, 13 and 9). -/
def Obligations.EveryOperationCompletes : Prop :=
  ∀ (i : Instr) (s : State), wellFormed i = true →
    (i = .iter ∨ (∃ n, i = .tick n) ∨ (∃ o, i = .rdCart o) → Launched s) →
    (i = .aResample ∨ i = .aDrain → s.audio.nr.length < 64 ∨ s.audio.rs ≠ none) →
    (∀ p b pressed, i = .hSetbtn p b pressed → b.toNat < s.cfg.buttons) →
    ∃ t, exec i s = .next t

/-- The stops of `exec` are exactly these: an operand that names no RAM address, no cartridge, no resampler, no rate, no
button. Each is the model's choice where the spec gives no effect: the fault is log entry 15 (DESIGN CHOICE; R167 only
gives the operand's range), the refusals are log entries 12, 13 and 14 (DEDUCED from R27, R431, R325, R295 and U6, U7) and
9 (R364 and U9 refuse; the set of buttons is open). -/
def Obligations.StopsAreExactlyThese : Prop :=
  ∀ (i : Instr) (s : State),
    (∀ f, exec i s = .fault f ↔
      f = .noSuchCell ∧ ∃ a : BitVec 13, a.toNat < 0x200 ∧ (i = .rdRam a ∨ ∃ v, i = .wrRam a v)) ∧
    (∀ r, exec i s = .refused r ↔
      (r = .noCartridge ∧ s.mem.cart = none ∧ (i = .iter ∨ (∃ n, i = .tick n) ∨ ∃ o, i = .rdCart o)) ∨
      (r = .noResampler ∧ 64 ≤ s.audio.nr.length ∧ s.audio.rs = none ∧ (i = .aResample ∨ i = .aDrain)) ∨
      (r = .noSuchRate ∧ ∃ n d, i = .aRecreate n d ∧ (n = 0 ∨ d = 0)) ∨
      (r = .noSuchButton ∧ ∃ p b pressed, i = .hSetbtn p b pressed ∧ s.cfg.buttons ≤ b.toNat))

/-! The address decoder -/

/-- A read of storage returns the byte that the translation names and changes nothing but the cycle count (R163, R165,
R167, R181, R212, R214). -/
def Obligations.ReadsReturnTheStoredByte : Prop :=
  ∀ s : State,
    (∀ o, exec (.rdZp o) s = .next (answered s (zpAddr o) (s.byte .zp o.toNat))) ∧
    (∀ o, exec (.rdStack o) s = .next (answered s (stackAddr o) (s.byte .stack o.toNat))) ∧
    (∀ o, exec (.rdAram o) s = .next (answered s (aramAddr o) (s.byte .aram o.toNat))) ∧
    (∀ a : BitVec 13, 0x200 ≤ a.toNat →
      exec (.rdRam a) s =
        .next (answered s (ramBusAddr a)
          (s.byte .ram ((s.regs.banking.extractLsb' 6 2).toNat * 0x1E00 + (a.toNat - 0x200))))) ∧
    (∀ o, exec (.rdFb o) s =
      .next (answered s (winAddr o)
        (s.byte .fb (fbCell (s.regs.banking.getLsbD 3) (o.toNat / 128) (o.toNat % 128))))) ∧
    (∀ o, exec (.rdVram o) s =
      .next (answered s (winAddr o)
        (s.byte .vram (vramCell (s.regs.banking.extractLsb' 0 3)
          ((if s.regs.gy.getLsbD 7 = true then 128 else 0) + o.toNat / 128)
          ((if s.regs.gx.getLsbD 7 = true then 128 else 0) + o.toNat % 128)))))

/-- A read of any address but the two pad ports changes nothing but the cycle count and the outputs, and where it logs a
diagnostic it returns 0 (R87, R160). -/
def Obligations.OnlyPadPortsHaveReadEffects : Prop :=
  ∀ (s : State) (addr : Addr) (rest : List RawOp) (c : Cart),
    s.env.pending = busRead addr :: rest → s.mem.cart = some c → addr ≠ 0x2008 → addr ≠ 0x2009 →
    ∃ v d,
      step s = .next
        { s with
          orch := { s.orch with cycleCounter := s.orch.cycleCounter + 1 }
          env := { s.env with pending := rest, output := .busRead addr v :: s.env.output, diags := d } } ∧
      (d = s.env.diags ∨ v = 0 ∧ ∃ x, d = x :: s.env.diags)

/-- A write to the zero page, the stack page or audio RAM stores its byte and nothing else (R164, R166, R182). -/
def Obligations.UnbankedWritesStoreOneByte : Prop :=
  ∀ (s : State) (v : Byte),
    (∀ o : BitVec 8, ∃ t, exec (.wrZp o v) s = .next t ∧ StoresByte s t .zp o.toNat v ∧
      t = { counted s with mem := t.mem }) ∧
    (∀ o : BitVec 8, ∃ t, exec (.wrStack o v) s = .next t ∧ StoresByte s t .stack o.toNat v ∧
      t = { counted s with mem := t.mem }) ∧
    (∀ o : BitVec 12, ∃ t, exec (.wrAram o v) s = .next t ∧ StoresByte s t .aram o.toNat v ∧
      t = { counted s with mem := t.mem })

/-- A write to banked RAM stores one byte of the selected bank. After any later bank switch a read of any address of the
region gives that byte at its own address in its own bank, and what was there before everywhere else (R168). -/
def Obligations.RamBanksAreIsolated : Prop :=
  ∀ (s : State) (a : BitVec 13) (v b : Byte), 0x200 ≤ a.toNat →
    ∃ t u, exec (.wrRam a v) s = .next t ∧
      StoresByte s t .ram ((s.regs.banking.extractLsb' 6 2).toNat * 0x1E00 + (a.toNat - 0x200)) v ∧
      t = { counted s with mem := t.mem } ∧ exec (.wrBank b) t = .next u ∧
      ∀ a' : BitVec 13, 0x200 ≤ a'.toNat →
        (b.extractLsb' 6 2 = s.regs.banking.extractLsb' 6 2 → a' = a →
          exec (.rdRam a') u = .next (answered u (ramBusAddr a') v)) ∧
        (b.extractLsb' 6 2 ≠ s.regs.banking.extractLsb' 6 2 ∨ a' ≠ a →
          exec (.rdRam a') u =
            .next (answered u (ramBusAddr a')
              (s.byte .ram ((b.extractLsb' 6 2).toNat * 0x1E00 + (a'.toNat - 0x200)))))

/-- A write through the window in framebuffer or VRAM mode stores its byte and nothing else. Whatever the registers are by
then, a read at its own offset in its own buffer, or its own page and quadrant, gives that byte; a read at any other offset,
buffer, page or quadrant gives what it gave before the write (R213, R215, R212, R214, R25, R26, R95, R201). -/
def Obligations.WindowWritesStoreOneByte : Prop :=
  ∀ (s : State) (o : BitVec 14) (v : Byte),
    (∃ t, exec (.wrFb o v) s = .next t ∧
      StoresByte s t .fb (fbCell (s.regs.banking.getLsbD 3) (o.toNat / 128) (o.toNat % 128)) v ∧
      t = { counted s with mem := t.mem } ∧
      ∀ (r : Registers) (o' : BitVec 14),
        (r.banking.getLsbD 3 = s.regs.banking.getLsbD 3 ∧ o' = o →
          exec (.rdFb o') { t with regs := r } = .next (answered { t with regs := r } (winAddr o') v)) ∧
        (r.banking.getLsbD 3 ≠ s.regs.banking.getLsbD 3 ∨ o' ≠ o →
          ∃ w, exec (.rdFb o') { s with regs := r } = .next (answered { s with regs := r } (winAddr o') w) ∧
            exec (.rdFb o') { t with regs := r } = .next (answered { t with regs := r } (winAddr o') w))) ∧
    (∃ t, exec (.wrVram o v) s = .next t ∧
      StoresByte s t .vram (vramCell (s.regs.banking.extractLsb' 0 3)
          ((if s.regs.gy.getLsbD 7 = true then 128 else 0) + o.toNat / 128)
          ((if s.regs.gx.getLsbD 7 = true then 128 else 0) + o.toNat % 128)) v ∧
      t = { counted s with mem := t.mem } ∧
      ∀ (r : Registers) (o' : BitVec 14),
        (r.banking.extractLsb' 0 3 = s.regs.banking.extractLsb' 0 3 ∧ r.gx.getLsbD 7 = s.regs.gx.getLsbD 7 ∧
            r.gy.getLsbD 7 = s.regs.gy.getLsbD 7 ∧ o' = o →
          exec (.rdVram o') { t with regs := r } = .next (answered { t with regs := r } (winAddr o') v)) ∧
        (r.banking.extractLsb' 0 3 ≠ s.regs.banking.extractLsb' 0 3 ∨ r.gx.getLsbD 7 ≠ s.regs.gx.getLsbD 7 ∨
            r.gy.getLsbD 7 ≠ s.regs.gy.getLsbD 7 ∨ o' ≠ o →
          ∃ w, exec (.rdVram o') { s with regs := r } = .next (answered { s with regs := r } (winAddr o') w) ∧
            exec (.rdVram o') { t with regs := r } = .next (answered { t with regs := r } (winAddr o') w)))

/-- A read of a write-only or an unmapped location returns 0 with one diagnostic and changes no state (R174, R211,
R186). -/
def Obligations.NothingToReadGivesZero : Prop :=
  ∀ s : State,
    exec .rdWoAcprst s = .next (answered (logged s (.readOfWriteOnly 0x2000)) 0x2000 0) ∧
    exec .rdWoAcpnmi s = .next (answered (logged s (.readOfWriteOnly 0x2001)) 0x2001 0) ∧
    exec .rdWoBank s = .next (answered (logged s (.readOfWriteOnly 0x2005)) 0x2005 0) ∧
    exec .rdWoAudio s = .next (answered (logged s (.readOfWriteOnly 0x2006)) 0x2006 0) ∧
    exec .rdWoDma s = .next (answered (logged s (.readOfWriteOnly 0x2007)) 0x2007 0) ∧
    (∀ o, exec (.rdBr o) s = .next (answered (logged s (.readOfWriteOnly (winAddr o))) (winAddr o) 0)) ∧
    (∀ addr, exec (.rdUnmapped addr) s = .next (answered (logged s (.readOfUnmapped addr)) addr 0))

/-- A write to a control register stores all eight bits and nothing else (R171, R172, R173). -/
def Obligations.ControlRegisterWrites : Prop :=
  ∀ (s : State) (v : Byte),
    exec (.wrBank v) s = .next { counted s with regs := { s.regs with banking := v } } ∧
    exec (.wrAudio v) s = .next { counted s with regs := { s.regs with audioCtl := v } } ∧
    exec (.wrDma v) s = .next { counted s with regs := { s.regs with dmaFlags := v } }

/-- The two ACP strobes deliver one event each, whatever the data, and change no other state (R169, R170, R395, R433). -/
def Obligations.AcpStrobesDeliverEvents : Prop :=
  ∀ (s : State) (v : Byte),
    exec (.wrAcprst v) s = .next { counted s with lines := { s.lines with acpReset := true } } ∧
    exec (.wrAcpnmi v) s = .next { counted s with lines := { s.lines with acpNmi := true } }

/-- A read of a pad port returns its selected half as it was before the read, and changes the selects as the coupling
says (R177, R128). The byte is a free function of the pad's buttons and the half (log entry 4). The first clause is the
model's choice of what D21 calls distinguishable: the two halves differ on some record of buttons of the set `Button`, also
of an empty set (log entry 26). -/
def Obligations.PadReads : Prop :=
  (∀ n : Nat, ∃ x : BitVec 256, (∀ k, n ≤ k → x.getLsbD k = false) ∧ padEncode n x false ≠ padEncode n x true) ∧
  ∀ s : State,
    (s.cfg.padCoupling = .independent →
      exec .rdPad1 s =
        .next { answered s 0x2008 (padEncode s.cfg.buttons s.pad1.pressed s.pad1.portSelect) with
          pad1 := { s.pad1 with portSelect := !s.pad1.portSelect } } ∧
      exec .rdPad2 s =
        .next { answered s 0x2009 (padEncode s.cfg.buttons s.pad2.pressed s.pad2.portSelect) with
          pad2 := { s.pad2 with portSelect := !s.pad2.portSelect } }) ∧
    (s.cfg.padCoupling = .resetOther →
      exec .rdPad1 s =
        .next { answered s 0x2008 (padEncode s.cfg.buttons s.pad1.pressed s.pad1.portSelect) with
          pad1 := { s.pad1 with portSelect := !s.pad1.portSelect }
          pad2 := { s.pad2 with portSelect := false } } ∧
      exec .rdPad2 s =
        .next { answered s 0x2009 (padEncode s.cfg.buttons s.pad2.pressed s.pad2.portSelect) with
          pad1 := { s.pad1 with portSelect := false }
          pad2 := { s.pad2 with portSelect := !s.pad2.portSelect } }) ∧
    (s.cfg.padCoupling = .section3Literal →
      exec .rdPad1 s =
        .next { answered s 0x2008 (padEncode s.cfg.buttons s.pad1.pressed s.pad1.portSelect) with
          pad1 := { s.pad1 with portSelect := false }
          pad2 := { s.pad2 with portSelect := !s.pad2.portSelect } } ∧
      exec .rdPad2 s =
        .next { answered s 0x2009 (padEncode s.cfg.buttons s.pad2.pressed s.pad2.portSelect) with
          pad1 := { s.pad1 with portSelect := !s.pad1.portSelect }
          pad2 := { s.pad2 with portSelect := false } })

/-- A write with nowhere to go is dropped with one diagnostic; the VIA stub reads 0 and drops writes silently
(R178, R185, R187, R179, R180). -/
def Obligations.DroppedWritesAndViaStub : Prop :=
  ∀ (s : State) (v : Byte),
    exec (.wrPad1 v) s = .next (counted (logged s (.writeToReadOnly 0x2008))) ∧
    exec (.wrPad2 v) s = .next (counted (logged s (.writeToReadOnly 0x2009))) ∧
    (∀ o, exec (.wrCart o v) s = .next (counted (logged s (.writeToReadOnly (cartAddr o))))) ∧
    (∀ addr, exec (.wrUnmapped addr v) s = .next (counted (logged s (.writeToUnmapped addr)))) ∧
    (∀ r, exec (.rdVia r) s = .next (answered s (viaAddr r) 0)) ∧
    (∀ r, exec (.wrVia r v) s = .next (counted s))

/-- A cartridge read is mirrored, direct, or from the last 32 KB, by the cartridge's variant (R184). -/
def Obligations.CartridgeReads : Prop :=
  ∀ (s : State) (o : BitVec 15),
    (∀ rom, s.mem.cart = some (.cart8K rom) →
      exec (.rdCart o) s = .next (answered s (cartAddr o) (rom.toArray.getD (o.toNat % 0x2000) 0))) ∧
    (∀ rom, s.mem.cart = some (.cart32K rom) →
      exec (.rdCart o) s = .next (answered s (cartAddr o) (rom.toArray.getD o.toNat 0))) ∧
    (∀ rom, s.mem.cart = some (.cart2M rom) →
      exec (.rdCart o) s = .next (answered s (cartAddr o) (rom.toArray.getD (0x1F8000 + o.toNat) 0)))

/-- After a load of an image of a legal length every cartridge read gives the byte of that image that the window shows:
an 8 KB image four times over, a 32 KB image as it is, the last 32 KB of a 2 MB image (R360, R184, R129). -/
def Obligations.LoadedImageAppearsInTheWindow : Prop :=
  ∀ (s : State) (bytes : List Byte), bytes.length ∈ [0x2000, 0x8000, 0x200000] →
    ∃ t, exec (.hLoadrom bytes) s = .next t ∧
      ∀ o : BitVec 15,
        (bytes.length = 0x2000 →
          exec (.rdCart o) t = .next (answered t (cartAddr o) (bytes.getD (o.toNat % 0x2000) 0))) ∧
        (bytes.length = 0x8000 → exec (.rdCart o) t = .next (answered t (cartAddr o) (bytes.getD o.toNat 0))) ∧
        (bytes.length = 0x200000 →
          exec (.rdCart o) t = .next (answered t (cartAddr o) (bytes.getD (0x1F8000 + o.toNat) 0)))

/-! The window -/

/-- A write of a storing blitter register stores its byte and nothing else, in every repetition of the registers (R203
to R208, R210). -/
def Obligations.BlitterRegisterWrites : Prop :=
  ∀ (s : State) (k : BitVec 11) (v : Byte),
    exec (.wrBr0 k v) s = .next { counted s with regs := { s.regs with vx := v } } ∧
    exec (.wrBr1 k v) s = .next { counted s with regs := { s.regs with vy := v } } ∧
    exec (.wrBr2 k v) s = .next { counted s with regs := { s.regs with gx := v } } ∧
    exec (.wrBr3 k v) s = .next { counted s with regs := { s.regs with gy := v } } ∧
    exec (.wrBr4 k v) s = .next { counted s with regs := { s.regs with width := v } } ∧
    exec (.wrBr5 k v) s = .next { counted s with regs := { s.regs with height := v } } ∧
    exec (.wrBr7 k v) s = .next { counted s with regs := { s.regs with color := v } }

/-- A write of `start` clears the pending interrupt and raises the strobe, whatever the data and whatever the blitter's
state, and stores nothing (R209, R33, R40). -/
def Obligations.StartWrite : Prop :=
  ∀ (s : State) (k : BitVec 11) (v : Byte),
    exec (.wrBr6 k v) s =
      .next { counted s with
        regs := { s.regs with startStrobe := true }
        blit := { s.blit with irqPending := false } }

/-- The two region rows of the window do what the row of the mode does (R183, R139). -/
def Obligations.WindowRowsHandOver : Prop :=
  ∀ (s : State) (o : BitVec 14) (v : Byte),
    ∃ t u, exec (.rdWin o) s = .next t ∧ exec (decodeRead s.windowMode (winAddr o)) s = .next t ∧
      exec (.wrWin o v) s = .next u ∧ exec (decodeWrite s.windowMode (winAddr o) v) s = .next u

/-! The blitter -/

/-- Phase 0: without a strobe an idle blitter does nothing; a strobe is used up by the step that sees it, and starts a
blit only in an idle blitter with `dma_enable` set, whose entering step goes on as its first working step (R232, R233,
R236, R252). -/
def Obligations.BstepObservesTheStart : Prop :=
  ∀ s : State,
    (s.regs.startStrobe = false → s.blit.bstate = .idle → exec .bstep s = .next s) ∧
    (s.regs.startStrobe = true → s.blit.bstate = .idle → s.regs.dmaFlags.getLsbD 0 = false →
      exec .bstep s = .next { s with regs := { s.regs with startStrobe := false } }) ∧
    (s.regs.startStrobe = true → s.blit.bstate = .running →
      exec .bstep s = exec .bstep { s with regs := { s.regs with startStrobe := false } }) ∧
    (s.regs.startStrobe = true → s.blit.bstate = .idle → s.regs.dmaFlags.getLsbD 0 = true →
      exec .bstep s =
        exec .bstep
          { s with
            regs := { s.regs with startStrobe := false }
            blit :=
              { bstate := .running, srcY := s.regs.gy, dstY := s.regs.vy, heightL := s.regs.height,
                colorL := ~~~s.regs.color, colorFillL := s.regs.dmaFlags.getLsbD 3, offsetX := 0, offsetY := 0,
                irqPending := s.blit.irqPending } })

/-- A running blitter's step wraps the row, then completes if the row counter has reached the latched height, raising
the interrupt if it is enabled now; and with `dma_enable` clear it only advances (R235, R237, R238, R245). -/
def Obligations.BstepWithoutAPixel : Prop :=
  ∀ (s : State) (ox oy : Byte), s.blit.bstate = .running → s.regs.startStrobe = false →
    ox = (if s.regs.width.toNat ≤ s.blit.offsetX.toNat then
      (if 128 ≤ s.regs.width.toNat then s.regs.width - 128 else 0) else s.blit.offsetX) →
    oy = (if s.regs.width.toNat ≤ s.blit.offsetX.toNat then
      (if 128 ≤ s.regs.width.toNat then s.blit.offsetY - 1 else s.blit.offsetY + 1) else s.blit.offsetY) →
    (s.blit.heightL.toNat ≤ oy.toNat →
      exec .bstep s =
        .next { s with
          blit := { s.blit with
            bstate := .idle
            offsetX := ox
            offsetY := if 128 ≤ s.blit.heightL.toNat then s.blit.heightL - 128 else 0
            irqPending := s.blit.irqPending || s.regs.dmaFlags.getLsbD 6 } }) ∧
    (oy.toNat < s.blit.heightL.toNat → s.regs.dmaFlags.getLsbD 0 = false →
      exec .bstep s =
        .next { s with
          blit := { s.blit with
            offsetX := if 128 ≤ s.regs.width.toNat then ox - 1 else ox + 1
            offsetY := oy } })

/-- A working step draws its pixel: the color is the latched one or the sample, and the byte is stored if its place is on
the screen and it is opaque or not 0; nothing else changes but the progress counters (R235, R239 to R245, R131). The first
clause is the default `FLIP_ADJ` (R240, D15, unconfirmed in the spec; log entry 20). -/
def Obligations.BstepDrawsItsPixel : Prop :=
  (∀ size off : Byte, flipAdj .specDefault size off = size - 128 - off) ∧
  ∀ (s : State) (ox oy fx fy dx dy c : Byte) (sx sy : Nat), s.blit.bstate = .running → s.regs.startStrobe = false →
    s.regs.dmaFlags.getLsbD 0 = true →
    ox = (if s.regs.width.toNat ≤ s.blit.offsetX.toNat then
      (if 128 ≤ s.regs.width.toNat then s.regs.width - 128 else 0) else s.blit.offsetX) →
    oy = (if s.regs.width.toNat ≤ s.blit.offsetX.toNat then
      (if 128 ≤ s.regs.width.toNat then s.blit.offsetY - 1 else s.blit.offsetY + 1) else s.blit.offsetY) →
    oy.toNat < s.blit.heightL.toNat →
    fx = (if 128 ≤ s.regs.width.toNat then flipAdj s.cfg.flipAdj s.regs.width ox else ox) →
    fy = (if 128 ≤ s.blit.heightL.toNat then flipAdj s.cfg.flipAdj s.blit.heightL oy else oy) →
    sx = (if s.regs.dmaFlags.getLsbD 4 = true then (s.regs.gx.toNat + fx.toNat) % 128
      else ((s.regs.gx &&& 0x70) ||| ((s.regs.gx + fx) &&& 0x0F)).toNat) →
    sy = (if s.regs.dmaFlags.getLsbD 4 = true then (s.blit.srcY.toNat + fy.toNat) % 128
      else ((s.blit.srcY &&& 0x70) ||| ((s.blit.srcY + fy) &&& 0x0F)).toNat) →
    c = (if s.blit.colorFillL = true then s.blit.colorL
      else s.byte .vram (vramCell (s.regs.banking.extractLsb' 0 3)
        ((if s.regs.gy.getLsbD 7 = true then 128 else 0) + sy)
        ((if s.regs.gx.getLsbD 7 = true then 128 else 0) + sx))) →
    dx = s.regs.vx + ox → dy = s.blit.dstY + oy →
    ∃ t, exec .bstep s = .next t ∧
      t = { s with
        mem := t.mem
        blit := { s.blit with
          offsetX := if 128 ≤ s.regs.width.toNat then ox - 1 else ox + 1
          offsetY := oy } } ∧
      (dx.toNat < 128 ∧ dy.toNat < 128 ∧ (s.regs.dmaFlags.getLsbD 7 = true ∨ c ≠ 0) →
        StoresByte s t .fb (fbCell (s.regs.banking.getLsbD 3) dy.toNat dx.toNat) c) ∧
      (¬(dx.toNat < 128 ∧ dy.toNat < 128 ∧ (s.regs.dmaFlags.getLsbD 7 = true ∨ c ≠ 0)) → SameStorage s t)

/-- A non-flip blit of width W and height H, its registers left alone, is `Running` with its counters at the k-th pixel
in row-major order after step k, for k from 1 to W·H, and completes at step W·H + 1, where its interrupt is raised if
enabled (R248, R236, R237). -/
def Obligations.NonFlipBlitTakesWidthTimesHeightPlusOne : Prop :=
  ∀ s : State, s.blit.bstate = .idle → s.regs.startStrobe = true → s.regs.dmaFlags.getLsbD 0 = true →
    1 ≤ s.regs.width.toNat → s.regs.width.toNat ≤ 127 → 1 ≤ s.regs.height.toNat →
    (∀ k, 1 ≤ k → k ≤ s.regs.width.toNat * s.regs.height.toNat →
      (blitSteps k s).blit.bstate = .running ∧
      (blitSteps k s).blit.offsetX.toNat = (k - 1) % s.regs.width.toNat + 1 ∧
      (blitSteps k s).blit.offsetY.toNat = (k - 1) / s.regs.width.toNat ∧
      (blitSteps k s).blit.irqPending = s.blit.irqPending) ∧
    (blitSteps (s.regs.width.toNat * s.regs.height.toNat + 1) s).blit.bstate = .idle ∧
    (blitSteps (s.regs.width.toNat * s.regs.height.toNat + 1) s).blit.irqPending =
      (s.blit.irqPending || s.regs.dmaFlags.getLsbD 6)

/-- A colorfill of width W and height H writes the complement of `color` to exactly the pixels of its rectangle that are
on the screen, in the draw target, and leaves every other byte of every memory as it was (R239, R243, R244, R248). -/
def Obligations.ColorfillFillsItsRectangle : Prop :=
  ∀ s : State, s.blit.bstate = .idle → s.regs.startStrobe = true → s.regs.dmaFlags.getLsbD 0 = true →
    s.regs.dmaFlags.getLsbD 3 = true → (s.regs.dmaFlags.getLsbD 7 = true ∨ s.regs.color ≠ 0xFF) →
    1 ≤ s.regs.width.toNat → s.regs.width.toNat ≤ 127 → 1 ≤ s.regs.height.toNat →
    (∀ i j x y : Nat, i < s.regs.width.toNat → j < s.regs.height.toNat →
      x = (s.regs.vx.toNat + i) % 256 → y = (s.regs.vy.toNat + j) % 256 → x < 128 → y < 128 →
      (blitSteps (s.regs.width.toNat * s.regs.height.toNat + 1) s).byte .fb
        (fbCell (s.regs.banking.getLsbD 3) y x) = ~~~s.regs.color) ∧
    (∀ (id : MemId) (a : Nat),
      (id ≠ .fb ∨ ∀ i j x y : Nat, i < s.regs.width.toNat → j < s.regs.height.toNat →
        x = (s.regs.vx.toNat + i) % 256 → y = (s.regs.vy.toNat + j) % 256 → x < 128 → y < 128 →
        a ≠ fbCell (s.regs.banking.getLsbD 3) y x) →
      (blitSteps (s.regs.width.toNat * s.regs.height.toNat + 1) s).byte id a = s.byte id a)

/-- Degenerate blits: with height 0 the entering step completes and writes nothing; with width 0 and height H the step k
stands at offset (0, k) for k below H and step H completes (R249, which asks for the mark INFERRED). -/
def Obligations.DegenerateBlits : Prop :=
  ∀ s : State, s.blit.bstate = .idle → s.regs.startStrobe = true → s.regs.dmaFlags.getLsbD 0 = true →
    (s.regs.height = 0 → s.regs.width.toNat ≤ 127 →
      (blitSteps 1 s).blit.bstate = .idle ∧ SameStorage s (blitSteps 1 s) ∧
      (blitSteps 1 s).blit.irqPending = (s.blit.irqPending || s.regs.dmaFlags.getLsbD 6)) ∧
    (s.regs.width = 0 → 1 ≤ s.regs.height.toNat →
      (∀ k, 1 ≤ k → k < s.regs.height.toNat →
        (blitSteps k s).blit.bstate = .running ∧ (blitSteps k s).blit.offsetX = 1 ∧
        (blitSteps k s).blit.offsetY.toNat = k) ∧
      (blitSteps s.regs.height.toNat s).blit.bstate = .idle ∧
      (blitSteps s.regs.height.toNat s).blit.irqPending = (s.blit.irqPending || s.regs.dmaFlags.getLsbD 6) ∧
      ∀ y x, x < 128 → y < 128 →
        (∀ k, 1 ≤ k → k < s.regs.height.toNat →
          ¬(x = s.regs.vx.toNat ∧ y = (s.regs.vy.toNat + k) % 256)) →
        (blitSteps s.regs.height.toNat s).byte .fb (fbCell (s.regs.banking.getLsbD 3) y x) =
          s.byte .fb (fbCell (s.regs.banking.getLsbD 3) y x))

/-- A blit entered with the x flip bit set and a height of 1 or more handles the one pixel at offset (0, 0) and ends in its
second step, which writes nothing (R250, which the spec marks unconfirmed, U1). With height 0 it ends in its entering step,
which writes nothing (R232, R237; R250 says 2 steps "whatever its extents": the model's choice, log entry 25). -/
def Obligations.FlipBlitEndsInTwoSteps : Prop :=
  ∀ s : State, s.blit.bstate = .idle → s.regs.startStrobe = true → s.regs.dmaFlags.getLsbD 0 = true →
    128 ≤ s.regs.width.toNat →
    (s.regs.height ≠ 0 →
      (blitSteps 1 s).blit.bstate = .running ∧ (blitSteps 1 s).blit.offsetX = 255 ∧ (blitSteps 1 s).blit.offsetY = 0 ∧
      (blitSteps 2 s).blit.bstate = .idle ∧ (blitSteps 2 s).blit.offsetX = s.regs.width - 128 ∧
      (blitSteps 2 s).blit.irqPending = (s.blit.irqPending || s.regs.dmaFlags.getLsbD 6) ∧
      SameStorage (blitSteps 1 s) (blitSteps 2 s)) ∧
    (s.regs.height = 0 →
      (blitSteps 1 s).blit.bstate = .idle ∧
      (blitSteps 1 s).blit.irqPending = (s.blit.irqPending || s.regs.dmaFlags.getLsbD 6) ∧
      SameStorage s (blitSteps 1 s))

/-- A blitter step changes no byte outside the draw target, and no state but the start strobe and the blitter's own
(R53, R83, R230). -/
def Obligations.BlitterWritesOnlyTheDrawTarget : Prop :=
  ∀ s t : State, exec .bstep s = .next t →
    (∀ (id : MemId) (a : Nat),
      (id ≠ .fb ∨ a / 16384 ≠ (if s.regs.banking.getLsbD 3 = true then 1 else 0)) → t.byte id a = s.byte id a) ∧
    t.mem.cart = s.mem.cart ∧ t.regs = { s.regs with startStrobe := false } ∧ t.pad1 = s.pad1 ∧ t.pad2 = s.pad2 ∧
    t.orch = s.orch ∧ t.lines = s.lines ∧ t.audio = s.audio ∧ t.env = s.env ∧ t.cfg = s.cfg

/-- A `Running` blitter whose registers stay as they are reaches `Idle` in at most 256 · 257 steps, from every state
(R251). -/
def Obligations.RunningBlitEnds : Prop :=
  ∀ s : State, s.blit.bstate = .running → ∃ n, n ≤ 256 * 257 ∧ (blitSteps n s).blit.bstate = .idle

/-- The instant blit is the blitter step repeated until the blitter is `Idle` with no start waiting, and not once more;
it ends for every register setting and moves no counter and no line (R367, R253, R251). -/
def Obligations.InstantBlitIsRepeatedSteps : Prop :=
  ∀ s : State, ∃ n t, exec .hInstant s = .next t ∧ t = blitSteps n s ∧ t.blit.bstate = .idle ∧
    t.regs.startStrobe = false ∧ t.orch = s.orch ∧ t.lines = s.lines ∧
    ∀ m, m < n → (blitSteps m s).blit.bstate = .running ∨ (blitSteps m s).regs.startStrobe = true

/-! The orchestrator -/

/-- A tick is the budget of its elapsed time, clamped with a diagnostic above 33 ms, and then iterations for as long as
cycles remain: at most as many as the budget (R282, R283, R291, R385). -/
def Obligations.TickIsItsIterations : Prop :=
  ∀ (s : State) (c : Cart) (elapsed : Nat), s.mem.cart = some c →
    ∃ n t, exec (.tick elapsed) s = .next t ∧
      (∀ e : Nat, e = (if 33000000 < elapsed then 16667000 else elapsed) * 3579545 / 1000000000 →
        ∀ u : State, u = { (if 33000000 < elapsed then logged s (.timingAnomaly elapsed) else s) with
            orch := { s.orch with lastTick := s.orch.lastTick + elapsed, remainingCycles := e } } →
          n ≤ e ∧ t = (iteration c)^[n] u ∧
          ∀ m, m < n → 0 < ((iteration c)^[m] u).orch.remainingCycles) ∧
      t.orch.remainingCycles ≤ 0

/-- An iteration is one CPU step, the charge of its cycles, the ACP's loop if it is enabled now, as many blitter steps as
cycles, the copy of the interrupt, and the vblank update, in this order (R284 to R289, R98). What the CPU does in its step
is chosen by the lines as they are before the step, whose events it takes (R8, R281, R395, R418; the input is log
entry 6), within its contract: under `anySequence` the step given, under `oneOwner` that step without the transactions
that set `dma_enable` after a write to the framebuffer, so unchanged where none comes after one (log entry 24). Where no step does that, the CPU and the blitter do
not both change `FB` (R218). -/
def Obligations.IterationIsItsSevenSteps : Prop :=
  ∀ (s u a b d e f : State) (c : Cart) (st : CpuStep) (n : Nat), s.mem.cart = some c →
    ((∃ x more, s.env.cpuIn = x :: more ∧
        st = cpuConform s (cpuAnswer x ⟨s.lines.cpuIrq, s.lines.cpuNmi, s.lines.cpuReset⟩) ∧
        u = { s with
          lines := { s.lines with cpuNmi := false, cpuReset := false }
          env := { s.env with cpuIn := more } }) ∨
      (s.env.cpuIn = [] ∧
        st = cpuConform s (Config.cpuStep s.env.cpuFree ⟨s.lines.cpuIrq, s.lines.cpuNmi, s.lines.cpuReset⟩) ∧
        u = { s with
          lines := { s.lines with cpuNmi := false, cpuReset := false }
          env := { s.env with cpuFree := s.env.cpuFree + 1 } })) →
    a = (st.first :: st.rest).foldl (fun t op => busAccess c op t) u →
    n = a.orch.cycleCounter →
    b = { a with
      orch := { a.orch with
        cycleCounter := 0
        remainingCycles := a.orch.remainingCycles - n
        acpBudget := a.orch.acpBudget + 4 * n } } →
    ((b.regs.audioCtl.getLsbD 7 = true ∧ exec .acploop b = .next d) ∨ (b.regs.audioCtl.getLsbD 7 = false ∧ d = b)) →
    e = blitSteps n d →
    exec .irqprop e = .next f →
    (∃ t, exec .iter s = .next t ∧ exec (.vblank n) f = .next t) ∧
    (s.cfg.cpuContract = .oneOwner ∨ (∀ op, op ∈ st.first :: st.rest → setsDmaEnable op = false) →
      (∃ x, a.byte .fb x ≠ s.byte .fb x) → ∀ x, e.byte .fb x = d.byte .fb x) ∧
    ∀ p : CpuStep,
      (s.cfg.cpuContract = .anySequence → cpuConform s p = p) ∧
      (cpuConform s p).first = p.first ∧ (cpuConform s p).rest.Sublist p.rest ∧
      ((cpuConform s p).rest.filter (fun op => !setsDmaEnable op) = p.rest.filter fun op => !setsDmaEnable op) ∧
      ((∀ (l m r : List BusOp) (w op : BusOp), p.first :: p.rest = l ++ w :: (m ++ op :: r) →
          writesFramebuffer w (l.foldl (fun flags x => flagsAfter x flags) s.regs.dmaFlags) = true →
          setsDmaEnable op = false) →
        cpuConform s p = p)

/-- The ACP's loop is its pass repeated for as long as budget remains, at most once for each cycle of it, and ends with
the budget used up (R294, R291). In the reading that drains once for the whole loop, a drain follows the passes unless the
divisor is 0 (R300; the two readings are log entry 23). -/
def Obligations.AcpLoopIsItsPasses : Prop :=
  ∀ s : State, ∃ n t u, exec .acploop s = .next t ∧ u = acpPass^[n] s ∧ n ≤ s.orch.acpBudget.toNat ∧
    t.orch.acpBudget ≤ 0 ∧ (∀ m, m < n → 0 < (acpPass^[m] s).orch.acpBudget) ∧
    (s.cfg.drainPoint = .everySample ∨ s.regs.audioCtl.extractLsb' 0 7 = 0 → t = u) ∧
    (s.cfg.drainPoint = .afterLoop → s.regs.audioCtl.extractLsb' 0 7 ≠ 0 → t = audioDrain u)

/-- A pass of the ACP's loop is one ACP step, whose cycles come off the budget and the sample countdown, and one sample
event if the countdown is used up (R292, R294; the byte `ACP_SAMPLE` comes with the step, log entry 7). What the ACP does
in its step is chosen by the events that wait before it, which it takes (R8, R395, R418; the input is log entry 6). The
sample event drains the pipeline (R295), or only checks the rate and pushes in the reading that drains after the loop
(R300, R322; the two readings are log entry 23, and no turn of the audio callback is scheduled there, log entry 8). -/
def Obligations.AcpPassIsTheLoopBody : Prop :=
  ∀ (s u a b : State) (st : AcpStep),
    ((∃ x more, s.env.acpIn = x :: more ∧
        st = acpAnswer x ⟨s.lines.acpIrq, s.lines.acpNmi, s.lines.acpReset⟩ ∧
        u = { s with
          lines := { s.lines with acpIrq := false, acpNmi := false, acpReset := false }
          env := { s.env with acpIn := more } }) ∨
      (s.env.acpIn = [] ∧
        st = Config.acpStep s.env.acpFree ⟨s.lines.acpIrq, s.lines.acpNmi, s.lines.acpReset⟩ ∧
        u = { s with
          lines := { s.lines with acpIrq := false, acpNmi := false, acpReset := false }
          env := { s.env with acpFree := s.env.acpFree + 1 } })) →
    a = (st.first :: st.rest).foldl (fun t op => acpAccess op t) u →
    b = { a with
      orch := { a.orch with
        acpCycleCounter := 0
        acpBudget := a.orch.acpBudget - a.orch.acpCycleCounter
        sampleCountdown := a.orch.sampleCountdown - a.orch.acpCycleCounter } } →
    (0 < b.orch.sampleCountdown → acpPass s = b) ∧
    (b.orch.sampleCountdown ≤ 0 → s.cfg.drainPoint = .everySample ∨ b.regs.audioCtl.extractLsb' 0 7 = 0 →
      exec (.sample st.sample) b = .next (acpPass s)) ∧
    (b.orch.sampleCountdown ≤ 0 → s.cfg.drainPoint = .afterLoop → ∀ (d : Nat) (v w : State), b.env.popIn = [] →
      d = (b.regs.audioCtl.extractLsb' 0 7).toNat → d ≠ 0 →
      v = { b with
        orch := { b.orch with sampleCountdown := 4 * (d : Int) }
        lines := { b.lines with acpIrq := true } } →
      ((∃ rs, b.audio.rs = some rs ∧ rs.rate.num * d = 3579545 * rs.rate.den ∧ w = v) ∨
        ((∀ rs, b.audio.rs = some rs → rs.rate.num * d ≠ 3579545 * rs.rate.den) ∧
          exec (.aRecreate 3579545 d) v = .next w)) →
      exec (.aPush st.sample) w = .next (acpPass s))

/-- The ACP's loop reaches audio RAM and no other storage, no register, no pad, and nothing of the blitter's (R53,
R293). -/
def Obligations.AcpReachesAudioRamOnly : Prop :=
  ∀ s t : State, exec .acploop s = .next t →
    (∀ (id : MemId) (a : Nat), id ≠ .aram → t.byte id a = s.byte id a) ∧ t.mem.cart = s.mem.cart ∧
    t.regs = s.regs ∧ t.blit = s.blit ∧ t.pad1 = s.pad1 ∧ t.pad2 = s.pad2 ∧
    t.orch.cycleCounter = s.orch.cycleCounter ∧ t.orch.remainingCycles = s.orch.remainingCycles ∧
    t.orch.vblankCountdown = s.orch.vblankCountdown ∧ t.lines.cpuIrq = s.lines.cpuIrq ∧
    t.lines.cpuNmi = s.lines.cpuNmi ∧ t.cfg = s.cfg

/-- A sample event reloads the countdown with four times the divisor and asserts the ACP's IRQ; with a divisor of 0 it
does no more; else it creates the pipeline again if its rate differs, pushes the sample and drains (R295, R296, R332,
U6). The statement takes states in which the audio callback has no turn scheduled (log entry 8). -/
def Obligations.SampleEvent : Prop :=
  ∀ (s u w x : State) (v : Byte) (d : Nat), d = (s.regs.audioCtl.extractLsb' 0 7).toNat →
    u = { s with
      orch := { s.orch with sampleCountdown := 4 * (d : Int) }
      lines := { s.lines with acpIrq := true } } →
    (d = 0 → exec (.sample v) s = .next u) ∧
    (d ≠ 0 → s.env.popIn = [] →
      ((∃ rs, s.audio.rs = some rs ∧ rs.rate.num * d = 3579545 * rs.rate.den ∧ w = u) ∨
        ((∀ rs, s.audio.rs = some rs → rs.rate.num * d ≠ 3579545 * rs.rate.den) ∧
          exec (.aRecreate 3579545 d) u = .next w)) →
      exec (.aPush v) w = .next x →
      ∃ t, exec (.sample v) s = .next t ∧ exec .aDrain x = .next t)

/-- The interrupt line copies the flag; the vblank countdown falls by the cycles, is refilled once when used up, and then
asserts the NMI if it is enabled at that moment (R288, R289, R290). -/
def Obligations.InterruptCopyAndVblank : Prop :=
  ∀ s : State,
    exec .irqprop s = .next { s with lines := { s.lines with cpuIrq := s.blit.irqPending } } ∧
    ∀ c : Nat,
      (0 < s.orch.vblankCountdown - c →
        exec (.vblank c) s =
          .next { s with orch := { s.orch with vblankCountdown := s.orch.vblankCountdown - c } }) ∧
      (s.orch.vblankCountdown - c ≤ 0 →
        exec (.vblank c) s =
          .next { s with
            orch := { s.orch with vblankCountdown := s.orch.vblankCountdown - c + s.cfg.cyclesPerFrame }
            lines := { s.lines with cpuNmi := s.lines.cpuNmi || s.regs.dmaFlags.getLsbD 2 } })

/-- An ACP access counts one ACP cycle and reaches audio RAM through `ACP_DECODE`; a read of an address that maps to
nothing gives 0 and a write to one is dropped (R293, R82); the default map, which the spec marks as general knowledge, is
the address modulo 4096 (log entry 4). -/
def Obligations.AcpAccesses : Prop :=
  (∀ a : Addr, (acpDecode .specDefault a).map BitVec.toNat = some (a.toNat % 4096)) ∧
  ∀ (s : State) (a : Addr),
    exec (.acpRd a) s =
      .next { handedOut s (.acpRead a
          (((acpDecode s.cfg.acpDecode a).map fun o => s.byte .aram o.toNat).getD 0)) with
        orch := { s.orch with acpCycleCounter := s.orch.acpCycleCounter + 1 } } ∧
    ∀ v, ∃ t, exec (.acpWr a v) s = .next t ∧
      t = { s with mem := t.mem, orch := { s.orch with acpCycleCounter := s.orch.acpCycleCounter + 1 } } ∧
      (acpDecode s.cfg.acpDecode a).elim (t.mem = s.mem) fun o => StoresByte s t .aram o.toNat v

/-! The audio pipeline -/

/-- A push appends its sample where the native ring has a free slot, and else drops it with one diagnostic (R322). -/
def Obligations.PushStoresOrDrops : Prop :=
  ∀ (s : State) (v : Byte),
    (s.audio.nr.length < 128 →
      exec (.aPush v) s = .next { s with audio := { s.audio with nr := s.audio.nr ++ [v] } }) ∧
    (128 ≤ s.audio.nr.length → exec (.aPush v) s = .next (logged s (.nativeOverflow v)))

/-- Backpressure: N pushes into an empty native ring with no drain between them all return, leave min(N, 128) samples,
emit max(0, N − 128) diagnostics, and change nothing else (R335). -/
def Obligations.Backpressure : Prop :=
  ∀ (s : State) (vs : List Byte), s.audio.nr = [] →
    ∃ t d, vs.foldl (fun o v => thenDo o (exec (.aPush v))) (.next s) = .next t ∧
      t = { s with audio := { s.audio with nr := vs.take 128 }, env := { s.env with diags := d } } ∧
      t.audio.nr.length = min vs.length 128 ∧ d.length = s.env.diags.length + (vs.length - 128)

/-- A pull with fewer than 64 samples is exhausted and changes nothing; else it takes the 64 oldest, converts them,
passes them through the resampler and appends its output (R324, R325). The conversion has the nine binary32 values of
V-AUD-1 (R323; how it is computed is log entry 19). A resampler other than the default keeps the contract of R326 with a
fixed slack: the number of outputs since creation, and the output of an input that has been constant for long enough; all
else about it is free (log entry 17). -/
def Obligations.ResamplerPull : Prop :=
  (([0, 1, 64, 127, 128, 129, 191, 254, 255] : List Byte).map toF32 =
    [0xBF800000, 0xBF7DFDFE, 0xBEFEFEFE, 0xBB808080, 0x3B808100, 0x3C40C100, 0x3EFEFF00, 0x3F7DFDFE, 0x3F800000]) ∧
  (∀ (rs rs' : Resampler) (y out : List F32), 0 < rs.rate.num → 0 < rs.rate.den → y.length = 64 →
    resample .free rs y = (rs', out) →
    rs'.rate = rs.rate ∧ rs'.nIn = rs.nIn + 64 ∧ rs'.nOut = rs.nOut + out.length ∧
    (rs.nOut ≤ (rs.nIn * (48000 * rs.rate.den) + rs.rate.num - 1) / rs.rate.num + Config.resampleSlack →
      (rs.nIn + 64) * (48000 * rs.rate.den) / rs.rate.num - Config.resampleSlack ≤ rs'.nOut ∧
      rs'.nOut ≤ ((rs.nIn + 64) * (48000 * rs.rate.den) + rs.rate.num - 1) / rs.rate.num + Config.resampleSlack) ∧
    (∀ v : F32, (rs'.steady = some v ↔ (∀ x, x ∈ y → x = v) ∧ (rs.nIn = 0 ∨ rs.steady = some v))) ∧
    (∀ v x : F32, rs'.steady = some v → Config.resampleSettle (reducedRate rs.rate) v ≤ rs.nIn → x ∈ out → x = v)) ∧
  ∀ s : State,
    (s.audio.nr.length < 64 → exec .aResample s = .next (handedOut s (.resample .exhausted))) ∧
    (∀ rs rs' out, 64 ≤ s.audio.nr.length → s.audio.rs = some rs →
      resample s.cfg.resample rs ((s.audio.nr.take 64).map toF32) = (rs', out) →
      exec .aResample s =
        .next { handedOut s (.resample .pulled) with
          audio := { s.audio with nr := s.audio.nr.drop 64, rs := some rs', aq := s.audio.aq ++ out } })

/-- The default resampler emits output k for as long as the input number floor(k · r / TARGET_RATE) has been consumed,
and output k repeats that input (R326, RESAMPLE_ZOH, the spec's own default). -/
def Obligations.ZeroOrderHoldPull : Prop :=
  ∀ (rs rs' : Resampler) (y out : List F32), 0 < rs.rate.num → 0 < rs.rate.den → y.length = 64 →
    rs.nIn ≤ rs.nOut * rs.rate.num / (48000 * rs.rate.den) →
    resample .specDefault rs y = (rs', out) →
    rs' = { rs with nIn := rs.nIn + 64, nOut := rs.nOut + out.length } ∧
    (∀ j, j < out.length →
      (rs.nOut + j) * rs.rate.num / (48000 * rs.rate.den) < rs.nIn + 64 ∧
      out[j]? = y[(rs.nOut + j) * rs.rate.num / (48000 * rs.rate.den) - rs.nIn]?) ∧
    rs.nIn + 64 ≤ (rs.nOut + out.length) * rs.rate.num / (48000 * rs.rate.den)

/-- A commit moves the 64 oldest samples as one block when a full block waits and the output ring has at least 8 free
slots; else it changes nothing and says why (R327). -/
def Obligations.CommitMovesOneBlock : Prop :=
  ∀ s : State,
    (s.audio.aq.length < 64 → exec .aCommit s = .next (handedOut s (.commit .notReady))) ∧
    (64 ≤ s.audio.aq.length → 512 - s.audio.ring.length < 8 →
      exec .aCommit s = .next (handedOut s (.commit .noRoom))) ∧
    (∀ b : Block, b.toList = s.audio.aq.take 64 → 8 ≤ 512 - s.audio.ring.length →
      exec .aCommit s =
        .next { handedOut s (.commit .committed) with
          audio := { s.audio with aq := s.audio.aq.drop 64, ring := s.audio.ring ++ [b] } })

/-- A drain is `k` pulls, run until a pull answers exhausted, and then `m` commits, run until a commit answers that no
block is ready or that there is no room; it ends with the native samples that complete no chunk (R328, R333). Before each
commit the audio callback has the turn that its schedule gives it, none where it gives none (log entry 8). -/
def Obligations.DrainRunsEachStageOut : Prop :=
  ∀ s : State, (s.audio.nr.length < 64 ∨ s.audio.rs ≠ none) →
    ∃ (t : State) (k m : Nat) (a b : Nat → State),
      exec .aDrain s = .next t ∧
      a 0 = s ∧ (∀ j, j < k → exec .aResample (a j) = .next (handedOut (a (j + 1)) (.resample .pulled))) ∧
      exec .aResample (a k) = .next (handedOut (a k) (.resample .exhausted)) ∧
      b 0 = a k ∧
      (∀ j, j < m → exec .aCommit (audioThread (b j)) = .next (handedOut (b (j + 1)) (.commit .committed))) ∧
      t = audioThread (b m) ∧
      (exec .aCommit t = .next (handedOut t (.commit .notReady)) ∨
        exec .aCommit t = .next (handedOut t (.commit .noRoom))) ∧
      k = s.audio.nr.length / 64 ∧ t.audio.nr = s.audio.nr.drop (s.audio.nr.length / 64 * 64) ∧
      (t.audio.aq.length < 64 ∨ 512 - t.audio.ring.length < 8) ∧
      t.mem = s.mem ∧ t.regs = s.regs ∧ t.blit = s.blit ∧ t.pad1 = s.pad1 ∧ t.pad2 = s.pad2 ∧ t.orch = s.orch ∧
      t.lines = s.lines ∧ t.cfg = s.cfg

/-- A pop takes the oldest block, or gives 64 samples of 0.0 from an empty ring; a creation empties every stage and makes
a fresh resampler of its rate (R329, R330, R332). The fresh default resampler has consumed and produced nothing (R326); the
fresh state of any other instance, its counts, no steady value and a free inner state, is the model's, made from the rate in lowest terms
(log entries 14 and 17). -/
def Obligations.PopAndRecreate : Prop :=
  ∀ s : State,
    (∀ b rest, s.audio.ring = b :: rest →
      exec .aPop s = .next { handedOut s (.block b) with audio := { s.audio with ring := rest } }) ∧
    (s.audio.ring = [] → exec .aPop s = .next (handedOut s (.block (Vector.replicate 64 0)))) ∧
    ∀ num den, 0 < num → 0 < den →
      exec (.aRecreate num den) s =
        .next { s with
          audio := { nr := [], rs := some (freshResampler s.cfg.resample ⟨num, den⟩), aq := [], ring := [] } } ∧
      freshResampler .specDefault ⟨num, den⟩ =
        { rate := ⟨num, den⟩, nIn := 0, nOut := 0, steady := none, inner := [] } ∧
      freshResampler .free ⟨num, den⟩ =
        { rate := ⟨num, den⟩, nIn := 0, nOut := 0, steady := none, inner := Config.resampleInit (reducedRate ⟨num, den⟩) }

/-! The host's operations, power-on and invariants -/

/-- A load of an image of a legal length inserts it, clears the pending interrupt, delivers one reset to each CPU, and
touches nothing else (R360, R362, R363). -/
def Obligations.LoadRomAccepts : Prop :=
  ∀ (s : State) (bytes : List Byte), bytes.length ∈ [0x2000, 0x8000, 0x200000] →
    ∃ c, exec (.hLoadrom bytes) s =
        .next { handedOut s .romLoaded with
          mem := { s.mem with cart := some c }
          blit := { s.blit with irqPending := false }
          lines := { s.lines with cpuReset := true, acpReset := true } } ∧
      (bytes.length = 0x2000 → ∃ rom, c = .cart8K rom ∧ rom.toList = bytes) ∧
      (bytes.length = 0x8000 → ∃ rom, c = .cart32K rom ∧ rom.toList = bytes) ∧
      (bytes.length = 0x200000 → ∃ rom, c = .cart2M rom ∧ rom.toList = bytes)

/-- A load of an image of any other length is rejected: every piece of state is what it was, and the host is told the
length (R361). -/
def Obligations.LoadRomRejects : Prop :=
  ∀ (s : State) (bytes : List Byte), bytes.length ∉ [0x2000, 0x8000, 0x200000] →
    exec (.hLoadrom bytes) s = .next (handedOut s (.configError bytes.length))

/-- A button of the set `Button` is set in its pad and nowhere else; any other button is refused (R364, U9; which numbers
the set has is a parameter of the model, log entry 9). The read-out hands out a view of the buffer that `page_out` selects,
whose byte for row y and column x is the framebuffer's (R366). -/
def Obligations.ButtonsAndReadOut : Prop :=
  ∀ s : State,
    (∀ (b : BitVec 8) (pressed : Bool), b.toNat < s.cfg.buttons → ∃ x : BitVec 256,
      exec (.hSetbtn .pad1 b pressed) s = .next { s with pad1 := { s.pad1 with pressed := x } } ∧
      ∀ k, x.getLsbD k = if k = b.toNat then pressed else s.pad1.pressed.getLsbD k) ∧
    (∀ (b : BitVec 8) (pressed : Bool), b.toNat < s.cfg.buttons → ∃ x : BitVec 256,
      exec (.hSetbtn .pad2 b pressed) s = .next { s with pad2 := { s.pad2 with pressed := x } } ∧
      ∀ k, x.getLsbD k = if k = b.toNat then pressed else s.pad2.pressed.getLsbD k) ∧
    (∀ (p : PadPort) (b : BitVec 8) (pressed : Bool), s.cfg.buttons ≤ b.toNat →
      exec (.hSetbtn p b pressed) s = .refused .noSuchButton) ∧
    exec .hReadfb s = .next (handedOut s (.frame (s.regs.dmaFlags.getLsbD 1))) ∧
    ∀ (f : Bool) (y x : Nat), y < 128 → x < 128 →
      (frameView s f)[y * 128 + x]? = some (s.byte .fb (fbCell f y x))

/-- Power-on sets every piece of state to the power-on column of Table S2, and the memories to new unspecified bytes
(R431, R54; the streams, the waiting inputs and the configuration are the model's and stay, log entry 1). The machine after
reset has the same values, all of them stated, under choices of the model: the default parameters (log entries 4, 9 and
21), the instant 0 and no cycles remaining (log entry 5), and nothing waiting or handed out (log entries 1, 3 and 21). -/
def Obligations.PowerOnValues : Prop :=
  (∀ (s : State) (now : Nat), ∃ t, exec (.hPoweron now) s = .next t ∧
    t.regs =
      { banking := s.cfg.resetRegs.banking, dmaFlags := s.cfg.resetRegs.dmaFlags, audioCtl := s.cfg.resetRegs.audioCtl,
        vx := s.cfg.resetRegs.vx, vy := s.cfg.resetRegs.vy, gx := s.cfg.resetRegs.gx, gy := s.cfg.resetRegs.gy,
        width := s.cfg.resetRegs.width, height := s.cfg.resetRegs.height, color := s.cfg.resetRegs.color,
        startStrobe := false } ∧
    t.blit =
      { bstate := .idle, srcY := 0, dstY := 0, heightL := 0, colorL := 0, colorFillL := false, offsetX := 0,
        offsetY := 0, irqPending := false } ∧
    t.pad1 = { pressed := 0, portSelect := false } ∧ t.pad2 = { pressed := 0, portSelect := false } ∧
    t.orch =
      { cycleCounter := 0, acpCycleCounter := 0, lastTick := now, remainingCycles := 0, acpBudget := 0,
        vblankCountdown := s.cfg.cyclesPerFrame, sampleCountdown := 0 } ∧
    t.lines =
      { cpuIrq := false, cpuNmi := false, cpuReset := true, acpIrq := false, acpNmi := false, acpReset := true } ∧
    t.audio = { nr := [], rs := none, aq := [], ring := [] } ∧ t.mem.cart = none ∧ t.cfg = s.cfg ∧
    t.env = { s.env with powerOns := s.env.powerOns + 1 } ∧
    ∀ (id : MemId) (a : Nat), t.byte id a = Config.powerOnByte (s.env.powerOns + 1) id a) ∧
  State.reset.regs =
    { banking := 0, dmaFlags := 0, audioCtl := 0, vx := 0, vy := 0, gx := 0, gy := 0, width := 0, height := 0,
      color := 0, startStrobe := false } ∧
  State.reset.blit =
    { bstate := .idle, srcY := 0, dstY := 0, heightL := 0, colorL := 0, colorFillL := false, offsetX := 0, offsetY := 0,
      irqPending := false } ∧
  State.reset.pad1 = { pressed := 0, portSelect := false } ∧ State.reset.pad2 = { pressed := 0, portSelect := false } ∧
  State.reset.orch =
    { cycleCounter := 0, acpCycleCounter := 0, lastTick := 0, remainingCycles := 0, acpBudget := 0,
      vblankCountdown := 59659, sampleCountdown := 0 } ∧
  State.reset.lines =
    { cpuIrq := false, cpuNmi := false, cpuReset := true, acpIrq := false, acpNmi := false, acpReset := true } ∧
  State.reset.audio = { nr := [], rs := none, aq := [], ring := [] } ∧
  State.reset.env =
    { pending := [], cpuIn := [], acpIn := [], popIn := [], cpuFree := 0, acpFree := 0, powerOns := 0, diags := [],
      output := [] } ∧
  State.reset.cfg = Params.default ∧
  State.reset.windowMode = .vram ∧ State.reset.mem.cart = none ∧
  (∀ (id : MemId) (a : Nat), State.reset.byte id a = Config.powerOnByte 0 id a)

/-- The data of the machine after reset is in canonical form (R48, R54; the form is the model's, log entry 2). -/
def Obligations.ResetIsCanonical : Prop := Canonical State.reset

/-- Every step keeps the data in canonical form: no memory outside its size, the two rings within their capacities, the
resampler's rate a positive number (R21 to R26, R48, R93, R296; the form is the model's, log entry 2). -/
def Obligations.StepKeepsCanonical : Prop := ∀ s t : State, Canonical s → step s = .next t → Canonical t

/-- No operation changes the configuration, and only a load and power-on change the cartridge (R52, R27, R185, R53). -/
def Obligations.ConfigurationAndCartridgeStay : Prop :=
  ∀ (i : Instr) (s t : State), exec i s = .next t →
    t.cfg = s.cfg ∧
    ((∀ bytes, i ≠ .hLoadrom bytes) → (∀ now, i ≠ .hPoweron now) → t.mem.cart = s.mem.cart)

/-- The pending interrupt is set only by the blitter's steps and cleared only by a write of `start`, a load and power-on;
a tick and an iteration hold such steps and writes (R40, R391). -/
def Obligations.PendingInterruptChanges : Prop :=
  ∀ (i : Instr) (s t : State), exec i s = .next t →
    (s.blit.irqPending = false → t.blit.irqPending = true →
      i = .bstep ∨ i = .hInstant ∨ i = .iter ∨ ∃ n, i = .tick n) ∧
    ((i = .bstep ∨ i = .hInstant) → s.blit.irqPending = false → t.blit.irqPending = true →
      s.regs.dmaFlags.getLsbD 6 = true) ∧
    (s.blit.irqPending = true → t.blit.irqPending = false →
      (∃ k v, i = .wrBr6 k v) ∨
      (∃ o v, i = .wrWin o v ∧ s.regs.dmaFlags.getLsbD 0 = true ∧ o.toNat % 8 = 6) ∨
      (∃ bytes, i = .hLoadrom bytes) ∨ (∃ now, i = .hPoweron now) ∨ i = .iter ∨ ∃ n, i = .tick n)
end

