-- ==== Sys2Proof/Laws/State.lean ====
section
/-! SUPPORT. One lemma per field per named update of the state, so that no later proof unfolds a record update. -/

namespace Sys2Proof.Machine

@[simp] theorem State.emit_mem (s : State) (o : Output) : (s.emit o).mem = s.mem := rfl
@[simp] theorem State.emit_regs (s : State) (o : Output) : (s.emit o).regs = s.regs := rfl
@[simp] theorem State.emit_blit (s : State) (o : Output) : (s.emit o).blit = s.blit := rfl
@[simp] theorem State.emit_pad1 (s : State) (o : Output) : (s.emit o).pad1 = s.pad1 := rfl
@[simp] theorem State.emit_pad2 (s : State) (o : Output) : (s.emit o).pad2 = s.pad2 := rfl
@[simp] theorem State.emit_orch (s : State) (o : Output) : (s.emit o).orch = s.orch := rfl
@[simp] theorem State.emit_lines (s : State) (o : Output) : (s.emit o).lines = s.lines := rfl
@[simp] theorem State.emit_audio (s : State) (o : Output) : (s.emit o).audio = s.audio := rfl
@[simp] theorem State.emit_cfg (s : State) (o : Output) : (s.emit o).cfg = s.cfg := rfl

@[simp] theorem State.diag_mem (s : State) (d : Diag) : (s.diag d).mem = s.mem := rfl
@[simp] theorem State.diag_regs (s : State) (d : Diag) : (s.diag d).regs = s.regs := rfl
@[simp] theorem State.diag_blit (s : State) (d : Diag) : (s.diag d).blit = s.blit := rfl
@[simp] theorem State.diag_pad1 (s : State) (d : Diag) : (s.diag d).pad1 = s.pad1 := rfl
@[simp] theorem State.diag_pad2 (s : State) (d : Diag) : (s.diag d).pad2 = s.pad2 := rfl
@[simp] theorem State.diag_orch (s : State) (d : Diag) : (s.diag d).orch = s.orch := rfl
@[simp] theorem State.diag_lines (s : State) (d : Diag) : (s.diag d).lines = s.lines := rfl
@[simp] theorem State.diag_audio (s : State) (d : Diag) : (s.diag d).audio = s.audio := rfl
@[simp] theorem State.diag_cfg (s : State) (d : Diag) : (s.diag d).cfg = s.cfg := rfl

@[simp] theorem State.countCycle_mem (s : State) : (s.countCycle).mem = s.mem := rfl
@[simp] theorem State.countCycle_regs (s : State) : (s.countCycle).regs = s.regs := rfl
@[simp] theorem State.countCycle_blit (s : State) : (s.countCycle).blit = s.blit := rfl
@[simp] theorem State.countCycle_pad1 (s : State) : (s.countCycle).pad1 = s.pad1 := rfl
@[simp] theorem State.countCycle_pad2 (s : State) : (s.countCycle).pad2 = s.pad2 := rfl
@[simp] theorem State.countCycle_lines (s : State) : (s.countCycle).lines = s.lines := rfl
@[simp] theorem State.countCycle_audio (s : State) : (s.countCycle).audio = s.audio := rfl
@[simp] theorem State.countCycle_env (s : State) : (s.countCycle).env = s.env := rfl
@[simp] theorem State.countCycle_cfg (s : State) : (s.countCycle).cfg = s.cfg := rfl

@[simp] theorem State.countAcpCycle_mem (s : State) : (s.countAcpCycle).mem = s.mem := rfl
@[simp] theorem State.countAcpCycle_regs (s : State) : (s.countAcpCycle).regs = s.regs := rfl
@[simp] theorem State.countAcpCycle_blit (s : State) : (s.countAcpCycle).blit = s.blit := rfl
@[simp] theorem State.countAcpCycle_pad1 (s : State) : (s.countAcpCycle).pad1 = s.pad1 := rfl
@[simp] theorem State.countAcpCycle_pad2 (s : State) : (s.countAcpCycle).pad2 = s.pad2 := rfl
@[simp] theorem State.countAcpCycle_lines (s : State) : (s.countAcpCycle).lines = s.lines := rfl
@[simp] theorem State.countAcpCycle_audio (s : State) : (s.countAcpCycle).audio = s.audio := rfl
@[simp] theorem State.countAcpCycle_env (s : State) : (s.countAcpCycle).env = s.env := rfl
@[simp] theorem State.countAcpCycle_cfg (s : State) : (s.countAcpCycle).cfg = s.cfg := rfl

@[simp] theorem State.takeCpuEvents_mem (s : State) : (s.takeCpuEvents).mem = s.mem := rfl
@[simp] theorem State.takeCpuEvents_regs (s : State) : (s.takeCpuEvents).regs = s.regs := rfl
@[simp] theorem State.takeCpuEvents_blit (s : State) : (s.takeCpuEvents).blit = s.blit := rfl
@[simp] theorem State.takeCpuEvents_pad1 (s : State) : (s.takeCpuEvents).pad1 = s.pad1 := rfl
@[simp] theorem State.takeCpuEvents_pad2 (s : State) : (s.takeCpuEvents).pad2 = s.pad2 := rfl
@[simp] theorem State.takeCpuEvents_orch (s : State) : (s.takeCpuEvents).orch = s.orch := rfl
@[simp] theorem State.takeCpuEvents_audio (s : State) : (s.takeCpuEvents).audio = s.audio := rfl
@[simp] theorem State.takeCpuEvents_env (s : State) : (s.takeCpuEvents).env = s.env := rfl
@[simp] theorem State.takeCpuEvents_cfg (s : State) : (s.takeCpuEvents).cfg = s.cfg := rfl

@[simp] theorem State.takeCpuEvents_cpuSample (s : State) :
    s.takeCpuEvents.cpuSample = ⟨s.lines.cpuIrq, false, false⟩ := rfl
@[simp] theorem State.takeCpuEvents_acpSample (s : State) : s.takeCpuEvents.acpSample = s.acpSample := rfl
@[simp] theorem State.takeAcpEvents_cpuSample (s : State) : s.takeAcpEvents.cpuSample = s.cpuSample := rfl
@[simp] theorem State.takeAcpEvents_acpSample (s : State) : s.takeAcpEvents.acpSample = ⟨false, false, false⟩ := rfl

@[simp] theorem State.takeAcpEvents_mem (s : State) : (s.takeAcpEvents).mem = s.mem := rfl
@[simp] theorem State.takeAcpEvents_regs (s : State) : (s.takeAcpEvents).regs = s.regs := rfl
@[simp] theorem State.takeAcpEvents_blit (s : State) : (s.takeAcpEvents).blit = s.blit := rfl
@[simp] theorem State.takeAcpEvents_pad1 (s : State) : (s.takeAcpEvents).pad1 = s.pad1 := rfl
@[simp] theorem State.takeAcpEvents_pad2 (s : State) : (s.takeAcpEvents).pad2 = s.pad2 := rfl
@[simp] theorem State.takeAcpEvents_orch (s : State) : (s.takeAcpEvents).orch = s.orch := rfl
@[simp] theorem State.takeAcpEvents_audio (s : State) : (s.takeAcpEvents).audio = s.audio := rfl
@[simp] theorem State.takeAcpEvents_env (s : State) : (s.takeAcpEvents).env = s.env := rfl
@[simp] theorem State.takeAcpEvents_cfg (s : State) : (s.takeAcpEvents).cfg = s.cfg := rfl

@[simp] theorem State.answerRead_mem (s : State) (addr : Addr) (v : Byte) : (s.answerRead addr v).mem = s.mem := rfl
@[simp] theorem State.answerRead_regs (s : State) (addr : Addr) (v : Byte) : (s.answerRead addr v).regs = s.regs := rfl
@[simp] theorem State.answerRead_blit (s : State) (addr : Addr) (v : Byte) : (s.answerRead addr v).blit = s.blit := rfl
@[simp] theorem State.answerRead_pad1 (s : State) (addr : Addr) (v : Byte) : (s.answerRead addr v).pad1 = s.pad1 := rfl
@[simp] theorem State.answerRead_pad2 (s : State) (addr : Addr) (v : Byte) : (s.answerRead addr v).pad2 = s.pad2 := rfl
@[simp] theorem State.answerRead_lines (s : State) (addr : Addr) (v : Byte) : (s.answerRead addr v).lines = s.lines := rfl
@[simp] theorem State.answerRead_audio (s : State) (addr : Addr) (v : Byte) : (s.answerRead addr v).audio = s.audio := rfl
@[simp] theorem State.answerRead_cfg (s : State) (addr : Addr) (v : Byte) : (s.answerRead addr v).cfg = s.cfg := rfl

@[simp] theorem State.assertLine_mem (s : State) (l : EventLine) : (s.assertLine l).mem = s.mem := by cases l <;> rfl
@[simp] theorem State.assertLine_regs (s : State) (l : EventLine) : (s.assertLine l).regs = s.regs := by cases l <;> rfl
@[simp] theorem State.assertLine_blit (s : State) (l : EventLine) : (s.assertLine l).blit = s.blit := by cases l <;> rfl
@[simp] theorem State.assertLine_pad1 (s : State) (l : EventLine) : (s.assertLine l).pad1 = s.pad1 := by cases l <;> rfl
@[simp] theorem State.assertLine_pad2 (s : State) (l : EventLine) : (s.assertLine l).pad2 = s.pad2 := by cases l <;> rfl
@[simp] theorem State.assertLine_orch (s : State) (l : EventLine) : (s.assertLine l).orch = s.orch := by cases l <;> rfl
@[simp] theorem State.assertLine_audio (s : State) (l : EventLine) : (s.assertLine l).audio = s.audio := by cases l <;> rfl
@[simp] theorem State.assertLine_env (s : State) (l : EventLine) : (s.assertLine l).env = s.env := by cases l <;> rfl
@[simp] theorem State.assertLine_cfg (s : State) (l : EventLine) : (s.assertLine l).cfg = s.cfg := by cases l <;> rfl

@[simp] theorem State.setPad_mem (s : State) (p : PadPort) (x : Pad) : (s.setPad p x).mem = s.mem := by cases p <;> rfl
@[simp] theorem State.setPad_regs (s : State) (p : PadPort) (x : Pad) : (s.setPad p x).regs = s.regs := by cases p <;> rfl
@[simp] theorem State.setPad_blit (s : State) (p : PadPort) (x : Pad) : (s.setPad p x).blit = s.blit := by cases p <;> rfl
@[simp] theorem State.setPad_orch (s : State) (p : PadPort) (x : Pad) : (s.setPad p x).orch = s.orch := by cases p <;> rfl
@[simp] theorem State.setPad_lines (s : State) (p : PadPort) (x : Pad) : (s.setPad p x).lines = s.lines := by cases p <;> rfl
@[simp] theorem State.setPad_audio (s : State) (p : PadPort) (x : Pad) : (s.setPad p x).audio = s.audio := by cases p <;> rfl
@[simp] theorem State.setPad_env (s : State) (p : PadPort) (x : Pad) : (s.setPad p x).env = s.env := by cases p <;> rfl
@[simp] theorem State.setPad_cfg (s : State) (p : PadPort) (x : Pad) : (s.setPad p x).cfg = s.cfg := by cases p <;> rfl

@[simp] theorem State.putByte_regs (s : State) (id : MemId) (a : Nat) (v : Byte) : (s.putByte id a v).regs = s.regs := rfl
@[simp] theorem State.putByte_blit (s : State) (id : MemId) (a : Nat) (v : Byte) : (s.putByte id a v).blit = s.blit := rfl
@[simp] theorem State.putByte_pad1 (s : State) (id : MemId) (a : Nat) (v : Byte) : (s.putByte id a v).pad1 = s.pad1 := rfl
@[simp] theorem State.putByte_pad2 (s : State) (id : MemId) (a : Nat) (v : Byte) : (s.putByte id a v).pad2 = s.pad2 := rfl
@[simp] theorem State.putByte_orch (s : State) (id : MemId) (a : Nat) (v : Byte) : (s.putByte id a v).orch = s.orch := rfl
@[simp] theorem State.putByte_lines (s : State) (id : MemId) (a : Nat) (v : Byte) : (s.putByte id a v).lines = s.lines := rfl
@[simp] theorem State.putByte_audio (s : State) (id : MemId) (a : Nat) (v : Byte) : (s.putByte id a v).audio = s.audio := rfl
@[simp] theorem State.putByte_env (s : State) (id : MemId) (a : Nat) (v : Byte) : (s.putByte id a v).env = s.env := rfl
@[simp] theorem State.putByte_cfg (s : State) (id : MemId) (a : Nat) (v : Byte) : (s.putByte id a v).cfg = s.cfg := rfl

@[simp] theorem State.emit_output (s : State) (o : Output) : (s.emit o).env.output = o :: s.env.output := rfl
@[simp] theorem State.emit_diags (s : State) (o : Output) : (s.emit o).env.diags = s.env.diags := rfl
@[simp] theorem State.emit_powerOns (s : State) (o : Output) : (s.emit o).env.powerOns = s.env.powerOns := rfl
@[simp] theorem State.diag_diags (s : State) (d : Diag) : (s.diag d).env.diags = d :: s.env.diags := rfl
@[simp] theorem State.diag_output (s : State) (d : Diag) : (s.diag d).env.output = s.env.output := rfl
@[simp] theorem State.diag_powerOns (s : State) (d : Diag) : (s.diag d).env.powerOns = s.env.powerOns := rfl
@[simp] theorem State.countCycle_cycleCounter (s : State) :
    s.countCycle.orch.cycleCounter = s.orch.cycleCounter + 1 := rfl
@[simp] theorem State.countAcpCycle_acpCycleCounter (s : State) :
    s.countAcpCycle.orch.acpCycleCounter = s.orch.acpCycleCounter + 1 := rfl
@[simp] theorem State.answerRead_cycleCounter (s : State) (addr : Addr) (v : Byte) :
    (s.answerRead addr v).orch.cycleCounter = s.orch.cycleCounter + 1 := rfl
@[simp] theorem State.answerRead_output (s : State) (addr : Addr) (v : Byte) :
    (s.answerRead addr v).env.output = .busRead addr v :: s.env.output := rfl
@[simp] theorem State.answerRead_diags (s : State) (addr : Addr) (v : Byte) :
    (s.answerRead addr v).env.diags = s.env.diags := rfl
@[simp] theorem State.answerRead_powerOns (s : State) (addr : Addr) (v : Byte) :
    (s.answerRead addr v).env.powerOns = s.env.powerOns := rfl
@[simp] theorem State.pad_setPad_same (s : State) (p : PadPort) (x : Pad) : (s.setPad p x).pad p = x := by
  cases p <;> rfl
@[simp] theorem State.pad_setPad_other (s : State) (p : PadPort) (x : Pad) :
    (s.setPad p x).pad (otherPad p) = s.pad (otherPad p) := by cases p <;> rfl
@[simp] theorem State.putByte_cart (s : State) (id : MemId) (a : Nat) (v : Byte) :
    (s.putByte id a v).mem.cart = s.mem.cart := by cases id <;> rfl

end Sys2Proof.Machine
end

