-- ==== Sys2Proof/Laws/Audio.lean ====
section
/-! SUPPORT. What each operation of the audio pipeline can do, said once. -/

namespace Sys2Proof.Machine

/-- What the audio operations may change: the pipeline, the two output streams and the callback's schedule (R320). -/
structure AudioEffect (s t : State) : Prop where
  mem : t.mem = s.mem
  regs : t.regs = s.regs
  blit : t.blit = s.blit
  pad1 : t.pad1 = s.pad1
  pad2 : t.pad2 = s.pad2
  orch : t.orch = s.orch
  lines : t.lines = s.lines
  cfg : t.cfg = s.cfg
  env : ∃ p d o, t.env = { s.env with popIn := p, diags := d, output := o }

/-- The bounds of the two rings and the rate of the resampler (R48, R296). -/
structure AudioOk (a : AudioPipeline) : Prop where
  native : a.nr.length ≤ Config.nativeCap
  ring : a.ring.length ≤ Config.outCap
  rate : ∀ rs, a.rs = some rs → 0 < rs.rate.num ∧ 0 < rs.rate.den

theorem AudioEffect.refl (s : State) : AudioEffect s s :=
  ⟨rfl, rfl, rfl, rfl, rfl, rfl, rfl, rfl, ⟨_, _, _, rfl⟩⟩

theorem AudioEffect.trans {s t u : State} (h : AudioEffect s t) (k : AudioEffect t u) : AudioEffect s u := by
  obtain ⟨p, d, o, he⟩ := h.env
  obtain ⟨p', d', o', he'⟩ := k.env
  exact ⟨k.mem.trans h.mem, k.regs.trans h.regs, k.blit.trans h.blit, k.pad1.trans h.pad1, k.pad2.trans h.pad2,
    k.orch.trans h.orch, k.lines.trans h.lines, k.cfg.trans h.cfg, ⟨p', d', o', by rw [he', he]⟩⟩

/-- A push stores the sample behind the others, or drops it with one diagnostic (R322). -/
theorem audioPush_cases (v : Byte) (s : State) :
    (s.audio.nr.length < Config.nativeCap ∧
      audioPush v s = { s with audio := { s.audio with nr := s.audio.nr ++ [v] } }) ∨
    (Config.nativeCap ≤ s.audio.nr.length ∧ audioPush v s = s.diag (.nativeOverflow v)) := by
  unfold audioPush
  split
  · exact .inl ⟨‹_›, rfl⟩
  · exact .inr ⟨by omega, rfl⟩

theorem audioPush_effect (v : Byte) (s : State) : AudioEffect s (audioPush v s) := by
  rcases audioPush_cases v s with ⟨-, h⟩ | ⟨-, h⟩ <;> rw [h] <;>
    exact ⟨rfl, rfl, rfl, rfl, rfl, rfl, rfl, rfl, ⟨_, _, _, rfl⟩⟩

theorem audioPush_ok (v : Byte) {s : State} (h : AudioOk s.audio) : AudioOk (audioPush v s).audio := by
  rcases audioPush_cases v s with ⟨hl, e⟩ | ⟨-, e⟩ <;> rw [e]
  · exact ⟨by simp only [List.length_append, List.length_singleton]; omega, h.ring, h.rate⟩
  · exact h

/-- The rounded-down quotient of the contract of R326 is not above the rounded-up one. -/
theorem outputFloor_le_zohEnd (r : Rate) (n : Nat) : outputFloor r n ≤ zohEnd r n := by
  rcases Nat.eq_zero_or_pos r.num with h | h
  · simp [outputFloor, zohEnd, h]
  · exact Nat.div_le_div_right (by omega)

/-- The bounded number of outputs lies between the two bounds, whatever number was wanted (R326). -/
theorem boundOutputs_bounds (r : Rate) (n total : Nat) :
    outputFloor r n - Config.resampleSlack ≤ boundOutputs r n total ∧
    boundOutputs r n total ≤ zohEnd r n + Config.resampleSlack := by
  have := outputFloor_le_zohEnd r n
  unfold boundOutputs
  omega

/-- A number of outputs inside the bounds is left as it is (R326). -/
theorem boundOutputs_inside {r : Rate} {n total : Nat} (hl : outputFloor r n - Config.resampleSlack ≤ total)
    (hu : total ≤ zohEnd r n + Config.resampleSlack) : boundOutputs r n total = total := by
  unfold boundOutputs
  omega

/-- An input that has been constant for long enough has its value as output (R326). -/
theorem freeSample_settled {rs : Resampler} {y : List F32} {v : F32} (h : steadyAfter rs y = some v)
    (hs : Config.resampleSettle (reducedRate rs.rate) v ≤ rs.nIn) (j : Nat) : freeSample rs y j = v := by
  simp [freeSample, h, hs]

/-- Two pairs for the same rate have the same lowest terms, so they make the same free resampler (R326). -/
theorem reducedRate_eq_of_sameRate {a b : Rate} (ha : 0 < a.den) (hb : 0 < b.den) (h : sameRate a b = true) :
    reducedRate a = reducedRate b := by
  have h : a.num * b.den = b.num * a.den := by simpa [sameRate] using h
  have hg : a.num.gcd a.den * b.den = b.num.gcd b.den * a.den := by
    rw [← Nat.gcd_mul_right, ← Nat.gcd_mul_right, h, Nat.mul_comm a.den b.den]
  have hnum : a.num / a.num.gcd a.den = b.num / b.num.gcd b.den := by
    rw [← Nat.mul_div_mul_right _ _ hb, h, hg, Nat.mul_div_mul_right _ _ ha]
  have hden : a.den / a.num.gcd a.den = b.den / b.num.gcd b.den := by
    rw [← Nat.mul_div_mul_right _ _ hb, Nat.mul_comm a.den, hg, Nat.mul_div_mul_right _ _ ha]
  simp only [reducedRate, hden, hnum]

/-- A resampler keeps its rate (R326). -/
@[simp] theorem resample_rate (src : ParamSource) (rs : Resampler) (y : List F32) :
    (resample src rs y).1.rate = rs.rate := by cases src <;> rfl

/-- A pull is one of three: exhausted, through the resampler, or (not reachable, R325) without one. -/
theorem audioResample_cases (s : State) :
    (exhausted s.audio = true ∧ audioResample s = (.exhausted, s)) ∨
    (exhausted s.audio = false ∧ s.audio.rs = none ∧ audioResample s = (.exhausted, s)) ∨
    (exhausted s.audio = false ∧ ∃ rs, s.audio.rs = some rs ∧ audioResample s = (.pulled, pullChunk s rs)) := by
  unfold audioResample
  cases exhausted s.audio
  · cases s.audio.rs with
    | none => exact .inr (.inl ⟨rfl, rfl, rfl⟩)
    | some rs => exact .inr (.inr ⟨rfl, rs, rfl, rfl⟩)
  · exact .inl ⟨rfl, rfl⟩

theorem pullChunk_effect (s : State) (rs : Resampler) : AudioEffect s (pullChunk s rs) :=
  ⟨rfl, rfl, rfl, rfl, rfl, rfl, rfl, rfl, ⟨_, _, _, rfl⟩⟩

theorem audioResample_effect (s : State) : AudioEffect s (audioResample s).2 := by
  rcases audioResample_cases s with ⟨-, e⟩ | ⟨-, -, e⟩ | ⟨-, rs, -, e⟩ <;> rw [e]
  · exact .refl s
  · exact .refl s
  · exact pullChunk_effect s rs

theorem audioResample_ok {s : State} (h : AudioOk s.audio) : AudioOk (audioResample s).2.audio := by
  rcases audioResample_cases s with ⟨-, e⟩ | ⟨-, -, e⟩ | ⟨-, rs, hrs, e⟩ <;> rw [e]
  · exact h
  · exact h
  · have hn := h.native
    refine ⟨?_, h.ring, ?_⟩
    · simp only [pullChunk, List.length_drop]; omega
    · intro rs' hrs'
      simp only [pullChunk, Option.some.injEq] at hrs'
      rw [← hrs', resample_rate]
      exact h.rate rs hrs

/-- A commit is one of three: no full block, no room, or one block moved. The drop is not reachable (R327, C8). -/
theorem audioCommit_cases (s : State) :
    (s.audio.aq.length < Config.blockLen ∧ audioCommit s = (.notReady, s)) ∨
    (Config.blockLen ≤ s.audio.aq.length ∧ Config.outCap - s.audio.ring.length < Config.outFreeMin ∧
      audioCommit s = (.noRoom, s)) ∨
    (Config.blockLen ≤ s.audio.aq.length ∧ Config.outFreeMin ≤ Config.outCap - s.audio.ring.length ∧
      ∃ b : Block, b.toList = s.audio.aq.take Config.blockLen ∧
        audioCommit s = (.committed,
          { s with
            audio := { s.audio with aq := s.audio.aq.drop Config.blockLen, ring := s.audio.ring ++ [b] } })) := by
  unfold audioCommit
  by_cases h : Config.blockLen ≤ s.audio.aq.length
  · rw [dif_pos h]
    by_cases h2 : Config.outCap - s.audio.ring.length < Config.outFreeMin
    · rw [if_pos h2]
      exact .inr (.inl ⟨h, h2, rfl⟩)
    · rw [if_neg h2]
      have h3 : s.audio.ring.length < Config.outCap := by
        simp only [Config.outCap, Config.outFreeMin] at *; omega
      exact .inr (.inr ⟨h, by omega, firstBlock s.audio.aq h, by simp [firstBlock], by simp only [if_pos h3]⟩)
  · rw [dif_neg h]
    exact .inl ⟨by omega, rfl⟩

theorem audioCommit_effect (s : State) : AudioEffect s (audioCommit s).2 := by
  rcases audioCommit_cases s with ⟨-, e⟩ | ⟨-, -, e⟩ | ⟨-, -, b, -, e⟩ <;> rw [e]
  · exact .refl s
  · exact .refl s
  · exact ⟨rfl, rfl, rfl, rfl, rfl, rfl, rfl, rfl, ⟨_, _, _, rfl⟩⟩

theorem audioCommit_ok {s : State} (h : AudioOk s.audio) : AudioOk (audioCommit s).2.audio := by
  rcases audioCommit_cases s with ⟨-, e⟩ | ⟨-, -, e⟩ | ⟨-, hf, b, -, e⟩ <;> rw [e]
  · exact h
  · exact h
  · refine ⟨h.native, ?_, h.rate⟩
    simp only [Config.outCap, Config.outFreeMin] at *
    simp only [List.length_append, List.length_singleton]
    omega

/-- A pop hands out the oldest block, or silence when there is none (R329, R330). -/
theorem audioPop_cases (s : State) :
    (s.audio.ring = [] ∧ audioPop s = s.emit (.block silence)) ∨
    (∃ b rest, s.audio.ring = b :: rest ∧
      audioPop s = { s with audio := { s.audio with ring := rest } }.emit (.block b)) := by
  unfold audioPop
  split
  · rename_i b rest h
    exact .inr ⟨b, rest, h, rfl⟩
  · rename_i h
    exact .inl ⟨h, rfl⟩

theorem audioPop_effect (s : State) : AudioEffect s (audioPop s) := by
  rcases audioPop_cases s with ⟨-, e⟩ | ⟨b, rest, -, e⟩ <;> rw [e] <;>
    exact ⟨rfl, rfl, rfl, rfl, rfl, rfl, rfl, rfl, ⟨_, _, _, rfl⟩⟩

theorem audioPop_ok {s : State} (h : AudioOk s.audio) : AudioOk (audioPop s).audio := by
  rcases audioPop_cases s with ⟨-, e⟩ | ⟨b, rest, hr, e⟩ <;> rw [e]
  · exact h
  · have := h.ring
    rw [hr, List.length_cons] at this
    exact ⟨h.native, by simp only [State.emit_audio]; omega, h.rate⟩

theorem audioPops_effect (n : Nat) (s : State) : AudioEffect s (audioPops n s) := by
  induction n generalizing s with
  | zero => exact .refl s
  | succ n ih => exact (audioPop_effect s).trans (ih _)

theorem audioPops_ok (n : Nat) {s : State} (h : AudioOk s.audio) : AudioOk (audioPops n s).audio := by
  induction n generalizing s with
  | zero => exact h
  | succ n ih => exact ih (audioPop_ok h)

theorem audioThread_effect (s : State) : AudioEffect s (audioThread s) := by
  unfold audioThread
  split
  · exact .refl s
  · rename_i n rest _
    have h : AudioEffect s { s with env := { s.env with popIn := rest } } :=
      ⟨rfl, rfl, rfl, rfl, rfl, rfl, rfl, rfl, ⟨_, _, _, rfl⟩⟩
    exact h.trans (audioPops_effect n _)

theorem audioThread_ok {s : State} (h : AudioOk s.audio) : AudioOk (audioThread s).audio := by
  unfold audioThread
  split
  · exact h
  · exact audioPops_ok _ (s := { s with env := { s.env with popIn := _ } }) h

/-- Without a schedule the callback has no turn. -/
theorem audioThread_none {s : State} (h : s.env.popIn = []) : audioThread s = s := by simp [audioThread, h]

theorem drainResample_effect (n : Nat) (s : State) : AudioEffect s (drainResample n s) := by
  induction n generalizing s with
  | zero => exact .refl s
  | succ n ih =>
    unfold drainResample
    have he := audioResample_effect s
    split
    · rename_i t h
      rw [h] at he
      exact he.trans (ih t)
    · exact .refl s

theorem drainResample_ok (n : Nat) {s : State} (h : AudioOk s.audio) : AudioOk (drainResample n s).audio := by
  induction n generalizing s with
  | zero => exact h
  | succ n ih =>
    unfold drainResample
    have he := audioResample_ok h
    split
    · rename_i t ht
      rw [ht] at he
      exact ih he
    · exact h

theorem drainCommit_effect (n : Nat) (s : State) : AudioEffect s (drainCommit n s) := by
  induction n generalizing s with
  | zero => exact .refl s
  | succ n ih =>
    unfold drainCommit
    have he := (audioThread_effect s).trans (audioCommit_effect (audioThread s))
    split <;> rename_i t h <;> rw [h] at he
    · exact he.trans (ih t)
    · exact he
    · exact he

theorem drainCommit_ok (n : Nat) {s : State} (h : AudioOk s.audio) : AudioOk (drainCommit n s).audio := by
  induction n generalizing s with
  | zero => exact h
  | succ n ih =>
    unfold drainCommit
    have he := audioCommit_ok (audioThread_ok h)
    split <;> rename_i t ht <;> rw [ht] at he
    · exact ih he
    · exact he
    · exact he

theorem audioDrain_effect (s : State) : AudioEffect s (audioDrain s) :=
  (drainResample_effect _ s).trans (drainCommit_effect _ _)

theorem audioDrain_ok {s : State} (h : AudioOk s.audio) : AudioOk (audioDrain s).audio :=
  drainCommit_ok _ (drainResample_ok _ h)

theorem audioRecreate_effect (r : Rate) (s : State) : AudioEffect s (audioRecreate r s) :=
  ⟨rfl, rfl, rfl, rfl, rfl, rfl, rfl, rfl, ⟨_, _, _, rfl⟩⟩

@[simp] theorem freshResampler_rate (src : ParamSource) (r : Rate) : (freshResampler src r).rate = r := by
  cases src <;> rfl

theorem audioRecreate_ok (r : Rate) (s : State) (hn : 0 < r.num) (hd : 0 < r.den) :
    AudioOk (audioRecreate r s).audio := by
  refine ⟨by simp [audioRecreate, Config.nativeCap], by simp [audioRecreate, Config.outCap], ?_⟩
  intro rs h
  simp only [audioRecreate, Option.some.injEq] at h
  rw [← h, freshResampler_rate]
  exact ⟨hn, hd⟩

end Sys2Proof.Machine
end

