-- ==== Sys2Proof/Laws/Memory.lean ====
section
/-! SUPPORT. The laws of a memory: a read after a write, the canonical form, and the same for the state's byte. -/

namespace Sys2Proof.Machine

theorem Memory.read_write_same (m : Memory) (a : Nat) (v : Byte) : Memory.read (Memory.write m a v) a = some v := by
  induction m with
  | nil => simp [Memory.write, Memory.read]
  | cons x rest ih =>
    obtain ⟨k, w⟩ := x
    by_cases h : a < k
    · simp [Memory.write, Memory.read, h]
    · by_cases h' : a = k
      · simp [Memory.write, Memory.read, h']
      · have hk : k ≠ a := fun e => h' e.symm
        simp [Memory.write, Memory.read, h, h', hk, ih]

theorem Memory.read_write_other (m : Memory) (a b : Nat) (v : Byte) (hab : b ≠ a) :
    Memory.read (Memory.write m a v) b = Memory.read m b := by
  have hba : a ≠ b := fun e => hab e.symm
  induction m with
  | nil => simp [Memory.write, Memory.read, hba]
  | cons x rest ih =>
    obtain ⟨k, w⟩ := x
    by_cases h : a < k
    · simp [Memory.write, Memory.read, h, hba]
    · by_cases h' : a = k
      · subst h'
        simp [Memory.write, Memory.read, hba]
      · simp [Memory.write, Memory.read, h, h', ih]

/-- The first cell of a written memory is the written cell or the old first cell. -/
theorem Memory.write_head (m : Memory) (a : Nat) (v : Byte) :
    ∃ k w rest, Memory.write m a v = (k, w) :: rest ∧ (k = a ∨ ∃ w' rest', m = (k, w') :: rest') := by
  cases m with
  | nil => exact ⟨a, v, [], rfl, .inl rfl⟩
  | cons x rest =>
    obtain ⟨k, w⟩ := x
    by_cases h : a < k
    · exact ⟨a, v, (k, w) :: rest, by simp [Memory.write, h], .inl rfl⟩
    · by_cases h' : a = k
      · exact ⟨a, v, rest, by simp [Memory.write, h'], .inl rfl⟩
      · exact ⟨k, w, Memory.write rest a v, by simp [Memory.write, h, h'], .inr ⟨w, rest, rfl⟩⟩

/-- A write inside the size keeps the canonical form. -/
theorem Memory.write_wf {size : Nat} (m : Memory) (a : Nat) (v : Byte) (ha : a < size)
    (h : Memory.wf size m = true) : Memory.wf size (Memory.write m a v) = true := by
  induction m with
  | nil => simp [Memory.write, Memory.wf, ha]
  | cons x rest ih =>
    obtain ⟨k, w⟩ := x
    simp only [Memory.wf, Bool.and_eq_true, decide_eq_true_eq] at h
    obtain ⟨⟨hk, hnext⟩, hrest⟩ := h
    by_cases h1 : a < k
    · simp [Memory.write, h1, Memory.wf, ha, hk, hnext, hrest]
    · by_cases h2 : a = k
      · subst h2
        simp [Memory.write, Memory.wf, ha, hnext, hrest]
      · have hlt : k < a := by omega
        obtain ⟨k', w', rest', hw, hor⟩ := Memory.write_head rest a v
        have hk' : k < k' := by
          rcases hor with rfl | ⟨w'', rest'', rfl⟩
          · exact hlt
          · simpa using hnext
        have hwf := ih hrest
        rw [hw] at hwf
        simp [Memory.write, h1, h2, hw, Memory.wf, hk, hk', hwf] at *
        exact hwf

@[simp] theorem Memories.get_set_same (m : Memories) (id : MemId) (x : Memory) : (m.set id x).get id = x := by
  cases id <;> rfl

theorem Memories.get_set_other (m : Memories) {id id' : MemId} (x : Memory) (h : id' ≠ id) :
    (m.set id x).get id' = m.get id' := by
  cases id <;> cases id' <;> first | rfl | exact absurd rfl h

/-- The state's byte depends on the memories and the power-on counter only. -/
theorem State.byte_congr {s t : State} (hm : t.mem = s.mem) (hp : t.env.powerOns = s.env.powerOns) (id : MemId)
    (a : Nat) : t.byte id a = s.byte id a := by simp [State.byte, hm, hp]

@[simp] theorem State.byte_putByte_same (s : State) (id : MemId) (a : Nat) (v : Byte) :
    (s.putByte id a v).byte id a = v := by simp [State.byte, State.putByte, Memory.read_write_same]

theorem State.byte_putByte_other (s : State) (id id' : MemId) (a a' : Nat) (v : Byte) (h : id' ≠ id ∨ a' ≠ a) :
    (s.putByte id a v).byte id' a' = s.byte id' a' := by
  by_cases hid : id' = id
  · subst hid
    have ha : a' ≠ a := h.resolve_left (fun hn => hn rfl)
    simp [State.byte, State.putByte, Memory.read_write_other _ _ _ _ ha]
  · simp [State.byte, State.putByte, Memories.get_set_other _ _ hid]

/-- A direct write is a store of one byte and touches no other field. -/
theorem State.putByte_stores (s : State) (id : MemId) (a : Nat) (v : Byte) :
    StoresByte s (s.putByte id a v) id a v :=
  ⟨by simp, fun _ _ h => s.byte_putByte_other id _ a _ v h, by simp⟩

/-- A write inside the size keeps every memory in canonical form. -/
theorem State.putByte_wf (s : State) (id : MemId) (a : Nat) (v : Byte) (ha : a < memSize id)
    (h : ∀ i, Memory.wf (memSize i) (s.mem.get i) = true) (i : MemId) :
    Memory.wf (memSize i) ((s.putByte id a v).mem.get i) = true := by
  by_cases hi : i = id
  · subst hi
    simpa [State.putByte] using Memory.write_wf _ a v ha (h i)
  · simpa [State.putByte, Memories.get_set_other _ _ hi] using h i

end Sys2Proof.Machine
end

