-- ==== Sys2Proof/Laws/Blitter.lean ====
section
/-! SUPPORT. What a blitter step can do, said once. -/

namespace Sys2Proof.Machine

/-- What blitter steps may change: the framebuffers, the start strobe, and the blitter's own state (R53). -/
structure BlitEffect (s t : State) : Prop where
  storage : ∀ id a, id ≠ .fb → t.byte id a = s.byte id a
  zp : t.mem.zp = s.mem.zp
  stack : t.mem.stack = s.mem.stack
  ram : t.mem.ram = s.mem.ram
  aram : t.mem.aram = s.mem.aram
  vram : t.mem.vram = s.mem.vram
  cart : t.mem.cart = s.mem.cart
  regs : ∃ b, t.regs = { s.regs with startStrobe := b }
  pad1 : t.pad1 = s.pad1
  pad2 : t.pad2 = s.pad2
  orch : t.orch = s.orch
  lines : t.lines = s.lines
  audio : t.audio = s.audio
  env : t.env = s.env
  cfg : t.cfg = s.cfg

theorem blitStart_idle {s : State} (h : s.regs.startStrobe = false) : blitStart s = s := by simp [blitStart, h]

@[simp] theorem blitStart_mem (s : State) : (blitStart s).mem = s.mem := by unfold blitStart; split <;> rfl

@[simp] theorem blitStart_regs (s : State) :
    (blitStart s).regs = { s.regs with startStrobe := false } := by
  unfold blitStart
  split
  · rfl
  · rename_i h
    cases hs : s.regs
    simp_all

/-- A pixel is one stored byte of a framebuffer, or nothing (R243, R244). -/
theorem blitPixel_cases (s : State) :
    blitPixel s = s ∨
    ∃ dy dx c, dy < 128 ∧ dx < 128 ∧ blitPixel s = s.putByte .fb (fbCell (framebufferSel s.regs.banking) dy dx) c := by
  unfold blitPixel
  simp only
  split
  · rename_i h
    exact .inr ⟨_, _, _, h.2.1, h.1, rfl⟩
  · exact .inl rfl

@[simp] theorem blitPixel_blit (s : State) : (blitPixel s).blit = s.blit := by
  rcases blitPixel_cases s with h | ⟨_, _, _, _, _, h⟩ <;> (rw [h]; try rfl)

/-- A `Running` blitter's step is one of three: completion, an advance without a pixel, an advance with one (R232). -/
theorem blitWork_cases (s : State) :
    (blitDone (blitWrap s.regs.width s.blit) = true ∧
      blitWork s = { s with blit := blitComplete s.regs.dmaFlags (blitWrap s.regs.width s.blit) }) ∨
    (blitDone (blitWrap s.regs.width s.blit) = false ∧ dmaEnable s.regs.dmaFlags = false ∧
      blitWork s = { s with blit := blitAdvance s.regs.width (blitWrap s.regs.width s.blit) }) ∨
    (blitDone (blitWrap s.regs.width s.blit) = false ∧ dmaEnable s.regs.dmaFlags = true ∧
      blitWork s =
        { blitPixel { s with blit := blitWrap s.regs.width s.blit } with
          blit := blitAdvance s.regs.width (blitWrap s.regs.width s.blit) }) := by
  cases hd : blitDone (blitWrap s.regs.width s.blit)
  · cases he : dmaEnable s.regs.dmaFlags
    · exact .inr (.inl ⟨rfl, rfl, by simp [blitWork, hd, he]⟩)
    · refine .inr (.inr ⟨rfl, rfl, ?_⟩)
      simp only [blitWork, hd, he, if_true, Bool.false_eq_true, if_false, blitPixel_blit]
  · exact .inl ⟨rfl, by simp [blitWork, hd]⟩

theorem fbCell_lt (f : Bool) {y x : Nat} (hy : y < 128) (hx : x < 128) : fbCell f y x < memSize .fb := by
  cases f <;> simp [fbCell, memSize] <;> omega

theorem blitPixel_effect (s : State) :
    (∀ id a, id ≠ .fb → (blitPixel s).byte id a = s.byte id a) ∧ (blitPixel s).mem.cart = s.mem.cart ∧
    (blitPixel s).mem.zp = s.mem.zp ∧ (blitPixel s).mem.stack = s.mem.stack ∧ (blitPixel s).mem.ram = s.mem.ram ∧
    (blitPixel s).mem.aram = s.mem.aram ∧ (blitPixel s).mem.vram = s.mem.vram ∧
    blitPixel s = { s with mem := (blitPixel s).mem } := by
  rcases blitPixel_cases s with h | ⟨dy, dx, c, -, -, h⟩
  · rw [h]; exact ⟨fun _ _ _ => rfl, rfl, rfl, rfl, rfl, rfl, rfl, rfl⟩
  · rw [h]
    exact ⟨fun id a hid => s.byte_putByte_other _ _ _ _ _ (.inl hid), rfl, rfl, rfl, rfl, rfl, rfl, rfl⟩

theorem blitStep_effect (s : State) : BlitEffect s (blitStep s) := by
  have hs : BlitEffect s (blitStart s) := by
    refine ⟨fun id a _ => ?_, ?_, ?_, ?_, ?_, ?_, ?_, ⟨_, blitStart_regs s⟩, ?_, ?_, ?_, ?_, ?_, ?_, ?_⟩ <;>
      (try unfold blitStart) <;> (try split) <;> rfl
  unfold blitStep
  simp only
  cases (blitStart s).blit.bstate with
  | idle => exact hs
  | running =>
    simp only
    rcases blitWork_cases (blitStart s) with ⟨-, h⟩ | ⟨-, -, h⟩ | ⟨-, -, h⟩
    · rw [h]
      exact ⟨hs.storage, hs.zp, hs.stack, hs.ram, hs.aram, hs.vram, hs.cart, hs.regs, hs.pad1, hs.pad2, hs.orch,
        hs.lines, hs.audio, hs.env, hs.cfg⟩
    · rw [h]
      exact ⟨hs.storage, hs.zp, hs.stack, hs.ram, hs.aram, hs.vram, hs.cart, hs.regs, hs.pad1, hs.pad2, hs.orch,
        hs.lines, hs.audio, hs.env, hs.cfg⟩
    · rw [h]
      obtain ⟨p1, p2, p3, p4, p5, p6, p7, p8⟩ :=
        blitPixel_effect { blitStart s with blit := blitWrap (blitStart s).regs.width (blitStart s).blit }
      refine ⟨fun id a hid => ?_, p3.trans hs.zp, p4.trans hs.stack, p5.trans hs.ram, p6.trans hs.aram,
        p7.trans hs.vram, p2.trans hs.cart, ?_, ?_, ?_, ?_, ?_, ?_, ?_, ?_⟩
      · exact (p1 id a hid).trans (hs.storage id a hid)
      · exact ⟨false, (congrArg State.regs p8).trans (blitStart_regs s)⟩
      · exact (congrArg State.pad1 p8).trans hs.pad1
      · exact (congrArg State.pad2 p8).trans hs.pad2
      · exact (congrArg State.orch p8).trans hs.orch
      · exact (congrArg State.lines p8).trans hs.lines
      · exact (congrArg State.audio p8).trans hs.audio
      · exact (congrArg State.env p8).trans hs.env
      · exact (congrArg State.cfg p8).trans hs.cfg

theorem BlitEffect.refl (s : State) : BlitEffect s s :=
  ⟨fun _ _ _ => rfl, rfl, rfl, rfl, rfl, rfl, rfl, ⟨s.regs.startStrobe, rfl⟩, rfl, rfl, rfl, rfl, rfl, rfl, rfl⟩

theorem BlitEffect.trans {s t u : State} (h : BlitEffect s t) (k : BlitEffect t u) : BlitEffect s u := by
  obtain ⟨b, hb⟩ := h.regs
  obtain ⟨c, hc⟩ := k.regs
  exact ⟨fun id a hid => (k.storage id a hid).trans (h.storage id a hid), k.zp.trans h.zp, k.stack.trans h.stack,
    k.ram.trans h.ram, k.aram.trans h.aram, k.vram.trans h.vram, k.cart.trans h.cart, ⟨c, by rw [hc, hb]⟩,
    k.pad1.trans h.pad1, k.pad2.trans h.pad2, k.orch.trans h.orch, k.lines.trans h.lines, k.audio.trans h.audio,
    k.env.trans h.env, k.cfg.trans h.cfg⟩

theorem blitSteps_effect (n : Nat) (s : State) : BlitEffect s (blitSteps n s) := by
  induction n generalizing s with
  | zero => exact .refl s
  | succ n ih => exact (blitStep_effect s).trans (ih _)

/-- With `dma_enable` clear a blitter step writes nothing (R238). -/
theorem blitStep_dma_off {s : State} (h : dmaEnable s.regs.dmaFlags = false) : (blitStep s).mem = s.mem := by
  have hs : dmaEnable (blitStart s).regs.dmaFlags = false := by rw [blitStart_regs]; exact h
  unfold blitStep
  simp only
  cases (blitStart s).blit.bstate with
  | idle => exact blitStart_mem s
  | running =>
    simp only
    rcases blitWork_cases (blitStart s) with ⟨-, e⟩ | ⟨-, -, e⟩ | ⟨-, hd, -⟩
    · rw [e]; exact blitStart_mem s
    · rw [e]; exact blitStart_mem s
    · rw [hs] at hd; cases hd

theorem blitSteps_dma_off (n : Nat) {s : State} (h : dmaEnable s.regs.dmaFlags = false) :
    (blitSteps n s).mem = s.mem := by
  induction n generalizing s with
  | zero => rfl
  | succ n ih =>
    obtain ⟨b, hb⟩ := (blitStep_effect s).regs
    exact (ih (by rw [hb]; exact h)).trans (blitStep_dma_off h)

theorem blitUntilIdle_effect (n : Nat) (s : State) : BlitEffect s (blitUntilIdle n s) := by
  induction n generalizing s with
  | zero => exact .refl s
  | succ n ih =>
    unfold blitUntilIdle
    split
    · exact (blitStep_effect s).trans (ih _)
    · exact .refl s

/-- A step uses up the strobe, whether or not a blit starts (R233). -/
@[simp] theorem blitStep_strobe (s : State) : (blitStep s).regs.startStrobe = false := by
  have h : (blitStart s).regs.startStrobe = false := by rw [blitStart_regs]
  unfold blitStep
  simp only
  cases (blitStart s).blit.bstate with
  | idle => exact h
  | running =>
    simp only
    rcases blitWork_cases (blitStart s) with ⟨-, e⟩ | ⟨-, -, e⟩ | ⟨-, -, e⟩ <;> rw [e]
    · exact h
    · exact h
    · rcases blitPixel_cases { blitStart s with blit := blitWrap (blitStart s).regs.width (blitStart s).blit }
        with p | ⟨_, _, _, _, _, p⟩ <;> rw [p] <;> exact h

end Sys2Proof.Machine
end

