-- ==== Sys2Proof/Laws/Decode.lean ====
section
/-! SUPPORT. The region of an address, said once, and the small lemmas of the encodings. -/

namespace Sys2Proof

/-- The addresses of a region, as ranges of numbers (R162). -/
def regionBounds (a : Addr) : Region → Prop
  | .zp => a.toNat ≤ 0xFF
  | .stack => 0x100 ≤ a.toNat ∧ a.toNat ≤ 0x1FF
  | .ram => 0x200 ≤ a.toNat ∧ a.toNat ≤ 0x1FFF
  | .acprst => a.toNat = 0x2000
  | .acpnmi => a.toNat = 0x2001
  | .banking => a.toNat = 0x2005
  | .audioctl => a.toNat = 0x2006
  | .dmaflags => a.toNat = 0x2007
  | .pad1 => a.toNat = 0x2008
  | .pad2 => a.toNat = 0x2009
  | .via => 0x2800 ≤ a.toNat ∧ a.toNat ≤ 0x280F
  | .aram => 0x3000 ≤ a.toNat ∧ a.toNat ≤ 0x3FFF
  | .window => 0x4000 ≤ a.toNat ∧ a.toNat ≤ 0x7FFF
  | .cart => 0x8000 ≤ a.toNat
  | .unmapped =>
    (0x2002 ≤ a.toNat ∧ a.toNat ≤ 0x2004) ∨ (0x200A ≤ a.toNat ∧ a.toNat ≤ 0x27FF) ∨ (0x2810 ≤ a.toNat ∧ a.toNat ≤ 0x2FFF)

/-- Every address lies in the range of its region. -/
theorem region_bounds (a : Addr) : regionBounds a (region a) := by
  unfold region
  generalize hn : a.toNat = n
  have hlt : n < 65536 := hn ▸ a.isLt
  dsimp only
  by_cases h0 : n ≤ 0xFF
  · rw [if_pos h0]; simp only [regionBounds, hn]; omega
  rw [if_neg h0]
  by_cases h1 : n ≤ 0x1FF
  · rw [if_pos h1]; simp only [regionBounds, hn]; omega
  rw [if_neg h1]
  by_cases h2 : n ≤ 0x1FFF
  · rw [if_pos h2]; simp only [regionBounds, hn]; omega
  rw [if_neg h2]
  by_cases h3 : n = 0x2000
  · rw [if_pos h3]; simp only [regionBounds, hn]; omega
  rw [if_neg h3]
  by_cases h4 : n = 0x2001
  · rw [if_pos h4]; simp only [regionBounds, hn]; omega
  rw [if_neg h4]
  by_cases h5 : n = 0x2005
  · rw [if_pos h5]; simp only [regionBounds, hn]; omega
  rw [if_neg h5]
  by_cases h6 : n = 0x2006
  · rw [if_pos h6]; simp only [regionBounds, hn]; omega
  rw [if_neg h6]
  by_cases h7 : n = 0x2007
  · rw [if_pos h7]; simp only [regionBounds, hn]; omega
  rw [if_neg h7]
  by_cases h8 : n = 0x2008
  · rw [if_pos h8]; simp only [regionBounds, hn]; omega
  rw [if_neg h8]
  by_cases h9 : n = 0x2009
  · rw [if_pos h9]; simp only [regionBounds, hn]; omega
  rw [if_neg h9]
  by_cases h10 : 0x2800 ≤ n ∧ n ≤ 0x280F
  · rw [if_pos h10]; simp only [regionBounds, hn]; omega
  rw [if_neg h10]
  by_cases h11 : 0x3000 ≤ n ∧ n ≤ 0x3FFF
  · rw [if_pos h11]; simp only [regionBounds, hn]; omega
  rw [if_neg h11]
  by_cases h12 : 0x4000 ≤ n ∧ n ≤ 0x7FFF
  · rw [if_pos h12]; simp only [regionBounds, hn]; omega
  rw [if_neg h12]
  by_cases h13 : 0x8000 ≤ n
  · rw [if_pos h13]; simp only [regionBounds, hn]; omega
  rw [if_neg h13]
  simp only [regionBounds, hn]; omega

/-- The ranges of two regions have no address in common. -/
theorem regionBounds_unique {a : Addr} {r r' : Region} (h : regionBounds a r) (h' : regionBounds a r') : r = r' := by
  cases r <;> cases r' <;> first | rfl | (simp only [regionBounds] at h h'; omega)

/-- An address in the range of a region has that region. -/
theorem region_eq {a : Addr} {r : Region} (h : regionBounds a r) : region a = r :=
  regionBounds_unique (region_bounds a) h

theorem unmappedAddr_iff (a : Addr) : unmappedAddr a = true ↔ regionBounds a .unmapped := by
  simp only [unmappedAddr, regionBounds, Bool.or_eq_true, Bool.and_eq_true, decide_eq_true_eq, or_assoc]

theorem ramAddr_iff (a : BitVec 13) : ramAddr a = true ↔ 0x200 ≤ a.toNat := by simp [ramAddr]

theorem toNat_append_field {n k : Nat} (x : BitVec n) (y : BitVec k) :
    (x ++ y).toNat = x.toNat * 2 ^ k + y.toNat := by
  rw [BitVec.toNat_append, Nat.shiftLeft_eq, Nat.mul_comm, ← Nat.two_pow_add_eq_or_of_lt y.isLt, Nat.mul_comm]

theorem zpAddr_toNat (o : BitVec 8) : (zpAddr o).toNat = 0 + o.toNat := by
  simp only [zpAddr, toNat_append_field]; norm_num

theorem stackAddr_toNat (o : BitVec 8) : (stackAddr o).toNat = 0x100 + o.toNat := by
  simp only [stackAddr, toNat_append_field]; norm_num

theorem ramBusAddr_toNat (a : BitVec 13) : (ramBusAddr a).toNat = 0 + a.toNat := by
  simp only [ramBusAddr, toNat_append_field]; norm_num

theorem viaAddr_toNat (r : BitVec 4) : (viaAddr r).toNat = 0x2800 + r.toNat := by
  simp only [viaAddr, toNat_append_field]; norm_num

theorem aramAddr_toNat (o : BitVec 12) : (aramAddr o).toNat = 0x3000 + o.toNat := by
  simp only [aramAddr, toNat_append_field]; norm_num

theorem winAddr_toNat (o : BitVec 14) : (winAddr o).toNat = 0x4000 + o.toNat := by
  simp only [winAddr, toNat_append_field]; norm_num

theorem cartAddr_toNat (o : BitVec 15) : (cartAddr o).toNat = 0x8000 + o.toNat := by
  simp only [cartAddr, toNat_append_field]; norm_num

theorem brAddr_toNat (k : BitVec 11) (i : BitVec 3) : (brAddr k i).toNat = 0x4000 + 8 * k.toNat + i.toNat := by
  have hk := k.isLt
  have hi := i.isLt
  simp only [brAddr]
  rw [toNat_append_field, toNat_append_field]
  norm_num
  omega

@[simp] theorem region_zpAddr (o : BitVec 8) : region (zpAddr o) = .zp := by
  have h := o.isLt
  exact region_eq (by simp only [regionBounds, zpAddr_toNat]; omega)

@[simp] theorem region_stackAddr (o : BitVec 8) : region (stackAddr o) = .stack := by
  have h := o.isLt
  exact region_eq (by simp only [regionBounds, stackAddr_toNat]; omega)

@[simp] theorem region_viaAddr (r : BitVec 4) : region (viaAddr r) = .via := by
  have h := r.isLt
  exact region_eq (by simp only [regionBounds, viaAddr_toNat]; omega)

@[simp] theorem region_aramAddr (o : BitVec 12) : region (aramAddr o) = .aram := by
  have h := o.isLt
  exact region_eq (by simp only [regionBounds, aramAddr_toNat]; omega)

@[simp] theorem region_winAddr (o : BitVec 14) : region (winAddr o) = .window := by
  have h := o.isLt
  exact region_eq (by simp only [regionBounds, winAddr_toNat]; omega)

@[simp] theorem region_cartAddr (o : BitVec 15) : region (cartAddr o) = .cart := by
  have h := o.isLt
  exact region_eq (by simp only [regionBounds, cartAddr_toNat]; omega)

theorem region_ramBusAddr (a : BitVec 13) (h : ramAddr a = true) : region (ramBusAddr a) = .ram := by
  have h' := a.isLt
  rw [ramAddr_iff] at h
  exact region_eq (by simp only [regionBounds, ramBusAddr_toNat]; omega)

@[simp] theorem region_brAddr (k : BitVec 11) (i : BitVec 3) : region (brAddr k i) = .window := by
  have hk := k.isLt
  have hi := i.isLt
  exact region_eq (by simp only [regionBounds, brAddr_toNat]; omega)

theorem region_unmapped {a : Addr} (h : unmappedAddr a = true) : region a = .unmapped :=
  region_eq ((unmappedAddr_iff a).1 h)

/-- The BUS word of a transaction: direction, address, datum (R120). -/
def busWord (rw : Bool) (addr : Addr) (v : Byte) : BitVec 25 := ((if rw then 1#1 else 0#1) ++ addr) ++ v

theorem busRead_eq (addr : Addr) : busRead addr = .bus (busWord false addr 0) := rfl

theorem busWrite_eq (addr : Addr) (v : Byte) : busWrite addr v = .bus (busWord true addr v) := rfl

theorem busWord_toNat (rw : Bool) (addr : Addr) (v : Byte) :
    (busWord rw addr v).toNat = (rw.toNat * 2 ^ 16 + addr.toNat) * 2 ^ 8 + v.toNat := by
  have hb : (if rw then 1#1 else 0#1).toNat = rw.toNat := by cases rw <;> rfl
  have h2 := toNat_append_field (if rw then 1#1 else 0#1) addr
  exact (toNat_append_field ((if rw then 1#1 else 0#1) ++ addr) v).trans (by rw [h2, hb])

@[simp] theorem busRw_busWord (rw : Bool) (addr : Addr) (v : Byte) : busRw (busWord rw addr v) = rw := by
  have ha := addr.isLt
  have hv := v.isLt
  have h : (busWord rw addr v).toNat / 2 ^ 24 = rw.toNat := by rw [busWord_toNat]; omega
  unfold busRw
  rw [BitVec.getLsbD, Nat.testBit_eq_decide_div_mod_eq, h]
  cases rw <;> rfl

@[simp] theorem busAddr_busWord (rw : Bool) (addr : Addr) (v : Byte) : busAddr (busWord rw addr v) = addr := by
  have ha := addr.isLt
  have hv := v.isLt
  apply BitVec.eq_of_toNat_eq
  rw [busAddr, BitVec.extractLsb'_toNat, busWord_toNat, Nat.shiftRight_eq_div_pow]
  omega

@[simp] theorem busData_busWord (rw : Bool) (addr : Addr) (v : Byte) : busData (busWord rw addr v) = v := by
  have hv := v.isLt
  apply BitVec.eq_of_toNat_eq
  rw [busData, BitVec.extractLsb'_toNat, busWord_toNat, Nat.shiftRight_eq_div_pow]
  omega

/-- The 8-byte field gives back the number it was written with. -/
theorem natOfBytes_bytesOfNat (k n : Nat) (h : n < 256 ^ k) : natOfBytes (bytesOfNat k n) = n := by
  induction k generalizing n with
  | zero => simp at h; simp [bytesOfNat, natOfBytes, h]
  | succ k ih =>
    have h' : n / 256 < 256 ^ k := by
      rw [Nat.div_lt_iff_lt_mul (by norm_num)]; rwa [pow_succ] at h
    simp [bytesOfNat, natOfBytes, ih _ h', BitVec.toNat_ofNat]
    omega

@[simp] theorem bytesOfNat_length (k n : Nat) : (bytesOfNat k n).length = k := by
  induction k generalizing n with
  | zero => rfl
  | succ k ih => simp [bytesOfNat, ih]

end Sys2Proof
end

