-- ==== Sys2Proof/Laws/Bus.lean ====
section
/-! SUPPORT. What a bus transaction can do, said once: for a read, for a write and for the access of either kind. -/

namespace Sys2Proof.Machine

/-- A read of a pad changes the two selects and nothing else (R177). -/
theorem padSelects_effect (s : State) (p : PadPort) :
    (padSelects s p).mem = s.mem ∧ (padSelects s p).regs = s.regs ∧ (padSelects s p).blit = s.blit ∧
    (padSelects s p).orch = s.orch ∧ (padSelects s p).lines = s.lines ∧ (padSelects s p).audio = s.audio ∧
    (padSelects s p).env = s.env ∧ (padSelects s p).cfg = s.cfg ∧
    (padSelects s p).pad1.pressed = s.pad1.pressed ∧ (padSelects s p).pad2.pressed = s.pad2.pressed := by
  unfold padSelects
  cases s.cfg.padCoupling <;> cases p <;> exact ⟨rfl, rfl, rfl, rfl, rfl, rfl, rfl, rfl, rfl, rfl⟩

/-- What a bus read may change: the selects of the pads, the cycle count and the outputs (R160, R189). -/
structure ReadEffect (s t : State) (addr : Addr) : Prop where
  mem : t.mem = s.mem
  regs : t.regs = s.regs
  blit : t.blit = s.blit
  orch : t.orch = { s.orch with cycleCounter := s.orch.cycleCounter + 1 }
  lines : t.lines = s.lines
  audio : t.audio = s.audio
  cfg : t.cfg = s.cfg
  env : ∃ v d, t.env = { s.env with output := .busRead addr v :: s.env.output, diags := d }
  pressed1 : t.pad1.pressed = s.pad1.pressed
  pressed2 : t.pad2.pressed = s.pad2.pressed

theorem answerRead_effect (s : State) (addr : Addr) (v : Byte) : ReadEffect s (s.answerRead addr v) addr :=
  ⟨rfl, rfl, rfl, rfl, rfl, rfl, rfl, ⟨v, _, rfl⟩, rfl, rfl⟩

theorem readNothing_effect (s : State) (addr : Addr) (d : Diag) : ReadEffect s (s.readNothing addr d) addr :=
  ⟨rfl, rfl, rfl, rfl, rfl, rfl, rfl, ⟨0, _, rfl⟩, rfl, rfl⟩

theorem padRead_effect (p : PadPort) (addr : Addr) (s : State) : ReadEffect s (padRead p addr s) addr := by
  obtain ⟨h1, h2, h3, h4, h5, h6, h7, h8, h9, h10⟩ := padSelects_effect s p
  exact ⟨h1, h2, h3, by simp only [padRead, State.answerRead, State.countCycle, State.emit, h4], h5, h6, h8,
    ⟨padEncode s.cfg.buttons (s.pad p).pressed (s.pad p).portSelect, s.env.diags, by
      simp only [padRead, State.answerRead, State.countCycle, State.emit, h7]⟩, h9, h10⟩

/-- The telling record holds only buttons of the set (D21). -/
theorem tellingRecord_in_set (n k : Nat) (h : n ≤ k) : (tellingRecord n).getLsbD k = false := by
  rcases Nat.lt_or_ge k 256 with hk | hk
  · have hn : min n 256 = n := by omega
    simp only [tellingRecord, buttonMask, hn, BitVec.getLsbD_and, BitVec.getLsbD_ofNat, Nat.testBit_two_pow_sub_one]
    simp [Nat.not_lt.2 h]
  · exact BitVec.getLsbD_of_ge _ _ hk

/-- On the telling record the two halves of a pad's byte differ (D21). -/
theorem padEncode_halves_differ (n : Nat) :
    padEncode n (tellingRecord n) false ≠ padEncode n (tellingRecord n) true := by
  unfold padEncode
  by_cases h : Config.padEncode (tellingRecord n) true = Config.padEncode (tellingRecord n) false
  · simp [h]
  · simpa [h] using fun k => h k.symm

/-- Everywhere else a pad's byte is the free function's (R128). -/
theorem padEncode_free {n : Nat} {pressed : BitVec 256} (h : pressed ≠ tellingRecord n) (half : Bool) :
    padEncode n pressed half = Config.padEncode pressed half := by simp [padEncode, h]

/-- What a bus write may change: storage, the control and blitter registers, the pending interrupt, two event lines,
the cycle count and the diagnostics (R161, R189). -/
structure WriteEffect (s t : State) : Prop where
  cart : t.mem.cart = s.mem.cart
  pad1 : t.pad1 = s.pad1
  pad2 : t.pad2 = s.pad2
  orch : t.orch = { s.orch with cycleCounter := s.orch.cycleCounter + 1 }
  audio : t.audio = s.audio
  cfg : t.cfg = s.cfg
  env : ∃ d, t.env = { s.env with diags := d }
  blit : t.blit = s.blit ∨ t.blit = { s.blit with irqPending := false }
  lines : ∃ n r, t.lines = { s.lines with acpNmi := n, acpReset := r }

theorem writeCell_effect (s : State) (id : MemId) (a : Nat) (v : Byte) : WriteEffect s (s.writeCell id a v) :=
  ⟨s.putByte_cart id a v, rfl, rfl, rfl, rfl, rfl, ⟨_, rfl⟩, .inl rfl, ⟨_, _, rfl⟩⟩

theorem writeNothing_effect (s : State) (d : Diag) : WriteEffect s (s.writeNothing d) :=
  ⟨rfl, rfl, rfl, rfl, rfl, rfl, ⟨_, rfl⟩, .inl rfl, ⟨_, _, rfl⟩⟩

theorem windowRead_effect (o : BitVec 14) (s : State) : ReadEffect s (windowRead o s) (winAddr o) := by
  unfold windowRead
  cases s.windowMode <;> first | exact readNothing_effect .. | exact answerRead_effect ..

theorem windowWrite_effect (o : BitVec 14) (v : Byte) (s : State) : WriteEffect s (windowWrite o v s) := by
  unfold windowWrite
  cases s.windowMode
  · simp only
    unfold writeBr
    split <;>
      first
      | exact ⟨rfl, rfl, rfl, rfl, rfl, rfl, ⟨_, rfl⟩, .inl rfl, ⟨_, _, rfl⟩⟩
      | exact ⟨rfl, rfl, rfl, rfl, rfl, rfl, ⟨_, rfl⟩, .inr rfl, ⟨_, _, rfl⟩⟩
  · exact writeCell_effect ..
  · exact writeCell_effect ..

theorem memWrite_effect (addr : Addr) (v : Byte) (s : State) : WriteEffect s (memWrite addr v s) := by
  unfold memWrite
  cases region addr <;>
    first
    | exact writeCell_effect ..
    | exact writeNothing_effect ..
    | exact windowWrite_effect ..
    | exact ⟨rfl, rfl, rfl, rfl, rfl, rfl, ⟨_, rfl⟩, .inl rfl, ⟨_, _, rfl⟩⟩

/-- What a bus access of either kind leaves alone: the cartridge, the audio pipeline, the configuration, the waiting
inputs, and every counter but the cycle count (R50, R53, R189). -/
structure AccessEffect (s t : State) : Prop where
  cart : t.mem.cart = s.mem.cart
  orch : t.orch = { s.orch with cycleCounter := s.orch.cycleCounter + 1 }
  audio : t.audio = s.audio
  cfg : t.cfg = s.cfg
  env : ∃ d o, t.env = { s.env with diags := d, output := o }

theorem memRead_access (c : Cart) (addr : Addr) (s : State) : AccessEffect s (memRead c addr s) := by
  have of_read : ∀ {t a}, ReadEffect s t a → AccessEffect s t := fun h =>
    ⟨by rw [h.mem], h.orch, h.audio, h.cfg, by obtain ⟨v, d, he⟩ := h.env; exact ⟨d, _, he⟩⟩
  unfold memRead
  cases region addr <;>
    first
    | exact of_read (answerRead_effect ..)
    | exact of_read (readNothing_effect ..)
    | exact of_read (padRead_effect ..)
    | exact of_read (windowRead_effect ..)

/-- A bus read changes no register and no byte of storage (R87). -/
theorem memRead_regs (c : Cart) (addr : Addr) (s : State) : (memRead c addr s).regs = s.regs := by
  unfold memRead
  cases region addr <;>
    first
    | exact (answerRead_effect ..).regs
    | exact (readNothing_effect ..).regs
    | exact (padRead_effect ..).regs
    | exact (windowRead_effect ..).regs

theorem memRead_byte (c : Cart) (addr : Addr) (s : State) (id : MemId) (a : Nat) :
    (memRead c addr s).byte id a = s.byte id a := by
  have of_read : ∀ {t b}, ReadEffect s t b → t.byte id a = s.byte id a := fun h => by
    obtain ⟨v, d, he⟩ := h.env
    simp only [State.byte, h.mem, he]
  unfold memRead
  cases region addr <;>
    first
    | exact of_read (answerRead_effect ..)
    | exact of_read (readNothing_effect ..)
    | exact of_read (padRead_effect ..)
    | exact of_read (windowRead_effect ..)

/-- The region of `DMA_FLAGS` is its one address (R162). -/
theorem region_dmaflags (addr : Addr) : region addr = .dmaflags ↔ addr = 0x2007 := by
  constructor
  · intro h
    have hb := region_bounds addr
    rw [h] at hb
    exact BitVec.eq_of_toNat_eq hb
  · rintro rfl
    decide

/-- A bus write leaves `DMA_FLAGS` alone but for the one to its address (R173). -/
theorem memWrite_flags (addr : Addr) (v : Byte) (s : State) :
    (memWrite addr v s).regs.dmaFlags = if addr = 0x2007 then v else s.regs.dmaFlags := by
  by_cases h : addr = 0x2007
  · rw [if_pos h, h]; rfl
  · rw [if_neg h]
    have hr : region addr ≠ .dmaflags := fun k => h ((region_dmaflags addr).1 k)
    unfold memWrite
    cases hc : region addr <;> first | rfl | exact absurd hc hr | skip
    simp only [windowWrite]
    cases s.windowMode <;> first | rfl | (simp only [writeBr]; split <;> rfl)

theorem writeCell_framebuffer (s : State) {id : MemId} (h : id ≠ .fb) (k : Nat) (v : Byte) (a : Nat) :
    (s.writeCell id k v).byte .fb a = s.byte .fb a := s.byte_putByte_other _ _ _ _ _ (.inl h.symm)

/-- A bus write that is none through the window in framebuffer mode leaves every byte of the framebuffers as it was
(R213). -/
theorem memWrite_framebuffer (addr : Addr) (v : Byte) (s : State)
    (h : region addr = .window → s.windowMode ≠ .framebuffer) (a : Nat) :
    (memWrite addr v s).byte .fb a = s.byte .fb a := by
  unfold memWrite
  cases hc : region addr <;>
    first
    | rfl
    | exact writeCell_framebuffer s (by decide) ..
    | skip
  have hm := h hc
  simp only [windowWrite]
  cases hw : s.windowMode with
  | registers => simp only [writeBr]; split <;> rfl
  | framebuffer => exact absurd hw hm
  | vram => exact writeCell_framebuffer s (by decide) ..

theorem busAccess_effect (c : Cart) (op : BusOp) (s : State) : AccessEffect s (busAccess c op s) := by
  cases op with
  | read addr => exact memRead_access c addr s
  | write addr v =>
    have h := memWrite_effect addr v s
    obtain ⟨d, he⟩ := h.env
    exact ⟨h.cart, h.orch, h.audio, h.cfg, ⟨d, _, he⟩⟩

/-- A list of accesses leaves the same alone and counts one cycle for each (R189). -/
theorem busAccesses_effect (c : Cart) (ops : List BusOp) (s : State) :
    let t := ops.foldl (fun t op => busAccess c op t) s
    t.mem.cart = s.mem.cart ∧ t.orch = { s.orch with cycleCounter := s.orch.cycleCounter + ops.length } ∧
    t.audio = s.audio ∧ t.cfg = s.cfg ∧ ∃ d o, t.env = { s.env with diags := d, output := o } := by
  induction ops generalizing s with
  | nil => exact ⟨rfl, rfl, rfl, rfl, ⟨_, _, rfl⟩⟩
  | cons op rest ih =>
    obtain ⟨h1, h2, h3, h4, d, o, h5⟩ := ih (busAccess c op s)
    have h := busAccess_effect c op s
    obtain ⟨d', o', he⟩ := h.env
    refine ⟨h1.trans h.cart, ?_, h3.trans h.audio, h4.trans h.cfg, d, o, ?_⟩
    · simp only [List.foldl_cons, List.length_cons, h2, h.orch]
      congr 1
      omega
    · simp only [List.foldl_cons, h5, he]

end Sys2Proof.Machine
end

