-- ==== Sys2Proof/Laws/Orchestrator.lean ====
section
/-! SUPPORT. What the orchestrator's operations can do, said once, and why its loops end before their bounds. -/

namespace Sys2Proof.Machine

/-- What the ACP and its sub-loop may change: audio RAM, the ACP's counters and lines, and the audio pipeline (R53). -/
structure AcpEffect (s t : State) : Prop where
  storage : ∀ id, id ≠ .aram → t.mem.get id = s.mem.get id
  cart : t.mem.cart = s.mem.cart
  regs : t.regs = s.regs
  blit : t.blit = s.blit
  pad1 : t.pad1 = s.pad1
  pad2 : t.pad2 = s.pad2
  cycles : t.orch.cycleCounter = s.orch.cycleCounter
  lastTick : t.orch.lastTick = s.orch.lastTick
  remaining : t.orch.remainingCycles = s.orch.remainingCycles
  vblank : t.orch.vblankCountdown = s.orch.vblankCountdown
  cpuIrq : t.lines.cpuIrq = s.lines.cpuIrq
  cpuNmi : t.lines.cpuNmi = s.lines.cpuNmi
  cpuReset : t.lines.cpuReset = s.lines.cpuReset
  cfg : t.cfg = s.cfg
  pending : t.env.pending = s.env.pending
  cpuIn : t.env.cpuIn = s.env.cpuIn
  cpuFree : t.env.cpuFree = s.env.cpuFree
  powerOns : t.env.powerOns = s.env.powerOns

theorem AcpEffect.refl (s : State) : AcpEffect s s :=
  ⟨fun _ _ => rfl, rfl, rfl, rfl, rfl, rfl, rfl, rfl, rfl, rfl, rfl, rfl, rfl, rfl, rfl, rfl, rfl, rfl⟩

theorem AcpEffect.trans {s t u : State} (h : AcpEffect s t) (k : AcpEffect t u) : AcpEffect s u :=
  ⟨fun id hid => (k.storage id hid).trans (h.storage id hid), k.cart.trans h.cart, k.regs.trans h.regs,
    k.blit.trans h.blit, k.pad1.trans h.pad1, k.pad2.trans h.pad2, k.cycles.trans h.cycles,
    k.lastTick.trans h.lastTick, k.remaining.trans h.remaining, k.vblank.trans h.vblank, k.cpuIrq.trans h.cpuIrq,
    k.cpuNmi.trans h.cpuNmi, k.cpuReset.trans h.cpuReset, k.cfg.trans h.cfg, k.pending.trans h.pending,
    k.cpuIn.trans h.cpuIn, k.cpuFree.trans h.cpuFree, k.powerOns.trans h.powerOns⟩

theorem AudioEffect.toAcp {s t : State} (h : AudioEffect s t) : AcpEffect s t := by
  obtain ⟨p, d, o, he⟩ := h.env
  exact ⟨fun _ _ => by rw [h.mem], by rw [h.mem], h.regs, h.blit, h.pad1, h.pad2, by rw [h.orch], by rw [h.orch],
    by rw [h.orch], by rw [h.orch], by rw [h.lines], by rw [h.lines], by rw [h.lines], h.cfg, by rw [he], by rw [he],
    by rw [he], by rw [he]⟩

/-- An ACP write is a stored byte of audio RAM, or nothing, and one ACP cycle (R293). -/
theorem acpWrite_cases (a : Addr) (v : Byte) (s : State) :
    (∃ o : BitVec 12, acpDecode s.cfg.acpDecode a = some o ∧
      acpWrite a v s = (s.putByte .aram o.toNat v).countAcpCycle) ∨
    (acpDecode s.cfg.acpDecode a = none ∧ acpWrite a v s = s.countAcpCycle) := by
  unfold acpWrite
  cases acpDecode s.cfg.acpDecode a with
  | some o => exact .inl ⟨o, rfl, rfl⟩
  | none => exact .inr ⟨rfl, rfl⟩

theorem acpAccess_effect (op : BusOp) (s : State) :
    AcpEffect s (acpAccess op s) ∧ (acpAccess op s).audio = s.audio ∧
    (acpAccess op s).orch = { s.orch with acpCycleCounter := s.orch.acpCycleCounter + 1 } := by
  cases op with
  | read a =>
    exact ⟨⟨fun _ _ => rfl, rfl, rfl, rfl, rfl, rfl, rfl, rfl, rfl, rfl, rfl, rfl, rfl, rfl, rfl, rfl, rfl, rfl⟩,
      rfl, rfl⟩
  | write a v =>
    rcases acpWrite_cases a v s with ⟨o, -, e⟩ | ⟨-, e⟩
    · simp only [acpAccess, e]
      refine ⟨⟨fun id hid => ?_, rfl, rfl, rfl, rfl, rfl, rfl, rfl, rfl, rfl, rfl, rfl, rfl, rfl, rfl, rfl, rfl, rfl⟩,
        rfl, rfl⟩
      exact Memories.get_set_other _ _ hid
    · simp only [acpAccess, e]
      exact ⟨⟨fun _ _ => rfl, rfl, rfl, rfl, rfl, rfl, rfl, rfl, rfl, rfl, rfl, rfl, rfl, rfl, rfl, rfl, rfl, rfl⟩,
        rfl, rfl⟩

/-- A list of ACP accesses counts one ACP cycle for each (R293). -/
theorem acpAccesses_effect (ops : List BusOp) (s : State) :
    let t := ops.foldl (fun t op => acpAccess op t) s
    AcpEffect s t ∧ t.audio = s.audio ∧
    t.orch = { s.orch with acpCycleCounter := s.orch.acpCycleCounter + ops.length } := by
  induction ops generalizing s with
  | nil => exact ⟨.refl s, rfl, rfl⟩
  | cons op rest ih =>
    obtain ⟨h1, h2, h3⟩ := acpAccess_effect op s
    obtain ⟨k1, k2, k3⟩ := ih (acpAccess op s)
    refine ⟨h1.trans k1, k2.trans h2, ?_⟩
    simp only [List.foldl_cons, List.length_cons, k3, h3]
    congr 1
    omega

/-- The answer of an input is one that it lists for the sampled lines, or its plain step (R8). -/
theorem cpuAnswer_cases (x : CpuInput) (l : CpuSample) :
    (l, cpuAnswer x l) ∈ x.answers ∨ (∀ p ∈ x.answers, p.1 ≠ l) ∧ cpuAnswer x l = x.plain := by
  unfold cpuAnswer
  cases h : x.answers.find? fun p => p.1 = l with
  | none => exact .inr ⟨fun p hp => by simpa using List.find?_eq_none.1 h p hp, rfl⟩
  | some p =>
    have hl : p.1 = l := by simpa using List.find?_some h
    exact .inl (hl ▸ List.mem_of_find?_eq_some h)

/-- The answer of an input is one that it lists for the sampled events, or its plain step (R8). -/
theorem acpAnswer_cases (x : AcpInput) (l : AcpSample) :
    (l, acpAnswer x l) ∈ x.answers ∨ (∀ p ∈ x.answers, p.1 ≠ l) ∧ acpAnswer x l = x.plain := by
  unfold acpAnswer
  cases h : x.answers.find? fun p => p.1 = l with
  | none => exact .inr ⟨fun p hp => by simpa using List.find?_eq_none.1 h p hp, rfl⟩
  | some p =>
    have hl : p.1 = l := by simpa using List.find?_some h
    exact .inl (hl ▸ List.mem_of_find?_eq_some h)

/-- A conforming CPU makes only transactions of the given step, in their order (R8). -/
theorem ownedOps_sublist (flags : Byte) (owned : Bool) (ops : List BusOp) : (ownedOps flags owned ops).Sublist ops := by
  induction ops generalizing flags owned with
  | nil => exact .slnil
  | cons op rest ih =>
    unfold ownedOps
    split
    · exact (ih ..).cons op
    · exact (ih ..).cons_cons op

/-- A conforming CPU leaves out only transactions that set `dma_enable` (log entry 24). -/
theorem ownedOps_filter (flags : Byte) (owned : Bool) (ops : List BusOp) :
    (ownedOps flags owned ops).filter (fun op => !setsDmaEnable op) = ops.filter fun op => !setsDmaEnable op := by
  induction ops generalizing flags owned with
  | nil => rfl
  | cons op rest ih =>
    unfold ownedOps
    split
    · rename_i h
      simp_all
    · simp only [List.filter_cons, ih]

/-- A conforming step is the given one, or starts as it and leaves transactions out of its rest (R218, log entry 24). -/
theorem cpuConform_cases (s : State) (st : CpuStep) :
    (s.cfg.cpuContract = .anySequence ∧ cpuConform s st = st) ∨
    (s.cfg.cpuContract = .oneOwner ∧ (cpuConform s st).first = st.first ∧
      (cpuConform s st).rest =
        ownedOps (flagsAfter st.first s.regs.dmaFlags) (writesFramebuffer st.first s.regs.dmaFlags) st.rest) := by
  unfold cpuConform
  split
  · exact .inl ⟨‹_›, rfl⟩
  · exact .inr ⟨‹_›, rfl, rfl⟩

/-- A bus access leaves `DMA_FLAGS` as `flagsAfter` says (R173). -/
theorem busAccess_flags (c : Cart) (op : BusOp) (s : State) :
    (busAccess c op s).regs.dmaFlags = flagsAfter op s.regs.dmaFlags := by
  cases op with
  | read addr => exact congrArg Registers.dmaFlags (memRead_regs c addr s)
  | write addr v => exact memWrite_flags addr v s

/-- A bus access that does not write the framebuffer leaves every byte of it as it was (R213). -/
theorem busAccess_framebuffer (c : Cart) (op : BusOp) (s : State) (h : writesFramebuffer op s.regs.dmaFlags = false)
    (a : Nat) : (busAccess c op s).byte .fb a = s.byte .fb a := by
  cases op with
  | read addr => exact memRead_byte c addr s .fb a
  | write addr v =>
    refine memWrite_framebuffer addr v s (fun hr hm => ?_) a
    simp only [State.windowMode] at hm
    simp [writesFramebuffer, hr, hm] at h

/-- While `dma_enable` is clear a transaction that does not set it leaves it clear (R173). -/
theorem flagsAfter_clear {op : BusOp} {flags : Byte} (h : setsDmaEnable op = false) (hf : dmaEnable flags = false) :
    dmaEnable (flagsAfter op flags) = false := by
  cases op with
  | read addr => exact hf
  | write addr v =>
    simp only [setsDmaEnable, flagsAfter] at h ⊢
    split <;> simp_all

/-- A transaction that writes the framebuffer finds `dma_enable` clear, and leaves it clear (R200). -/
theorem writesFramebuffer_clear {op : BusOp} {flags : Byte} (h : writesFramebuffer op flags = true) :
    dmaEnable (flagsAfter op flags) = false := by
  cases op with
  | read addr => cases h
  | write addr v =>
    simp only [writesFramebuffer, Bool.and_eq_true, decide_eq_true_eq] at h
    have ha : addr ≠ 0x2007 := fun e => by rw [e] at h; exact absurd h.1 (by decide)
    have hm : dmaEnable flags = false := by
      cases hd : dmaEnable flags
      · rfl
      · simp [windowModeOf, hd] at h
    simp only [flagsAfter, if_neg ha, hm]

/-- No transaction sets `dma_enable` once the framebuffer has been written. `owned` says that it has been before. -/
def KeepsOwner : Byte → Bool → List BusOp → Prop
  | _, _, [] => True
  | flags, owned, op :: ops =>
    (owned = true → setsDmaEnable op = false) ∧
    KeepsOwner (flagsAfter op flags) (owned || writesFramebuffer op flags) ops

theorem ownedOps_keepsOwner (flags : Byte) (owned : Bool) (ops : List BusOp) :
    KeepsOwner flags owned (ownedOps flags owned ops) := by
  induction ops generalizing flags owned with
  | nil => exact trivial
  | cons op rest ih =>
    unfold ownedOps
    split
    · exact ih ..
    · rename_i h
      exact ⟨fun ho => by simpa [ho] using h, ih ..⟩

theorem keepsOwner_of_none_sets (flags : Byte) (owned : Bool) (ops : List BusOp)
    (h : ∀ op ∈ ops, setsDmaEnable op = false) : KeepsOwner flags owned ops := by
  induction ops generalizing flags owned with
  | nil => exact trivial
  | cons op rest ih => exact ⟨fun _ => h op (by simp), ih _ _ fun p hp => h p (by simp [hp])⟩

/-- After transactions that keep the owner the framebuffer is as it was, or `dma_enable` is clear (R218). -/
theorem busAccesses_one_owner (c : Cart) (ops : List BusOp) (s : State) (owned : Bool)
    (hk : KeepsOwner s.regs.dmaFlags owned ops) (ho : owned = true → dmaEnable s.regs.dmaFlags = false) :
    let t := ops.foldl (fun t op => busAccess c op t) s
    dmaEnable t.regs.dmaFlags = false ∨ owned = false ∧ ∀ a, t.byte .fb a = s.byte .fb a := by
  induction ops generalizing s owned with
  | nil =>
    cases owned
    · exact .inr ⟨rfl, fun _ => rfl⟩
    · exact .inl (ho rfl)
  | cons op rest ih =>
    obtain ⟨h1, h2⟩ := hk
    have hf := busAccess_flags c op s
    rw [← hf] at h2
    have ho' : (owned || writesFramebuffer op s.regs.dmaFlags) = true →
        dmaEnable (busAccess c op s).regs.dmaFlags = false := by
      rw [hf]
      intro h
      rcases Bool.or_eq_true_iff.1 h with h | h
      · exact flagsAfter_clear (h1 h) (ho h)
      · exact writesFramebuffer_clear h
    rcases ih (busAccess c op s) _ h2 ho' with h | ⟨h, hb⟩
    · exact .inl h
    · obtain ⟨h3, h4⟩ := Bool.or_eq_false_iff.1 h
      exact .inr ⟨h3, fun a => (hb a).trans (busAccess_framebuffer c op s h4 a)⟩

/-- The primary CPU's next step is the answer of its input to the lines as they are now, or a free one (R8, R281), within
its contract. -/
theorem nextCpuStep_cases (s : State) :
    (∃ x rest, s.env.cpuIn = x :: rest ∧
      nextCpuStep s = (cpuConform s (cpuAnswer x s.cpuSample), { s with env := { s.env with cpuIn := rest } })) ∨
    (s.env.cpuIn = [] ∧
      nextCpuStep s =
        (cpuConform s (Config.cpuStep s.env.cpuFree s.cpuSample),
          { s with env := { s.env with cpuFree := s.env.cpuFree + 1 } })) := by
  unfold nextCpuStep
  split
  · exact .inl ⟨_, _, ‹_›, rfl⟩
  · exact .inr ⟨‹_›, rfl⟩

/-- The ACP's next step is the answer of its input to the events as they are now, or a free one (R8, R292). -/
theorem nextAcpStep_cases (s : State) :
    (∃ x rest, s.env.acpIn = x :: rest ∧
      nextAcpStep s = (acpAnswer x s.acpSample, { s with env := { s.env with acpIn := rest } })) ∨
    (s.env.acpIn = [] ∧
      nextAcpStep s =
        (Config.acpStep s.env.acpFree s.acpSample, { s with env := { s.env with acpFree := s.env.acpFree + 1 } })) := by
  unfold nextAcpStep
  split
  · exact .inl ⟨_, _, ‹_›, rfl⟩
  · exact .inr ⟨‹_›, rfl⟩

/-- An ACP step makes at least one access: its cycle count rises by that many (R292, R418). -/
theorem acpStep_effect (s : State) :
    AcpEffect s (acpStep s).2 ∧ (acpStep s).2.audio = s.audio ∧
    (acpStep s).2.orch =
      { s.orch with acpCycleCounter := s.orch.acpCycleCounter + ((nextAcpStep s).1.rest.length + 1) } := by
  have h : AcpEffect s (nextAcpStep s).2.takeAcpEvents ∧ (nextAcpStep s).2.takeAcpEvents.audio = s.audio ∧
      (nextAcpStep s).2.takeAcpEvents.orch = s.orch := by
    rcases nextAcpStep_cases s with ⟨x, rest, -, e⟩ | ⟨-, e⟩ <;> rw [e] <;>
      exact ⟨⟨fun _ _ => rfl, rfl, rfl, rfl, rfl, rfl, rfl, rfl, rfl, rfl, rfl, rfl, rfl, rfl, rfl, rfl, rfl, rfl⟩,
        rfl, rfl⟩
  obtain ⟨h1, h2, h3⟩ := h
  obtain ⟨k1, k2, k3⟩ :=
    acpAccesses_effect ((nextAcpStep s).1.first :: (nextAcpStep s).1.rest) (nextAcpStep s).2.takeAcpEvents
  refine ⟨h1.trans k1, k2.trans h2, ?_⟩
  simp only [h3, List.length_cons] at k3
  exact k3

theorem ensureRate_effect (r : Rate) (s : State) : AudioEffect s (ensureRate r s) := by
  unfold ensureRate
  split
  · exact .refl s
  · exact audioRecreate_effect r s

theorem ensureRate_ok (r : Rate) {s : State} (hn : 0 < r.num) (hd : 0 < r.den) (h : AudioOk s.audio) :
    AudioOk (ensureRate r s).audio := by
  unfold ensureRate
  split
  · exact h
  · exact audioRecreate_ok r s hn hd

theorem sampleQueue_effect (r : Rate) (v : Byte) (s : State) : AudioEffect s (sampleQueue r v s) :=
  (ensureRate_effect r s).trans (audioPush_effect v _)

theorem sampleQueue_ok (r : Rate) (v : Byte) {s : State} (hn : 0 < r.num) (hd : 0 < r.den) (h : AudioOk s.audio) :
    AudioOk (sampleQueue r v s).audio := audioPush_ok v (ensureRate_ok r hn hd h)

theorem samplePipeline_effect (r : Rate) (v : Byte) (s : State) : AudioEffect s (samplePipeline r v s) :=
  (sampleQueue_effect r v s).trans (audioDrain_effect _)

theorem samplePipeline_ok (r : Rate) (v : Byte) {s : State} (hn : 0 < r.num) (hd : 0 < r.den) (h : AudioOk s.audio) :
    AudioOk (samplePipeline r v s).audio := audioDrain_ok (sampleQueue_ok r v hn hd h)

/-- A sample event reloads the countdown, asserts the ACP's IRQ, and touches the pipeline only where the divisor is
not 0 (R295, U6). -/
theorem sampleEventBy_cases (pipe : Rate → Byte → State → State) (v : Byte) (s : State) :
    let d := rateDivisor s.regs.audioCtl
    let t := { s with orch := { s.orch with sampleCountdown := 4 * (d : Int) } }.assertLine .acpIrq
    (d = 0 ∧ sampleEventBy pipe v s = t) ∨
    (d ≠ 0 ∧ sampleEventBy pipe v s = pipe (nativeRate d) v (audioThread t)) := by
  unfold sampleEventBy
  simp only
  split
  · exact .inl ⟨‹_›, rfl⟩
  · exact .inr ⟨‹_›, rfl⟩

/-- What a sample event changes, whatever its pipeline part does to the pipeline (R295). -/
structure SampleEffect (s t : State) : Prop where
  acp : AcpEffect s t
  mem : t.mem = s.mem
  orch : t.orch = { s.orch with sampleCountdown := 4 * (rateDivisor s.regs.audioCtl : Int) }
  lines : t.lines = { s.lines with acpIrq := true }

theorem sampleEventBy_effect {pipe : Rate → Byte → State → State} (hp : ∀ r v s, AudioEffect s (pipe r v s)) (v : Byte)
    (s : State) : SampleEffect s (sampleEventBy pipe v s) := by
  have h0 : AcpEffect s
      ({ s with orch := { s.orch with sampleCountdown := 4 * (rateDivisor s.regs.audioCtl : Int) } }.assertLine
        .acpIrq) :=
    ⟨fun _ _ => rfl, rfl, rfl, rfl, rfl, rfl, rfl, rfl, rfl, rfl, rfl, rfl, rfl, rfl, rfl, rfl, rfl, rfl⟩
  rcases sampleEventBy_cases pipe v s with ⟨-, e⟩ | ⟨-, e⟩ <;> rw [e]
  · exact ⟨h0, rfl, rfl, rfl⟩
  · have h1 := (audioThread_effect ({ s with
        orch := { s.orch with sampleCountdown := 4 * (rateDivisor s.regs.audioCtl : Int) } }.assertLine .acpIrq)).trans
      (hp (nativeRate (rateDivisor s.regs.audioCtl)) v _)
    exact ⟨h0.trans h1.toAcp, h1.mem, h1.orch, h1.lines⟩

theorem sampleEventBy_ok {pipe : Rate → Byte → State → State}
    (hp : ∀ r v {s : State}, 0 < r.num → 0 < r.den → AudioOk s.audio → AudioOk (pipe r v s).audio) (v : Byte) {s : State}
    (h : AudioOk s.audio) : AudioOk (sampleEventBy pipe v s).audio := by
  rcases sampleEventBy_cases pipe v s with ⟨-, e⟩ | ⟨hd, e⟩ <;> rw [e]
  · exact h
  · exact hp _ v (by simp [nativeRate, Config.nominalHz]) (by simpa [nativeRate] using Nat.pos_of_ne_zero hd)
      (audioThread_ok (s := State.assertLine _ .acpIrq) h)

theorem sampleEvent_effect (v : Byte) (s : State) : SampleEffect s (sampleEvent v s) :=
  sampleEventBy_effect samplePipeline_effect v s

theorem sampleEvent_ok (v : Byte) {s : State} (h : AudioOk s.audio) : AudioOk (sampleEvent v s).audio :=
  sampleEventBy_ok samplePipeline_ok v h

theorem loopSampleEvent_effect (v : Byte) (s : State) : SampleEffect s (loopSampleEvent v s) := by
  unfold loopSampleEvent
  split
  · exact sampleEvent_effect v s
  · exact sampleEventBy_effect sampleQueue_effect v s

theorem loopSampleEvent_ok (v : Byte) {s : State} (h : AudioOk s.audio) : AudioOk (loopSampleEvent v s).audio := by
  unfold loopSampleEvent
  split
  · exact sampleEvent_ok v h
  · exact sampleEventBy_ok sampleQueue_ok v h

/-- The drain after the loop is none, or one drain of the pipeline (log entry 23). -/
theorem loopDrain_cases (s : State) :
    ((s.cfg.drainPoint = .everySample ∨ rateDivisor s.regs.audioCtl = 0) ∧ loopDrain s = s) ∨
    (s.cfg.drainPoint = .afterLoop ∧ rateDivisor s.regs.audioCtl ≠ 0 ∧ loopDrain s = audioDrain s) := by
  unfold loopDrain
  split
  · exact .inl ⟨.inl ‹_›, rfl⟩
  · split
    · exact .inl ⟨.inr ‹_›, rfl⟩
    · exact .inr ⟨‹_›, ‹_›, rfl⟩

theorem loopDrain_effect (s : State) : AudioEffect s (loopDrain s) := by
  rcases loopDrain_cases s with ⟨-, e⟩ | ⟨-, -, e⟩ <;> rw [e]
  · exact .refl s
  · exact audioDrain_effect s

theorem loopDrain_ok {s : State} (h : AudioOk s.audio) : AudioOk (loopDrain s).audio := by
  rcases loopDrain_cases s with ⟨-, e⟩ | ⟨-, -, e⟩ <;> rw [e]
  · exact h
  · exact audioDrain_ok h

/-- A pass of the ACP's loop takes the ACP's cycles off the budget: at least one (R294, R418). -/
theorem acpPass_effect (s : State) :
    AcpEffect s (acpPass s) ∧ (acpPass s).orch.acpCycleCounter = 0 ∧
    (acpPass s).orch.acpBudget =
      s.orch.acpBudget - (s.orch.acpCycleCounter + ((nextAcpStep s).1.rest.length + 1) : Nat) := by
  obtain ⟨h1, h2, h3⟩ := acpStep_effect s
  have h4 : ∀ b k : Int, AcpEffect (acpStep s).2
      { (acpStep s).2 with
        orch := { (acpStep s).2.orch with acpCycleCounter := 0, acpBudget := b, sampleCountdown := k } } :=
    fun _ _ =>
      ⟨fun _ _ => rfl, rfl, rfl, rfl, rfl, rfl, rfl, rfl, rfl, rfl, rfl, rfl, rfl, rfl, rfl, rfl, rfl, rfl⟩
  unfold acpPass
  simp only
  split
  · obtain ⟨k1, -, k3, -⟩ := loopSampleEvent_effect (acpStep s).1
      { (acpStep s).2 with
        orch := { (acpStep s).2.orch with
          acpCycleCounter := 0
          acpBudget := (acpStep s).2.orch.acpBudget - ((acpStep s).2.orch.acpCycleCounter : Int)
          sampleCountdown := (acpStep s).2.orch.sampleCountdown - ((acpStep s).2.orch.acpCycleCounter : Int) } }
    refine ⟨(h1.trans (h4 _ _)).trans k1, ?_, ?_⟩
    · rw [k3]
    · rw [k3]; simp only [h3]
  · exact ⟨h1.trans (h4 _ _), rfl, by simp only [h3]⟩

theorem acpPasses_effect (n : Nat) (s : State) : AcpEffect s (acpPasses n s) := by
  induction n generalizing s with
  | zero => exact .refl s
  | succ n ih =>
    unfold acpPasses
    split
    · exact (acpPass_effect s).1.trans (ih _)
    · exact .refl s

theorem acpLoop_effect (s : State) : AcpEffect s (acpLoop s) :=
  (acpPasses_effect _ s).trans (loopDrain_effect _).toAcp

/-- The loop ends with the budget used up whenever its bound is at least the budget (R294). -/
theorem acpPasses_budget (n : Nat) (s : State) (h : s.orch.acpBudget ≤ n) : (acpPasses n s).orch.acpBudget ≤ 0 := by
  induction n generalizing s with
  | zero => simpa [acpPasses] using h
  | succ n ih =>
    unfold acpPasses
    split
    · apply ih
      rw [(acpPass_effect s).2.2]
      push_cast
      push_cast at h
      omega
    · omega

/-- `ACPLOOP` runs until its budget is exhausted (R294). -/
theorem acpLoop_budget (s : State) : (acpLoop s).orch.acpBudget ≤ 0 := by
  rw [acpLoop, (loopDrain_effect _).orch]
  exact acpPasses_budget _ s (by omega)

/-- A CPU step makes at least one transaction: the cycle count rises by that many (R281, R418). -/
theorem cpuStep_effect (c : Cart) (s : State) :
    (cpuStep c s).mem.cart = s.mem.cart ∧ (cpuStep c s).audio = s.audio ∧ (cpuStep c s).cfg = s.cfg ∧
    (cpuStep c s).orch =
      { s.orch with cycleCounter := s.orch.cycleCounter + ((nextCpuStep s).1.rest.length + 1) } := by
  have h : (nextCpuStep s).2.takeCpuEvents.mem = s.mem ∧ (nextCpuStep s).2.takeCpuEvents.audio = s.audio ∧
      (nextCpuStep s).2.takeCpuEvents.cfg = s.cfg ∧ (nextCpuStep s).2.takeCpuEvents.orch = s.orch := by
    rcases nextCpuStep_cases s with ⟨x, rest, -, e⟩ | ⟨-, e⟩ <;> rw [e] <;> exact ⟨rfl, rfl, rfl, rfl⟩
  obtain ⟨h1, h2, h3, h4⟩ := h
  obtain ⟨k1, k2, k3, k4, -⟩ :=
    busAccesses_effect c ((nextCpuStep s).1.first :: (nextCpuStep s).1.rest) (nextCpuStep s).2.takeCpuEvents
  rw [h1] at k1
  rw [h2] at k3
  rw [h3] at k4
  rw [h4, List.length_cons] at k2
  exact ⟨k1, k3, k4, k2⟩

/-- The vblank update is one of three (R289, R290). -/
theorem vblank_cases (c : Nat) (s : State) :
    (0 < s.orch.vblankCountdown - c ∧
      vblank c s = { s with orch := { s.orch with vblankCountdown := s.orch.vblankCountdown - c } }) ∨
    (s.orch.vblankCountdown - c ≤ 0 ∧
      vblank c s =
        { s with
          orch := { s.orch with vblankCountdown := s.orch.vblankCountdown - c + s.cfg.cyclesPerFrame }
          lines := { s.lines with cpuNmi := s.lines.cpuNmi || nmiEnable s.regs.dmaFlags } }) := by
  unfold vblank
  simp only
  split
  · refine .inr ⟨‹_›, ?_⟩
    cases nmiEnable s.regs.dmaFlags <;> simp [State.assertLine]
  · exact .inl ⟨by omega, rfl⟩

theorem vblank_remaining (c : Nat) (s : State) :
    (vblank c s).orch.remainingCycles = s.orch.remainingCycles ∧ (vblank c s).mem = s.mem ∧
    (vblank c s).audio = s.audio ∧ (vblank c s).cfg = s.cfg := by
  rcases vblank_cases c s with ⟨-, e⟩ | ⟨-, e⟩ <;> rw [e] <;> exact ⟨rfl, rfl, rfl, rfl⟩

/-- An iteration lowers `remaining_cycles` by the cycles of its CPU step: at least one (R284, R291). -/
theorem iteration_remaining (c : Cart) (s : State) :
    (iteration c s).orch.remainingCycles =
      s.orch.remainingCycles - (s.orch.cycleCounter + ((nextCpuStep s).1.rest.length + 1) : Nat) := by
  obtain ⟨-, -, -, h⟩ := cpuStep_effect c s
  unfold iteration
  simp only
  rw [(vblank_remaining _ _).1]
  simp only [irqProp]
  rw [(blitSteps_effect _ _).orch]
  split
  · rw [(acpLoop_effect _).remaining]; simp only [chargeCycles, h]
  · simp only [chargeCycles, h]

theorem tickLoop_remaining (c : Cart) (n : Nat) (s : State) (h : s.orch.remainingCycles ≤ n) :
    (tickLoop c n s).orch.remainingCycles ≤ 0 := by
  induction n generalizing s with
  | zero => simpa [tickLoop] using h
  | succ n ih =>
    unfold tickLoop
    split
    · apply ih
      rw [iteration_remaining]
      push_cast
      push_cast at h
      omega
    · omega

/-- A tick runs until its budget is used up (R283, R291). -/
theorem tick_remaining (c : Cart) (elapsed : Nat) (s : State) : (tick c elapsed s).orch.remainingCycles ≤ 0 :=
  tickLoop_remaining c _ _ (by unfold budget; split <;> exact le_refl _)

end Sys2Proof.Machine
end

