-- ==== Sys2Proof/Laws/PerInstr.lean ====
section
/-! SUPPORT. Per instruction: its encoding carries the bits that its row of spec/opcode_table.json fixes, and its address
lies in the row's range. -/

namespace Sys2Proof.Laws.TableBits

open Sys2Proof

/-- The number that the opcode table numbers the bits of: the 17-bit word `T` of R120, or the event code (R142). -/
def tableWord : RawOp → Nat
  | .bus word => word.toNat / 256
  | .evt code _ => code.toNat

/-- One entry of a row's "fixed" list: bits `hi` down to `lo` hold `value`. -/
structure Fixed where
  hi : Nat
  lo : Nat
  value : Nat

/-- The word holds the entry's value in the entry's bits. -/
def holds (w : Nat) (f : Fixed) : Prop := w / 2 ^ f.lo % 2 ^ (f.hi + 1 - f.lo) = f.value

/-- The "fixed" lists of spec/opcode_table.json. -/
def fixedBits : Instr → List Fixed
  | .rdZp _ => [⟨16, 8, 0⟩]
  | .wrZp _ _ => [⟨16, 8, 256⟩]
  | .rdStack _ => [⟨16, 8, 1⟩]
  | .wrStack _ _ => [⟨16, 8, 257⟩]
  | .rdRam _ => [⟨16, 13, 0⟩]
  | .wrRam _ _ => [⟨16, 13, 8⟩]
  | .rdWoAcprst => [⟨16, 0, 8192⟩]
  | .wrAcprst _ => [⟨16, 0, 73728⟩]
  | .rdWoAcpnmi => [⟨16, 0, 8193⟩]
  | .wrAcpnmi _ => [⟨16, 0, 73729⟩]
  | .rdWoBank => [⟨16, 0, 8197⟩]
  | .wrBank _ => [⟨16, 0, 73733⟩]
  | .rdWoAudio => [⟨16, 0, 8198⟩]
  | .wrAudio _ => [⟨16, 0, 73734⟩]
  | .rdWoDma => [⟨16, 0, 8199⟩]
  | .wrDma _ => [⟨16, 0, 73735⟩]
  | .rdPad1 => [⟨16, 0, 8200⟩]
  | .wrPad1 _ => [⟨16, 0, 73736⟩]
  | .rdPad2 => [⟨16, 0, 8201⟩]
  | .wrPad2 _ => [⟨16, 0, 73737⟩]
  | .rdVia _ => [⟨16, 4, 640⟩]
  | .wrVia _ _ => [⟨16, 4, 4736⟩]
  | .rdAram _ => [⟨16, 12, 3⟩]
  | .wrAram _ _ => [⟨16, 12, 19⟩]
  | .rdWin _ => [⟨16, 14, 1⟩]
  | .wrWin _ _ => [⟨16, 14, 5⟩]
  | .wrBr0 _ _ => [⟨2, 0, 0⟩, ⟨16, 14, 5⟩]
  | .wrBr1 _ _ => [⟨2, 0, 1⟩, ⟨16, 14, 5⟩]
  | .wrBr2 _ _ => [⟨2, 0, 2⟩, ⟨16, 14, 5⟩]
  | .wrBr3 _ _ => [⟨2, 0, 3⟩, ⟨16, 14, 5⟩]
  | .wrBr4 _ _ => [⟨2, 0, 4⟩, ⟨16, 14, 5⟩]
  | .wrBr5 _ _ => [⟨2, 0, 5⟩, ⟨16, 14, 5⟩]
  | .wrBr6 _ _ => [⟨2, 0, 6⟩, ⟨16, 14, 5⟩]
  | .wrBr7 _ _ => [⟨2, 0, 7⟩, ⟨16, 14, 5⟩]
  | .rdBr _ => [⟨16, 14, 1⟩]
  | .rdFb _ => [⟨16, 14, 1⟩]
  | .wrFb _ _ => [⟨16, 14, 5⟩]
  | .rdVram _ => [⟨16, 14, 1⟩]
  | .wrVram _ _ => [⟨16, 14, 5⟩]
  | .rdCart _ => [⟨16, 15, 1⟩]
  | .wrCart _ _ => [⟨16, 15, 3⟩]
  | .rdUnmapped _ => [⟨16, 16, 0⟩]
  | .wrUnmapped _ _ => [⟨16, 16, 1⟩]
  | .bstep => [⟨7, 0, 0⟩]
  | .tick _ => [⟨7, 0, 1⟩]
  | .iter => [⟨7, 0, 2⟩]
  | .acploop => [⟨7, 0, 3⟩]
  | .sample _ => [⟨7, 0, 4⟩]
  | .irqprop => [⟨7, 0, 5⟩]
  | .vblank _ => [⟨7, 0, 6⟩]
  | .aPush _ => [⟨7, 0, 16⟩]
  | .aResample => [⟨7, 0, 17⟩]
  | .aCommit => [⟨7, 0, 18⟩]
  | .aDrain => [⟨7, 0, 19⟩]
  | .aPop => [⟨7, 0, 20⟩]
  | .aRecreate _ _ => [⟨7, 0, 21⟩]
  | .hLoadrom _ => [⟨7, 0, 32⟩]
  | .hSetbtn _ _ _ => [⟨7, 0, 33⟩]
  | .hReadfb => [⟨7, 0, 34⟩]
  | .hInstant => [⟨7, 0, 35⟩]
  | .hPoweron _ => [⟨7, 0, 36⟩]
  | .acpRd _ => [⟨7, 0, 48⟩]
  | .acpWr _ _ => [⟨7, 0, 49⟩]

/-- The address ranges of spec/opcode_table.json; an event has no address. -/
def ranges : Instr → List (Nat × Nat)
  | .rdZp _ => [(0x0000, 0x00FF)]
  | .wrZp _ _ => [(0x0000, 0x00FF)]
  | .rdStack _ => [(0x0100, 0x01FF)]
  | .wrStack _ _ => [(0x0100, 0x01FF)]
  | .rdRam _ => [(0x0200, 0x1FFF)]
  | .wrRam _ _ => [(0x0200, 0x1FFF)]
  | .rdWoAcprst => [(0x2000, 0x2000)]
  | .wrAcprst _ => [(0x2000, 0x2000)]
  | .rdWoAcpnmi => [(0x2001, 0x2001)]
  | .wrAcpnmi _ => [(0x2001, 0x2001)]
  | .rdWoBank => [(0x2005, 0x2005)]
  | .wrBank _ => [(0x2005, 0x2005)]
  | .rdWoAudio => [(0x2006, 0x2006)]
  | .wrAudio _ => [(0x2006, 0x2006)]
  | .rdWoDma => [(0x2007, 0x2007)]
  | .wrDma _ => [(0x2007, 0x2007)]
  | .rdPad1 => [(0x2008, 0x2008)]
  | .wrPad1 _ => [(0x2008, 0x2008)]
  | .rdPad2 => [(0x2009, 0x2009)]
  | .wrPad2 _ => [(0x2009, 0x2009)]
  | .rdVia _ => [(0x2800, 0x280F)]
  | .wrVia _ _ => [(0x2800, 0x280F)]
  | .rdAram _ => [(0x3000, 0x3FFF)]
  | .wrAram _ _ => [(0x3000, 0x3FFF)]
  | .rdWin _ => [(0x4000, 0x7FFF)]
  | .wrWin _ _ => [(0x4000, 0x7FFF)]
  | .wrBr0 _ _ => [(0x4000, 0x7FFF)]
  | .wrBr1 _ _ => [(0x4000, 0x7FFF)]
  | .wrBr2 _ _ => [(0x4000, 0x7FFF)]
  | .wrBr3 _ _ => [(0x4000, 0x7FFF)]
  | .wrBr4 _ _ => [(0x4000, 0x7FFF)]
  | .wrBr5 _ _ => [(0x4000, 0x7FFF)]
  | .wrBr6 _ _ => [(0x4000, 0x7FFF)]
  | .wrBr7 _ _ => [(0x4000, 0x7FFF)]
  | .rdBr _ => [(0x4000, 0x7FFF)]
  | .rdFb _ => [(0x4000, 0x7FFF)]
  | .wrFb _ _ => [(0x4000, 0x7FFF)]
  | .rdVram _ => [(0x4000, 0x7FFF)]
  | .wrVram _ _ => [(0x4000, 0x7FFF)]
  | .rdCart _ => [(0x8000, 0xFFFF)]
  | .wrCart _ _ => [(0x8000, 0xFFFF)]
  | .rdUnmapped _ => [(0x2002, 0x2004), (0x200A, 0x27FF), (0x2810, 0x2FFF)]
  | .wrUnmapped _ _ => [(0x2002, 0x2004), (0x200A, 0x27FF), (0x2810, 0x2FFF)]
  | .bstep => []
  | .tick _ => []
  | .iter => []
  | .acploop => []
  | .sample _ => []
  | .irqprop => []
  | .vblank _ => []
  | .aPush _ => []
  | .aResample => []
  | .aCommit => []
  | .aDrain => []
  | .aPop => []
  | .aRecreate _ _ => []
  | .hLoadrom _ => []
  | .hSetbtn _ _ _ => []
  | .hReadfb => []
  | .hInstant => []
  | .hPoweron _ => []
  | .acpRd _ => []
  | .acpWr _ _ => []

/-- The encoding of a well-formed instruction carries its row's fixed bits and an address of its row's range. -/
def Statement (i : Instr) : Prop :=
  wellFormed i = true →
    (∀ f ∈ fixedBits i, holds (tableWord (encode i)) f) ∧
    (ranges i = [] ∨ ∃ r ∈ ranges i, r.1 ≤ tableWord (encode i) % 65536 ∧ tableWord (encode i) % 65536 ≤ r.2)

/-- The table word of a transaction: the direction above the address. -/
theorem tableWord_busWord (rw : Bool) (addr : Addr) (v : Byte) :
    tableWord (.bus (busWord rw addr v)) = rw.toNat * 65536 + addr.toNat := by
  have hv := v.isLt
  simp only [tableWord, busWord_toNat]
  omega

theorem tableWord_read (addr : Addr) : tableWord (busRead addr) = addr.toNat := by
  rw [busRead_eq, tableWord_busWord]; simp

theorem tableWord_write (addr : Addr) (v : Byte) : tableWord (busWrite addr v) = 65536 + addr.toNat := by
  rw [busWrite_eq, tableWord_busWord]; simp

/-- The two parts of the statement for one range, from what the table word is. -/
theorem of_row {i : Instr} {w lo hi : Nat} (hw : tableWord (encode i) = w) (hf : ∀ f ∈ fixedBits i, holds w f)
    (hr : ranges i = [(lo, hi)]) (hlo : lo ≤ w % 65536) (hhi : w % 65536 ≤ hi) : Statement i := by
  intro _
  rw [hw, hr]
  exact ⟨hf, .inr ⟨(lo, hi), List.mem_singleton.2 rfl, hlo, hhi⟩⟩

theorem rdZp (o : BitVec 8) : Statement (.rdZp o) := by
  have hu := o.isLt
  have hw : tableWord (encode (.rdZp o)) = (0 + o.toNat) :=
    (tableWord_read _).trans (by rw [zpAddr_toNat])
  exact of_row hw (by simp [fixedBits, holds]; omega) rfl (by omega) (by omega)

theorem wrZp (o : BitVec 8) (v : Byte) : Statement (.wrZp o v) := by
  have hu := o.isLt
  have hw : tableWord (encode (.wrZp o v)) = 65536 + (0 + o.toNat) :=
    (tableWord_write _ _).trans (by rw [zpAddr_toNat])
  exact of_row hw (by simp [fixedBits, holds]; omega) rfl (by omega) (by omega)

theorem rdStack (o : BitVec 8) : Statement (.rdStack o) := by
  have hu := o.isLt
  have hw : tableWord (encode (.rdStack o)) = (0x100 + o.toNat) :=
    (tableWord_read _).trans (by rw [stackAddr_toNat])
  exact of_row hw (by simp [fixedBits, holds]; omega) rfl (by omega) (by omega)

theorem wrStack (o : BitVec 8) (v : Byte) : Statement (.wrStack o v) := by
  have hu := o.isLt
  have hw : tableWord (encode (.wrStack o v)) = 65536 + (0x100 + o.toNat) :=
    (tableWord_write _ _).trans (by rw [stackAddr_toNat])
  exact of_row hw (by simp [fixedBits, holds]; omega) rfl (by omega) (by omega)

theorem rdRam (a : BitVec 13) : Statement (.rdRam a) := by
  intro h
  have hl : 0x200 ≤ a.toNat := (ramAddr_iff a).1 h
  have hu := a.isLt
  have hw : tableWord (encode (.rdRam a)) = (0 + a.toNat) :=
    (tableWord_read _).trans (by rw [ramBusAddr_toNat])
  exact of_row hw (by simp [fixedBits, holds]; omega) rfl (by omega) (by omega) h

theorem wrRam (a : BitVec 13) (v : Byte) : Statement (.wrRam a v) := by
  intro h
  have hl : 0x200 ≤ a.toNat := (ramAddr_iff a).1 h
  have hu := a.isLt
  have hw : tableWord (encode (.wrRam a v)) = 65536 + (0 + a.toNat) :=
    (tableWord_write _ _).trans (by rw [ramBusAddr_toNat])
  exact of_row hw (by simp [fixedBits, holds]; omega) rfl (by omega) (by omega) h

theorem rdWoAcprst : Statement (.rdWoAcprst) := 
  of_row (w := 8192) (tableWord_read _) (by simp [fixedBits, holds]) rfl (by norm_num) (by norm_num)

theorem wrAcprst (v : Byte) : Statement (.wrAcprst v) := 
  of_row (w := 73728) (tableWord_write _ _) (by simp [fixedBits, holds]) rfl (by norm_num) (by norm_num)

theorem rdWoAcpnmi : Statement (.rdWoAcpnmi) := 
  of_row (w := 8193) (tableWord_read _) (by simp [fixedBits, holds]) rfl (by norm_num) (by norm_num)

theorem wrAcpnmi (v : Byte) : Statement (.wrAcpnmi v) := 
  of_row (w := 73729) (tableWord_write _ _) (by simp [fixedBits, holds]) rfl (by norm_num) (by norm_num)

theorem rdWoBank : Statement (.rdWoBank) := 
  of_row (w := 8197) (tableWord_read _) (by simp [fixedBits, holds]) rfl (by norm_num) (by norm_num)

theorem wrBank (v : Byte) : Statement (.wrBank v) := 
  of_row (w := 73733) (tableWord_write _ _) (by simp [fixedBits, holds]) rfl (by norm_num) (by norm_num)

theorem rdWoAudio : Statement (.rdWoAudio) := 
  of_row (w := 8198) (tableWord_read _) (by simp [fixedBits, holds]) rfl (by norm_num) (by norm_num)

theorem wrAudio (v : Byte) : Statement (.wrAudio v) := 
  of_row (w := 73734) (tableWord_write _ _) (by simp [fixedBits, holds]) rfl (by norm_num) (by norm_num)

theorem rdWoDma : Statement (.rdWoDma) := 
  of_row (w := 8199) (tableWord_read _) (by simp [fixedBits, holds]) rfl (by norm_num) (by norm_num)

theorem wrDma (v : Byte) : Statement (.wrDma v) := 
  of_row (w := 73735) (tableWord_write _ _) (by simp [fixedBits, holds]) rfl (by norm_num) (by norm_num)

theorem rdPad1 : Statement (.rdPad1) := 
  of_row (w := 8200) (tableWord_read _) (by simp [fixedBits, holds]) rfl (by norm_num) (by norm_num)

theorem wrPad1 (v : Byte) : Statement (.wrPad1 v) := 
  of_row (w := 73736) (tableWord_write _ _) (by simp [fixedBits, holds]) rfl (by norm_num) (by norm_num)

theorem rdPad2 : Statement (.rdPad2) := 
  of_row (w := 8201) (tableWord_read _) (by simp [fixedBits, holds]) rfl (by norm_num) (by norm_num)

theorem wrPad2 (v : Byte) : Statement (.wrPad2 v) := 
  of_row (w := 73737) (tableWord_write _ _) (by simp [fixedBits, holds]) rfl (by norm_num) (by norm_num)

theorem rdVia (r : BitVec 4) : Statement (.rdVia r) := by
  have hu := r.isLt
  have hw : tableWord (encode (.rdVia r)) = (0x2800 + r.toNat) :=
    (tableWord_read _).trans (by rw [viaAddr_toNat])
  exact of_row hw (by simp [fixedBits, holds]; omega) rfl (by omega) (by omega)

theorem wrVia (r : BitVec 4) (v : Byte) : Statement (.wrVia r v) := by
  have hu := r.isLt
  have hw : tableWord (encode (.wrVia r v)) = 65536 + (0x2800 + r.toNat) :=
    (tableWord_write _ _).trans (by rw [viaAddr_toNat])
  exact of_row hw (by simp [fixedBits, holds]; omega) rfl (by omega) (by omega)

theorem rdAram (o : BitVec 12) : Statement (.rdAram o) := by
  have hu := o.isLt
  have hw : tableWord (encode (.rdAram o)) = (0x3000 + o.toNat) :=
    (tableWord_read _).trans (by rw [aramAddr_toNat])
  exact of_row hw (by simp [fixedBits, holds]; omega) rfl (by omega) (by omega)

theorem wrAram (o : BitVec 12) (v : Byte) : Statement (.wrAram o v) := by
  have hu := o.isLt
  have hw : tableWord (encode (.wrAram o v)) = 65536 + (0x3000 + o.toNat) :=
    (tableWord_write _ _).trans (by rw [aramAddr_toNat])
  exact of_row hw (by simp [fixedBits, holds]; omega) rfl (by omega) (by omega)

theorem rdWin (o : BitVec 14) : Statement (.rdWin o) := by
  have hu := o.isLt
  have hw : tableWord (encode (.rdWin o)) = (0x4000 + o.toNat) :=
    (tableWord_read _).trans (by rw [winAddr_toNat])
  exact of_row hw (by simp [fixedBits, holds]; omega) rfl (by omega) (by omega)

theorem wrWin (o : BitVec 14) (v : Byte) : Statement (.wrWin o v) := by
  have hu := o.isLt
  have hw : tableWord (encode (.wrWin o v)) = 65536 + (0x4000 + o.toNat) :=
    (tableWord_write _ _).trans (by rw [winAddr_toNat])
  exact of_row hw (by simp [fixedBits, holds]; omega) rfl (by omega) (by omega)

theorem wrBr0 (k : BitVec 11) (v : Byte) : Statement (.wrBr0 k v) := by
  have hu := k.isLt
  have hw : tableWord (encode (.wrBr0 k v)) = 65536 + (0x4000 + 8 * k.toNat + 0) :=
    (tableWord_write _ _).trans (by rw [brAddr_toNat]; rfl)
  exact of_row hw (by simp [fixedBits, holds]; omega) rfl (by omega) (by omega)

theorem wrBr1 (k : BitVec 11) (v : Byte) : Statement (.wrBr1 k v) := by
  have hu := k.isLt
  have hw : tableWord (encode (.wrBr1 k v)) = 65536 + (0x4000 + 8 * k.toNat + 1) :=
    (tableWord_write _ _).trans (by rw [brAddr_toNat]; rfl)
  exact of_row hw (by simp [fixedBits, holds]; omega) rfl (by omega) (by omega)

theorem wrBr2 (k : BitVec 11) (v : Byte) : Statement (.wrBr2 k v) := by
  have hu := k.isLt
  have hw : tableWord (encode (.wrBr2 k v)) = 65536 + (0x4000 + 8 * k.toNat + 2) :=
    (tableWord_write _ _).trans (by rw [brAddr_toNat]; rfl)
  exact of_row hw (by simp [fixedBits, holds]; omega) rfl (by omega) (by omega)

theorem wrBr3 (k : BitVec 11) (v : Byte) : Statement (.wrBr3 k v) := by
  have hu := k.isLt
  have hw : tableWord (encode (.wrBr3 k v)) = 65536 + (0x4000 + 8 * k.toNat + 3) :=
    (tableWord_write _ _).trans (by rw [brAddr_toNat]; rfl)
  exact of_row hw (by simp [fixedBits, holds]; omega) rfl (by omega) (by omega)

theorem wrBr4 (k : BitVec 11) (v : Byte) : Statement (.wrBr4 k v) := by
  have hu := k.isLt
  have hw : tableWord (encode (.wrBr4 k v)) = 65536 + (0x4000 + 8 * k.toNat + 4) :=
    (tableWord_write _ _).trans (by rw [brAddr_toNat]; rfl)
  exact of_row hw (by simp [fixedBits, holds]; omega) rfl (by omega) (by omega)

theorem wrBr5 (k : BitVec 11) (v : Byte) : Statement (.wrBr5 k v) := by
  have hu := k.isLt
  have hw : tableWord (encode (.wrBr5 k v)) = 65536 + (0x4000 + 8 * k.toNat + 5) :=
    (tableWord_write _ _).trans (by rw [brAddr_toNat]; rfl)
  exact of_row hw (by simp [fixedBits, holds]; omega) rfl (by omega) (by omega)

theorem wrBr6 (k : BitVec 11) (v : Byte) : Statement (.wrBr6 k v) := by
  have hu := k.isLt
  have hw : tableWord (encode (.wrBr6 k v)) = 65536 + (0x4000 + 8 * k.toNat + 6) :=
    (tableWord_write _ _).trans (by rw [brAddr_toNat]; rfl)
  exact of_row hw (by simp [fixedBits, holds]; omega) rfl (by omega) (by omega)

theorem wrBr7 (k : BitVec 11) (v : Byte) : Statement (.wrBr7 k v) := by
  have hu := k.isLt
  have hw : tableWord (encode (.wrBr7 k v)) = 65536 + (0x4000 + 8 * k.toNat + 7) :=
    (tableWord_write _ _).trans (by rw [brAddr_toNat]; rfl)
  exact of_row hw (by simp [fixedBits, holds]; omega) rfl (by omega) (by omega)

theorem rdBr (o : BitVec 14) : Statement (.rdBr o) := by
  have hu := o.isLt
  have hw : tableWord (encode (.rdBr o)) = (0x4000 + o.toNat) :=
    (tableWord_read _).trans (by rw [winAddr_toNat])
  exact of_row hw (by simp [fixedBits, holds]; omega) rfl (by omega) (by omega)

theorem rdFb (o : BitVec 14) : Statement (.rdFb o) := by
  have hu := o.isLt
  have hw : tableWord (encode (.rdFb o)) = (0x4000 + o.toNat) :=
    (tableWord_read _).trans (by rw [winAddr_toNat])
  exact of_row hw (by simp [fixedBits, holds]; omega) rfl (by omega) (by omega)

theorem wrFb (o : BitVec 14) (v : Byte) : Statement (.wrFb o v) := by
  have hu := o.isLt
  have hw : tableWord (encode (.wrFb o v)) = 65536 + (0x4000 + o.toNat) :=
    (tableWord_write _ _).trans (by rw [winAddr_toNat])
  exact of_row hw (by simp [fixedBits, holds]; omega) rfl (by omega) (by omega)

theorem rdVram (o : BitVec 14) : Statement (.rdVram o) := by
  have hu := o.isLt
  have hw : tableWord (encode (.rdVram o)) = (0x4000 + o.toNat) :=
    (tableWord_read _).trans (by rw [winAddr_toNat])
  exact of_row hw (by simp [fixedBits, holds]; omega) rfl (by omega) (by omega)

theorem wrVram (o : BitVec 14) (v : Byte) : Statement (.wrVram o v) := by
  have hu := o.isLt
  have hw : tableWord (encode (.wrVram o v)) = 65536 + (0x4000 + o.toNat) :=
    (tableWord_write _ _).trans (by rw [winAddr_toNat])
  exact of_row hw (by simp [fixedBits, holds]; omega) rfl (by omega) (by omega)

theorem rdCart (o : BitVec 15) : Statement (.rdCart o) := by
  have hu := o.isLt
  have hw : tableWord (encode (.rdCart o)) = (0x8000 + o.toNat) :=
    (tableWord_read _).trans (by rw [cartAddr_toNat])
  exact of_row hw (by simp [fixedBits, holds]; omega) rfl (by omega) (by omega)

theorem wrCart (o : BitVec 15) (v : Byte) : Statement (.wrCart o v) := by
  have hu := o.isLt
  have hw : tableWord (encode (.wrCart o v)) = 65536 + (0x8000 + o.toNat) :=
    (tableWord_write _ _).trans (by rw [cartAddr_toNat])
  exact of_row hw (by simp [fixedBits, holds]; omega) rfl (by omega) (by omega)

theorem rdUnmapped (addr : Addr) : Statement (.rdUnmapped addr) := by
  intro h
  have hu := addr.isLt
  have hb : regionBounds addr .unmapped := (unmappedAddr_iff addr).1 h
  simp only [regionBounds] at hb
  have hw : tableWord (encode (.rdUnmapped addr)) = addr.toNat := tableWord_read _
  rw [hw]
  refine ⟨by simp [fixedBits, holds]; omega, .inr ?_⟩
  simp only [ranges, List.mem_cons, List.not_mem_nil, or_false, exists_eq_or_imp, exists_eq_left]
  omega

theorem wrUnmapped (addr : Addr) (v : Byte) : Statement (.wrUnmapped addr v) := by
  intro h
  have hu := addr.isLt
  have hb : regionBounds addr .unmapped := (unmappedAddr_iff addr).1 h
  simp only [regionBounds] at hb
  have hw : tableWord (encode (.wrUnmapped addr v)) = 65536 + addr.toNat := tableWord_write _ _
  rw [hw]
  refine ⟨by simp [fixedBits, holds]; omega, .inr ?_⟩
  simp only [ranges, List.mem_cons, List.not_mem_nil, or_false, exists_eq_or_imp, exists_eq_left]
  omega

theorem bstep : Statement (.bstep) := fun _ =>
  ⟨by simp [fixedBits, holds, tableWord, encode], .inl rfl⟩

theorem tick (elapsed : Nat) : Statement (.tick elapsed) := fun _ =>
  ⟨by simp [fixedBits, holds, tableWord, encode], .inl rfl⟩

theorem iter : Statement (.iter) := fun _ =>
  ⟨by simp [fixedBits, holds, tableWord, encode], .inl rfl⟩

theorem acploop : Statement (.acploop) := fun _ =>
  ⟨by simp [fixedBits, holds, tableWord, encode], .inl rfl⟩

theorem sample (v : Byte) : Statement (.sample v) := fun _ =>
  ⟨by simp [fixedBits, holds, tableWord, encode], .inl rfl⟩

theorem irqprop : Statement (.irqprop) := fun _ =>
  ⟨by simp [fixedBits, holds, tableWord, encode], .inl rfl⟩

theorem vblank (c : Nat) : Statement (.vblank c) := fun _ =>
  ⟨by simp [fixedBits, holds, tableWord, encode], .inl rfl⟩

theorem aPush (v : Byte) : Statement (.aPush v) := fun _ =>
  ⟨by simp [fixedBits, holds, tableWord, encode], .inl rfl⟩

theorem aResample : Statement (.aResample) := fun _ =>
  ⟨by simp [fixedBits, holds, tableWord, encode], .inl rfl⟩

theorem aCommit : Statement (.aCommit) := fun _ =>
  ⟨by simp [fixedBits, holds, tableWord, encode], .inl rfl⟩

theorem aDrain : Statement (.aDrain) := fun _ =>
  ⟨by simp [fixedBits, holds, tableWord, encode], .inl rfl⟩

theorem aPop : Statement (.aPop) := fun _ =>
  ⟨by simp [fixedBits, holds, tableWord, encode], .inl rfl⟩

theorem aRecreate (num den : Nat) : Statement (.aRecreate num den) := fun _ =>
  ⟨by simp [fixedBits, holds, tableWord, encode], .inl rfl⟩

theorem hLoadrom (bytes : List Byte) : Statement (.hLoadrom bytes) := fun _ =>
  ⟨by simp [fixedBits, holds, tableWord, encode], .inl rfl⟩

theorem hSetbtn (p : PadPort) (b : BitVec 8) (pressed : Bool) : Statement (.hSetbtn p b pressed) := fun _ =>
  ⟨by simp [fixedBits, holds, tableWord, encode], .inl rfl⟩

theorem hReadfb : Statement (.hReadfb) := fun _ =>
  ⟨by simp [fixedBits, holds, tableWord, encode], .inl rfl⟩

theorem hInstant : Statement (.hInstant) := fun _ =>
  ⟨by simp [fixedBits, holds, tableWord, encode], .inl rfl⟩

theorem hPoweron (now : Nat) : Statement (.hPoweron now) := fun _ =>
  ⟨by simp [fixedBits, holds, tableWord, encode], .inl rfl⟩

theorem acpRd (a : Addr) : Statement (.acpRd a) := fun _ =>
  ⟨by simp [fixedBits, holds, tableWord, encode], .inl rfl⟩

theorem acpWr (a : Addr) (v : Byte) : Statement (.acpWr a v) := fun _ =>
  ⟨by simp [fixedBits, holds, tableWord, encode], .inl rfl⟩

end Sys2Proof.Laws.TableBits
end

