-- ==== Sys2Proof/Tests/Slice0.lean ====
section
/-! SUPPORT. The model's own tests: the checks of WellFormed, the decoding of words written out from the encoding, single
steps from the vectors of 95_test_vectors.md, and a witness for the hypotheses of every statement that has some. -/

namespace Sys2Proof.Machine.Tests

/-! The checks of WellFormed: each refuses an ill-formed term and lets the boundary of its range through. -/

theorem test_wf_ram : wellFormed (.rdRam 0x1FF) = false ∧ wellFormed (.wrRam 0x000 0x11) = false ∧
    wellFormed (.rdRam 0x200) = true ∧ wellFormed (.wrRam 0x1FFF 0x11) = true := by decide

theorem test_wf_unmapped : wellFormed (.rdUnmapped 0x2005) = false ∧ wellFormed (.wrUnmapped 0x3000 0x01) = false ∧
    wellFormed (.rdUnmapped 0x2809) = false ∧ wellFormed (.rdUnmapped 0x2002) = true ∧
    wellFormed (.rdUnmapped 0x27FF) = true ∧ wellFormed (.wrUnmapped 0x2FFF 0x01) = true := by decide

theorem test_wf_numbers : wellFormed (.tick (2 ^ 64)) = false ∧ wellFormed (.vblank (2 ^ 64)) = false ∧
    wellFormed (.hPoweron (2 ^ 64)) = false ∧ wellFormed (.aRecreate 0 1) = false ∧ wellFormed (.aRecreate 1 0) = false ∧
    wellFormed (.aRecreate (2 ^ 64 + 1) 1) = false ∧ wellFormed (.tick (2 ^ 64 - 1)) = true ∧
    wellFormed (.aRecreate (2 ^ 64) 1) = true := by decide

/-! Decoding: every word is written out from R120, Table E1 (R136), Table E2 (R137), R139 or Table E3 (R140). -/

theorem test_decode_ram_words :
    decode .vram (.bus 0x000FF00) = .ok (.rdZp 0xFF) ∧ decode .vram (.bus 0x10010AA) = .ok (.wrZp 0x10 0xAA) ∧
    decode .vram (.bus 0x001FF00) = .ok (.rdStack 0xFF) ∧ decode .vram (.bus 0x1010034) = .ok (.wrStack 0x00 0x34) ∧
    decode .vram (.bus 0x01FFF00) = .ok (.rdRam 0x1FFF) ∧ decode .vram (.bus 0x1020011) = .ok (.wrRam 0x200 0x11) ∧
    decode .vram (.bus 0x03FFF00) = .ok (.rdAram 0xFFF) ∧ decode .vram (.bus 0x13FFF4C) = .ok (.wrAram 0xFFF 0x4C) := by
  decide

theorem test_decode_control_words :
    decode .vram (.bus 0x0200000) = .ok .rdWoAcprst ∧ decode .vram (.bus 0x12000FF) = .ok (.wrAcprst 0xFF) ∧
    decode .vram (.bus 0x0200100) = .ok .rdWoAcpnmi ∧ decode .vram (.bus 0x1200101) = .ok (.wrAcpnmi 0x01) ∧
    decode .vram (.bus 0x0200500) = .ok .rdWoBank ∧ decode .vram (.bus 0x12005C9) = .ok (.wrBank 0xC9) ∧
    decode .vram (.bus 0x0200600) = .ok .rdWoAudio ∧ decode .vram (.bus 0x12006FF) = .ok (.wrAudio 0xFF) ∧
    decode .vram (.bus 0x0200700) = .ok .rdWoDma ∧ decode .vram (.bus 0x1200749) = .ok (.wrDma 0x49) := by decide

theorem test_decode_port_words :
    decode .vram (.bus 0x0200800) = .ok .rdPad1 ∧ decode .vram (.bus 0x12008FF) = .ok (.wrPad1 0xFF) ∧
    decode .vram (.bus 0x0200900) = .ok .rdPad2 ∧ decode .vram (.bus 0x1200901) = .ok (.wrPad2 0x01) ∧
    decode .vram (.bus 0x0280000) = .ok (.rdVia 0x0) ∧ decode .vram (.bus 0x1280F7F) = .ok (.wrVia 0xF 0x7F) := by decide

theorem test_decode_cart_and_unmapped_words :
    decode .vram (.bus 0x0FFFC00) = .ok (.rdCart 0x7FFC) ∧ decode .vram (.bus 0x18000FF) = .ok (.wrCart 0x0000 0xFF) ∧
    decode .vram (.bus 0x0200200) = .ok (.rdUnmapped 0x2002) ∧
    decode .vram (.bus 0x12FFF01) = .ok (.wrUnmapped 0x2FFF 0x01) := by decide

theorem test_decode_blitter_register_words :
    decode .registers (.bus 0x1400010) = .ok (.wrBr0 0 0x10) ∧ decode .registers (.bus 0x1400120) = .ok (.wrBr1 0 0x20) ∧
    decode .registers (.bus 0x17FFA10) = .ok (.wrBr2 0x7FF 0x10) ∧
    decode .registers (.bus 0x1400B20) = .ok (.wrBr3 1 0x20) ∧ decode .registers (.bus 0x1400403) = .ok (.wrBr4 0 0x03) ∧
    decode .registers (.bus 0x1400504) = .ok (.wrBr5 0 0x04) ∧ decode .registers (.bus 0x1400601) = .ok (.wrBr6 0 0x01) ∧
    decode .registers (.bus 0x14007F8) = .ok (.wrBr7 0 0xF8) ∧ decode .registers (.bus 0x0400000) = .ok (.rdBr 0) := by
  decide

theorem test_decode_window_words :
    decode .framebuffer (.bus 0x05A8500) = .ok (.rdFb 0x1A85) ∧
    decode .framebuffer (.bus 0x15A853C) = .ok (.wrFb 0x1A85 0x3C) ∧
    decode .vram (.bus 0x07FFF00) = .ok (.rdVram 0x3FFF) ∧ decode .vram (.bus 0x17FFF77) = .ok (.wrVram 0x3FFF 0x77) := by
  decide

theorem test_decode_window_region_rows :
    answeredIn .vram (.rdWin 0x3FFF) = false ∧ answeredIn .registers (.wrWin 0x3FFA 0x10) = false ∧
    encode (.rdWin 0x3FFF) = .bus 0x07FFF00 ∧ encode (.wrWin 0x3FFA 0x10) = .bus 0x17FFA10 := by decide

theorem test_decode_orchestrator_codes :
    decode .vram (.evt 0x00 []) = .ok .bstep ∧ decode .vram (.evt 0x01 [0x18, 0x01]) = .ok (.tick 280) ∧
    decode .vram (.evt 0x02 []) = .ok .iter ∧ decode .vram (.evt 0x03 []) = .ok .acploop ∧
    decode .vram (.evt 0x04 [0x80]) = .ok (.sample 0x80) ∧ decode .vram (.evt 0x05 []) = .ok .irqprop ∧
    decode .vram (.evt 0x06 [5]) = .ok (.vblank 5) ∧ decode .vram (.evt 0x30 [0xFF, 0x0F]) = .ok (.acpRd 0x0FFF) ∧
    decode .vram (.evt 0x31 [0x34, 0x12, 0x56]) = .ok (.acpWr 0x1234 0x56) := by decide

theorem test_decode_audio_codes :
    decode .vram (.evt 0x10 [0x80]) = .ok (.aPush 0x80) ∧ decode .vram (.evt 0x11 []) = .ok .aResample ∧
    decode .vram (.evt 0x12 []) = .ok .aCommit ∧ decode .vram (.evt 0x13 []) = .ok .aDrain ∧
    decode .vram (.evt 0x14 []) = .ok .aPop ∧
    decode .vram (.evt 0x15 [0x98, 0x9E, 0x36, 0, 0, 0, 0, 0, 126]) = .ok (.aRecreate 3579545 127) := by decide

theorem test_decode_host_codes :
    decode .vram (.evt 0x20 [1, 2, 3]) = .ok (.hLoadrom [1, 2, 3]) ∧
    decode .vram (.evt 0x21 [1, 7, 1]) = .ok (.hSetbtn .pad2 7 true) ∧ decode .vram (.evt 0x22 []) = .ok .hReadfb ∧
    decode .vram (.evt 0x23 []) = .ok .hInstant ∧ decode .vram (.evt 0x24 [0, 1]) = .ok (.hPoweron 256) ∧
    decode .vram (.evt 0x07 []) = .error (.reservedEvent 0x07) ∧
    decode .vram (.evt 0x21 [2, 0, 1]) = .error (.noSuchController 2) := by decide

theorem test_decode_table_words :
    decodeTableWord 17 0x100FF = some (.wrZp 0xFF 0) ∧ decodeTableWord 17 0x0FFFC = some (.rdCart 0x7FFC) ∧
    decodeTableWord 8 0x15 = some (.aRecreate 1 1) ∧ decodeTableWord 8 0xFF = none := by decide

/-! V-DEC-17: the region at the ends of every range. -/

theorem test_region_boundaries :
    ([0x00FF, 0x0100, 0x01FF, 0x0200, 0x1FFF, 0x2000, 0x2001, 0x2002, 0x2004, 0x2005, 0x2007, 0x2008, 0x2009, 0x200A,
      0x27FF, 0x2800, 0x280F, 0x2810, 0x2FFF, 0x3000, 0x3FFF, 0x4000, 0x7FFF, 0x8000, 0xFFFF] : List Addr).map region =
    [.zp, .stack, .stack, .ram, .ram, .acprst, .acpnmi, .unmapped, .unmapped, .banking, .dmaflags, .pad1, .pad2, .unmapped,
      .unmapped, .via, .via, .unmapped, .unmapped, .aram, .aram, .window, .window, .cart, .cart] := by decide

/-! Small states and one-step helpers. -/

/-- The state after reset with these control registers. -/
def withRegs (banking flags ctl : Byte) : State :=
  { State.reset with regs := { State.reset.regs with banking := banking, dmaFlags := flags, audioCtl := ctl } }

/-- A blit waiting to be entered (common start of the vectors V-BL), with these flags, extents and destination. -/
def blitState (flags width height vx vy : Byte) : State :=
  { State.reset with
    regs := { State.reset.regs with
      dmaFlags := flags, width := width, height := height, vx := vx, vy := vy, color := 0xFE, startStrobe := true } }

/-- The state after reset with these native samples and no resampler. -/
def withNative (nr : List Byte) : State := { State.reset with audio := { State.reset.audio with nr := nr } }

/-- The state after reset with the blank cartridge. -/
def launched : State := { State.reset with mem := { State.reset.mem with cart := some blankCart } }

/-- The state after reset with a cartridge and a raw operation waiting. -/
def waiting (raw : RawOp) : State := { launched with env := { Environment.empty with pending := [raw] } }

/-- The next state of an outcome, or the state after reset where there is none. -/
def after (r : Result) : State :=
  match r with
  | .next s => s
  | _ => State.reset

/-! One step each. -/

/-- V-DEC-1. -/
theorem test_zp_read_back :
    (after (exec (.rdZp 0xFF) (after (exec (.wrZp 0xFF 0x12) State.reset)))).env.output = [.busRead 0x00FF 0x12] := by decide

/-- V-DEC-2. -/
theorem test_stack_is_not_banked :
    (after (exec (.rdStack 0x00) (after (exec (.wrStack 0x00 0x34) (withRegs 0x80 0 0))))).env.output =
      [.busRead 0x0100 0x34] := by decide

/-- V-DEC-3 and V-DEC-4: the first and the last byte of a bank. -/
theorem test_ram_banks :
    (after (exec (.wrRam 0x0200 0x55) (withRegs 0x40 0 0))).mem.ram = [(0x1E00, 0x55)] ∧
    (after (exec (.wrRam 0x1FFF 0x66) (withRegs 0x80 0 0))).mem.ram = [(2 * 0x1E00 + 0x1DFF, 0x66)] := by decide

/-- R167: an operand that names no RAM address. -/
theorem test_ram_operand_below_the_region : exec (.rdRam 0x1FF) State.reset = .fault .noSuchCell := rfl

/-- V-DEC-5 and V-EXC-4. -/
theorem test_acp_strobes :
    (after (exec (.wrAcprst 0xFF) { State.reset with lines := { State.reset.lines with acpReset := false } })).lines.acpReset
      = true ∧ (after (exec (.wrAcpnmi 0x00) State.reset)).lines.acpNmi = true := by decide

/-- V-DEC-7 and V-DEC-8. -/
theorem test_nothing_to_read :
    (after (exec .rdWoBank (withRegs 0xC9 0 0))).env.diags = [.readOfWriteOnly 0x2005] ∧
    (after (exec .rdWoBank (withRegs 0xC9 0 0))).regs.banking = 0xC9 ∧
    (after (exec (.rdUnmapped 0x27FF) State.reset)).env.output = [.busRead 0x27FF 0] ∧
    (after (exec (.rdUnmapped 0x27FF) State.reset)).env.diags = [.readOfUnmapped 0x27FF] := by decide

/-- V-S9: the control registers keep all eight bits. -/
theorem test_control_registers :
    (after (exec (.wrBank 0xC9) State.reset)).regs.banking = 0xC9 ∧
    (after (exec (.wrAudio 0xFF) State.reset)).regs.audioCtl = 0xFF ∧
    (after (exec (.wrDma 0xB6) State.reset)).regs.dmaFlags = 0xB6 := by decide

/-- V-S9: the fields of `$C9`, `$37` and `$51`. -/
theorem test_control_fields :
    ramBank 0xC9 = 3 ∧ framebufferSel 0xC9 = true ∧ vramPage 0xC9 = 1 ∧ clipH 0x37 = true ∧ clipV 0x37 = true ∧
    clipH 0xC9 = false ∧ clipV 0xC9 = false ∧ vramPage 0x37 = 7 ∧ acpEnable 0xFF = true ∧ rateDivisor 0xFF = 127 ∧
    acpEnable 0x51 = false ∧ rateDivisor 0x51 = 81 := by decide

/-- V-S5 and V-DEC-9: the selects after a read of port 1, in each coupling. -/
theorem test_pad_selects :
    (after (exec .rdPad1 State.reset)).pad1.portSelect = true ∧ (after (exec .rdPad1 State.reset)).pad2.portSelect = false ∧
    (after (exec .rdPad1 { State.reset with cfg := { Params.default with padCoupling := .section3Literal } })).pad2.portSelect
      = true := by decide

/-- V-DEC-10, V-DEC-15 and V-DEC-16. -/
theorem test_dropped_writes :
    (after (exec (.wrPad1 0xFF) State.reset)).env.diags = [.writeToReadOnly 0x2008] ∧
    (after (exec (.wrCart 0 0xFF) State.reset)).env.diags = [.writeToReadOnly 0x8000] ∧
    (after (exec (.wrUnmapped 0x2003 0x01) State.reset)).env.diags = [.writeToUnmapped 0x2003] := by decide

/-- V-DEC-11. -/
theorem test_via_is_silent :
    (after (exec (.rdVia 0xF) (after (exec (.wrVia 0xF 0x7F) State.reset)))).env.output = [.busRead 0x280F 0] ∧
    (after (exec (.rdVia 0xF) (after (exec (.wrVia 0xF 0x7F) State.reset)))).env.diags = [] := by decide

/-- V-DEC-12. -/
theorem test_aram_is_shared :
    (after (exec (.acpRd 0xFFFF) (after (exec (.wrAram 0xFFF 0x4C) State.reset)))).env.output = [.acpRead 0xFFFF 0x4C] ∧
    (after (exec (.acpWr 0x1234 0x56) State.reset)).mem.aram = [(0x234, 0x56)] := by decide

/-- V-WIN-1: the register mode wins over the framebuffer mode. -/
theorem test_window_precedence :
    (after (step { waiting (.bus 0x1400005) with regs := { State.reset.regs with dmaFlags := 0x21 } })).regs.vx = 5 ∧
    (after (step { waiting (.bus 0x1400005) with regs := { State.reset.regs with dmaFlags := 0x21 } })).mem.fb = [] := by
  decide

/-- V-WIN-3. -/
theorem test_start_write :
    (after (exec (.wrBr6 0 0) { withRegs 0 1 0 with blit := { State.reset.blit with irqPending := true } })).blit.irqPending
      = false ∧ (after (exec (.wrBr6 0 0) (withRegs 0 1 0))).regs.startStrobe = true := by decide

/-- V-WIN-4. -/
theorem test_register_read :
    (after (exec (.rdBr 0) (withRegs 0 1 0))).env.diags = [.readOfWriteOnly 0x4000] ∧
    (after (exec (.rdBr 0) (withRegs 0 1 0))).env.output = [.busRead 0x4000 0] := by decide

/-- V-WIN-5: FB[1][53][5]. -/
theorem test_framebuffer_write :
    (after (exec (.wrFb 0x1A85 0x3C) (withRegs 0x08 0x20 0))).mem.fb = [(16384 + 53 * 128 + 5, 0x3C)] := by decide

/-- V-WIN-8: VRAM[5][127][255]; the operand form of the region row does the same. -/
theorem test_vram_write :
    (after (exec (.wrVram 0x3FFF 0x77)
      { withRegs 5 0 0 with regs := { (withRegs 5 0 0).regs with gx := 0x80 } })).mem.vram =
      [((5 * 256 + 127) * 256 + 255, 0x77)] ∧
    (after (exec (.wrWin 0x3FFF 0x77)
      { withRegs 5 0 0 with regs := { (withRegs 5 0 0).regs with gx := 0x80 } })).mem.vram =
      [((5 * 256 + 127) * 256 + 255, 0x77)] := by decide

/-- V-WIN-2: the repetitions of the registers. -/
theorem test_register_mirrors :
    (after (exec (.wrWin 0x3FFA 0x10) (withRegs 0 1 0))).regs.gx = 0x10 ∧
    (after (exec (.wrWin 0x000B 0x20) (withRegs 0 1 0))).regs.gy = 0x20 ∧
    (after (exec (.wrWin 0x0007 0xF8) (withRegs 0 1 0))).regs.color = 0xF8 := by decide

/-- V-S7, V-DEC-13 and V-DEC-14: which byte of an image each variant shows, for every image. -/
theorem test_cartridge_windows (a : Vector Byte 0x2000) (b : Vector Byte 0x8000) (m : Vector Byte 0x200000) :
    cartByte (.cart8K a) 0x2000 = a[0] ∧ cartByte (.cart8K a) 0x7FFF = a[0x1FFF] ∧ cartByte (.cart32K b) 0x7FFF = b[0x7FFF] ∧
    cartByte (.cart2M m) 0 = m[0x1F8000] ∧ cartByte (.cart2M m) 0x7FFF = m[0x1FFFFF] := ⟨rfl, rfl, rfl, rfl, rfl⟩

/-- V-S3: the pixel, then the completion, then idle. -/
theorem test_one_by_one_colorfill :
    (blitSteps 1 (blitState 0x49 1 1 5 6)).mem.fb = [(6 * 128 + 5, 0x01)] ∧
    (blitSteps 2 (blitState 0x49 1 1 5 6)).blit.irqPending = true ∧
    (blitSteps 2 (blitState 0x09 1 1 5 6)).blit.irqPending = false ∧
    (blitSteps 3 (blitState 0x49 1 1 5 6)).blit = (blitSteps 2 (blitState 0x49 1 1 5 6)).blit := by decide

/-- V-BL-4: (3, 0) takes one step and (0, 3) three, with two pixels. -/
theorem test_degenerate_blits :
    (blitSteps 1 (blitState 0x89 3 0 0 0)).blit.bstate = .idle ∧ (blitSteps 1 (blitState 0x89 3 0 0 0)).mem.fb = [] ∧
    (blitSteps 3 (blitState 0x89 0 3 0 0)).blit.bstate = .idle ∧
    (blitSteps 3 (blitState 0x89 0 3 0 0)).mem.fb = [(128, 1), (256, 1)] := by decide

/-- V-BL-7: the destination wraps at 256. -/
theorem test_destination_wraps :
    (blitSteps 11 (blitState 0x89 10 1 250 0)).mem.fb = [(0, 1), (1, 1), (2, 1), (3, 1)] ∧
    (blitSteps 11 (blitState 0x89 10 1 250 0)).blit.bstate = .idle := by decide

/-- V-BL-13: the x flip blit. -/
theorem test_flip_blit :
    (blitSteps 1 (blitState 0x89 0x90 0x10 0 0)).blit.offsetX = 255 ∧
    (blitSteps 2 (blitState 0x89 0x90 0x10 0 0)).blit.offsetX = 16 ∧
    (blitSteps 2 (blitState 0x89 0x90 0x10 0 0)).blit.offsetY = 0 ∧
    (blitSteps 2 (blitState 0x89 0x90 0x10 0 0)).mem.fb = [(0, 1)] := by decide

/-- V-BL-17: a strobe outside register mode is used up. -/
theorem test_discarded_start :
    (after (exec .bstep (blitState 0x00 1 1 0 0))).regs.startStrobe = false ∧
    (after (exec .bstep (blitState 0x00 1 1 0 0))).blit.bstate = .idle := by decide

/-- V-BL-18: tiled and linear source coordinates. -/
theorem test_source_coordinates :
    sourceCoord false 0xC8 0 = 72 ∧ sourceCoord false 0xC8 7 = 79 ∧ sourceCoord false 0xC8 8 = 64 ∧
    sourceCoord false 0x0F 1 = 0 ∧ sourceCoord true 120 8 = 0 ∧ sourceCoord true 0x7E 2 = 0 ∧
    sourceOffset .specDefault 0x90 3 = 13 ∧ sourceOffset .specDefault 0x10 3 = 3 := by decide

/-- V-S4: a sampled 0 is transparent, unless `opaque` is set (V-BL-6). -/
theorem test_transparency :
    (blitSteps 1 { blitState 0x81 1 1 10 20 with mem := { State.reset.mem with vram := [(0, 0)], fb := [(2570, 0xEE)] } }).mem.fb
      = [(2570, 0x00)] ∧
    (blitSteps 1 { blitState 0x01 1 1 10 20 with mem := { State.reset.mem with vram := [(0, 0)], fb := [(2570, 0xEE)] } }).mem.fb
      = [(2570, 0xEE)] := by decide

/-- V-HOST-7, on V-S3's blit. -/
theorem test_instant_blit :
    (blitUntilIdle 3 (blitState 0x49 1 1 5 6)).blit = (blitSteps 2 (blitState 0x49 1 1 5 6)).blit ∧
    (blitUntilIdle 3 (blitState 0x49 1 1 5 6)).regs.startStrobe = false := by decide

/-- V-ORC-1: the budgets. -/
theorem test_budgets :
    [0, 279, 280, 1000000, 16667000, 33000000, 33000001, 1000000000].map (fun e => cyclesOf (clampElapsed e)) =
      [0, 0, 1, 3579, 59660, 118124, 59660, 59660] ∧
    (budget 33000001 State.reset).env.diags = [.timingAnomaly 33000001] ∧
    (budget 33000000 State.reset).env.diags = [] := by decide

/-- V-ORC-2: a budget of 3 (elapsed 839 ns) and CPU steps of two cycles. -/
theorem test_tick :
    (after (exec (.tick 839)
      { launched with env := { Environment.empty with
          cpuIn := [⟨⟨.write 0x0000 1, [.write 0x0001 2]⟩, []⟩, ⟨⟨.write 0x0002 3, [.write 0x0003 4]⟩, []⟩,
            ⟨⟨.read 0, []⟩, []⟩] } })).orch =
      { cycleCounter := 0, acpCycleCounter := 0, lastTick := 839, remainingCycles := -1, acpBudget := 16,
        vblankCountdown := 59655, sampleCountdown := 0 } := by decide

/-- V-ORC-5, one iteration: the ACP is disabled, its budget grows by four times the cycles. -/
theorem test_iteration_without_the_acp :
    (after (exec .iter { launched with env := { Environment.empty with
        cpuIn := [⟨⟨.write 0 1, [.write 1 2, .write 2 3]⟩, []⟩] } })).orch.acpBudget = 12 := by decide

/-- R396 and R8: a CPU that would write 1, and writes 2 where it samples `cpu_irq` and a reset. -/
theorem test_cpu_samples_its_lines :
    [false, true].map (fun irq =>
      (after (exec .iter { launched with
        lines := { State.reset.lines with cpuIrq := irq }
        env := { Environment.empty with
          cpuIn := [⟨⟨.write 0 1, []⟩, [(⟨true, false, true⟩, ⟨.write 0 2, []⟩)]⟩] } })).mem.zp) =
      [[(0, 1)], [(0, 2)]] := by decide

/-- R218: after a write to the framebuffer a CPU step under the one-owner contract does not set `dma_enable`. -/
theorem test_one_owner :
    [CpuContract.oneOwner, .anySequence].map (fun k =>
      (cpuConform { withRegs 0 0x20 0 with cfg := { Params.default with cpuContract := k } }
        ⟨.write 0x4000 1, [.write 0x2007 0x21, .write 0x2007 0x22]⟩).rest) =
      [[.write 0x2007 0x22], [.write 0x2007 0x21, .write 0x2007 0x22]] ∧
    (cpuConform { withRegs 0 0x20 0 with cfg := { Params.default with cpuContract := .oneOwner } }
      ⟨.write 0x4000 1, [.write 0x4001 2, .read 0]⟩).rest = [.write 0x4001 2, .read 0] := by decide

/-- V-ORC-3 and V-ORC-4. -/
theorem test_vblank :
    (after (exec (.vblank 5) { withRegs 0 0x04 0 with
      orch := { State.reset.orch with vblankCountdown := 3 } })).orch.vblankCountdown = 59657 ∧
    (after (exec (.vblank 5) { withRegs 0 0x04 0 with
      orch := { State.reset.orch with vblankCountdown := 3 } })).lines.cpuNmi = true ∧
    (after (exec (.vblank 5) { withRegs 0 0x00 0 with
      orch := { State.reset.orch with vblankCountdown := 3 } })).lines.cpuNmi = false := by decide

/-- V-ORC-6: budget 8, steps of 3, 3 and 4 cycles. -/
theorem test_acp_loop :
    (after (exec .acploop
      { State.reset with
        orch := { State.reset.orch with acpBudget := 8, sampleCountdown := 100 }
        env := { Environment.empty with
          acpIn := [⟨⟨.read 0, [.read 1, .read 2], 0⟩, []⟩, ⟨⟨.read 0, [.read 1, .read 2], 0⟩, []⟩,
            ⟨⟨.read 0, [.read 1, .read 2, .read 3], 0⟩, []⟩] } })).orch =
      { State.reset.orch with acpBudget := -2, sampleCountdown := 90 } := by decide

/-- R300 and R295: two sample events of one loop, with 127 samples waiting: the second push is dropped where the drain waits
for the end of the loop, and none is where every push is drained. -/
theorem test_burst_of_sample_events :
    [DrainPoint.afterLoop, .everySample].map (fun d =>
      (after (exec .acploop
        { withRegs 0 0 0x81 with
          cfg := { Params.default with drainPoint := d }
          orch := { State.reset.orch with acpBudget := 8, sampleCountdown := 4 }
          audio := { State.reset.audio with nr := List.replicate 127 0x80, rs := some ⟨⟨3579545, 1⟩, 0, 0, none, []⟩ }
          env := { Environment.empty with
            acpIn := [⟨⟨.read 0, [.read 1, .read 2, .read 3], 1⟩, []⟩, ⟨⟨.read 0, [.read 1, .read 2, .read 3], 2⟩, []⟩] } })).env.diags) =
      [[.nativeOverflow 2], []] := by decide +kernel

/-- V-ORC-7 and V-AUD-11: the first sample event. -/
theorem test_sample_event :
    (after (exec (.sample 0x80) (withRegs 0 0 0xFF))).orch.sampleCountdown = 508 ∧
    (after (exec (.sample 0x80) (withRegs 0 0 0xFF))).lines.acpIrq = true ∧
    (after (exec (.sample 0x80) (withRegs 0 0 0xFF))).audio =
      { nr := [0x80], rs := some ⟨⟨3579545, 127⟩, 0, 0, none, []⟩, aq := [], ring := [] } := by decide

/-- V-ORC-10: a divisor of 0 leaves the pipeline alone. -/
theorem test_sample_event_without_a_rate :
    (after (exec (.sample 0x80) { withRegs 0 0 0x80 with audio := (withNative [1, 2, 3, 4, 5]).audio })).audio =
      (withNative [1, 2, 3, 4, 5]).audio := by decide

/-- V-ORC-8. -/
theorem test_irq_propagation :
    (after (exec .irqprop { State.reset with blit := { State.reset.blit with irqPending := true } })).lines.cpuIrq = true := by
  decide

/-- V-AUD-1. -/
theorem test_sample_conversion :
    ([0, 1, 64, 127, 128, 129, 191, 254, 255] : List Byte).map toF32 =
      [0xBF800000, 0xBF7DFDFE, 0xBEFEFEFE, 0xBB808080, 0x3B808100, 0x3C40C100, 0x3EFEFF00, 0x3F7DFDFE, 0x3F800000] := by
  decide +kernel

/-- V-AUD-2 and V-AUD-12. -/
theorem test_native_ring_bounds :
    (after (exec .aResample (withNative (List.replicate 63 0x80)))).env.output = [.resample .exhausted] ∧
    (after (exec (.aPush 0x80) (withNative (List.replicate 128 0x80)))).env.diags = [.nativeOverflow 0x80] ∧
    (after (exec (.aPush 0x80) (withNative (List.replicate 127 0x80)))).audio.nr.length = 128 := by decide +kernel

/-- V-AUD-4: the number of outputs of the first pull, and the first input numbers for d = 127. -/
theorem test_zero_order_hold :
    [127, 81, 75, 74, 1].map (fun d => zohEnd (nativeRate d) 64) = [109, 70, 65, 64, 1] ∧
    (List.range 8).map (zohIndex (nativeRate 127)) = [0, 0, 1, 1, 2, 2, 3, 4] := by decide +kernel

/-- V-AUD-5, V-AUD-6 and V-AUD-7. -/
theorem test_commit :
    (audioCommit { State.reset with audio := { State.reset.audio with
      aq := List.replicate 70 0, ring := List.replicate 504 silence } }).1 = .committed ∧
    (audioCommit { State.reset with audio := { State.reset.audio with
      aq := List.replicate 64 0, ring := List.replicate 505 silence } }).1 = .noRoom ∧
    (audioCommit { State.reset with audio := { State.reset.audio with aq := List.replicate 63 0 } }).1 = .notReady := by
  decide +kernel

/-- V-AUD-11, event 64: one pull of 64 samples and one block. -/
theorem test_drain :
    (after (exec .aDrain { withNative (List.replicate 64 0x80) with
      audio := { State.reset.audio with
        nr := List.replicate 64 0x80, rs := some ⟨⟨3579545, 74⟩, 0, 0, none, []⟩ } })).audio.ring =
      [Vector.replicate 64 0x3B808100] := by decide +kernel

/-- V-AUD-8 and V-AUD-9. -/
theorem test_pop :
    (after (exec .aPop State.reset)).env.output = [.block (Vector.replicate 64 0)] ∧
    (after (exec .aPop { State.reset with audio := { State.reset.audio with
      ring := [Vector.replicate 64 1, Vector.replicate 64 2] } })).audio.ring = [Vector.replicate 64 2] := by decide +kernel

/-- V-AUD-10. -/
theorem test_recreate :
    (after (exec (.aRecreate 3579545 74) (withNative [1, 2, 3]))).audio =
      { nr := [], rs := some ⟨⟨3579545, 74⟩, 0, 0, none, []⟩, aq := [], ring := [] } := by decide

/-- V-HOST-1 and V-HOST-4. -/
theorem test_load_rom_rejects :
    exec (.hLoadrom []) State.reset = .next (handedOut State.reset (.configError 0)) := rfl

/-- V-HOST-2, for an 8 KB image. -/
theorem test_load_rom_accepts (bytes : List Byte) (h : bytes.length = 0x2000) :
    (cartOfImage bytes).isSome = true := by simp [cartOfImage, h]

/-- V-HOST-5. -/
theorem test_set_button :
    (after (exec (.hSetbtn .pad1 3 true) State.reset)).pad1 = { pressed := 8, portSelect := false } ∧
    (after (exec (.hSetbtn .pad1 3 false) { State.reset with pad1 := ⟨0xFF, true⟩ })).pad1 =
      { pressed := 0xF7, portSelect := true } := by decide

/-- U9: a button outside the default set of eight. -/
theorem test_set_button_refuses : exec (.hSetbtn .pad2 8 true) State.reset = .refused .noSuchButton := rfl

/-- V-HOST-6. -/
theorem test_read_out : (after (exec .hReadfb (withRegs 0 0x02 0))).env.output = [.frame true] := by decide

/-- V-RST-1. -/
theorem test_power_on :
    (after (exec (.hPoweron 7) (withRegs 1 2 3))).regs = State.reset.regs ∧
    (after (exec (.hPoweron 7) (withRegs 1 2 3))).orch = { State.reset.orch with lastTick := 7 } := by decide

/-- The very next step runs the operation of a table word. -/
theorem test_fetch_word :
    (after (step (State.reset.withFetchWord 17 0x12005))).regs.banking = 0 ∧
    (after (step (State.reset.withFetchWord 17 0x14006))).regs.startStrobe = true ∧
    (after (step (State.reset.withFetchWord 8 0x10))).audio.nr = [0] := by decide

/-! Witnesses: for every statement with hypotheses, concrete states and operands that meet them, each clause at a boundary
of its range. Where a hypothesis only names a value by an equation, the value is the one the equation gives. -/

theorem witness_StepRunsTheDecodedInstruction :
    (waiting (.bus 0x10010AA)).env.pending = .bus 0x10010AA :: [] ∧
    decode (waiting (.bus 0x10010AA)).windowMode (.bus 0x10010AA) = .ok (.wrZp 0x10 0xAA) ∧
    wellFormed (.wrZp 0x10 0xAA) = true := ⟨rfl, by decide, rfl⟩

theorem witness_StepWithoutAnOperation :
    State.reset.env.pending = [] ∧ (waiting (.evt 0x07 [])).env.pending = .evt 0x07 [] :: [] ∧
    ((0x07 : Byte).toNat ∉ [0x00, 0x01, 0x02, 0x03, 0x04, 0x05, 0x06, 0x10, 0x11, 0x12, 0x13, 0x14, 0x15, 0x20, 0x21, 0x22,
      0x23, 0x24, 0x30, 0x31]) ∧
    (waiting (.evt 0x21 [2])).env.pending = .evt 0x21 [2] :: [] ∧ 2 ≤ (([2] : List Byte).getD 0 0).toNat :=
  ⟨rfl, rfl, by decide, rfl, by decide⟩

theorem witness_DecodeOfEncode :
    (wellFormed (.tick (2 ^ 64 - 1)) = true ∧ answeredIn .vram (.tick (2 ^ 64 - 1)) = true) ∧
    (wellFormed (.wrBr7 0x7FF 0xFF) = true ∧ answeredIn .registers (.wrBr7 0x7FF 0xFF) = true) ∧
    (wellFormed (.rdRam 0x200) = true ∧ answeredIn .framebuffer (.rdRam 0x200) = true) := by decide

theorem witness_WindowModeIsStrictPriority :
    (waiting (busRead (winAddr 0x3FFF))).env.pending = busRead (winAddr 0x3FFF) :: [] ∧
    (waiting (busWrite (winAddr 0) 0x05)).env.pending = busWrite (winAddr 0) 0x05 :: [] := ⟨rfl, rfl⟩

/-- In each of the three modes; the first has both bits set. -/
theorem witness_WindowWritesKeepToTheirMode :
    (waiting (busWrite (winAddr 0) 0x05)).env.pending = busWrite (winAddr 0) 0x05 :: [] ∧
    (withRegs 0 0x21 0).regs.dmaFlags.getLsbD 0 = true ∧
    ((withRegs 0 0x20 0).regs.dmaFlags.getLsbD 0 = false ∧ (withRegs 0 0x20 0).regs.dmaFlags.getLsbD 5 = true) ∧
    ((withRegs 0 0x00 0).regs.dmaFlags.getLsbD 0 = false ∧ (withRegs 0 0x00 0).regs.dmaFlags.getLsbD 5 = false) :=
  ⟨rfl, by decide, by decide, by decide⟩

/-- Also of TickIsItsIterations: a cartridge is loaded. -/
theorem witness_BusAccessIsTheDecodedInstruction : launched.mem.cart = some blankCart := rfl

/-- The second clause for an operation without an operand and for one with two. -/
theorem witness_TransactionsCountOneCycle :
    ((waiting (.bus 0x12000FF)).env.pending = .bus 0x12000FF :: [] ∧
      (waiting (.bus 0x12000FF)).mem.cart = some blankCart) ∧
    exec .bstep State.reset = .next (blitStep State.reset) ∧
    exec (.aRecreate 3579545 74) State.reset = .next (audioRecreate ⟨3579545, 74⟩ State.reset) := ⟨⟨rfl, rfl⟩, rfl, rfl⟩

theorem witness_EveryOperationCompletes :
    (wellFormed .iter = true ∧ Launched launched) ∧
    (wellFormed .aDrain = true ∧ (withNative (List.replicate 63 0)).audio.nr.length < 64) ∧
    (wellFormed .aResample = true ∧ (after (exec (.aRecreate 1 1) State.reset)).audio.rs ≠ none) ∧
    (wellFormed (.hSetbtn .pad1 7 true) = true ∧ (7 : Byte).toNat < State.reset.cfg.buttons) :=
  ⟨⟨rfl, _, rfl⟩, ⟨rfl, by decide⟩, ⟨rfl, by decide⟩, ⟨rfl, by decide⟩⟩

theorem witness_OnlyPadPortsHaveReadEffects :
    (waiting (busRead 0x2007)).env.pending = busRead 0x2007 :: [] ∧ (waiting (busRead 0x2007)).mem.cart = some blankCart ∧
    (0x2007 : Addr) ≠ 0x2008 ∧ (0x2007 : Addr) ≠ 0x2009 := ⟨rfl, rfl, by decide, by decide⟩

/-- Also of ReadsReturnTheStoredByte: both ends of the region; a bank write that stays in the bank and one that leaves
it. -/
theorem witness_RamBanksAreIsolated :
    0x200 ≤ (0x200 : BitVec 13).toNat ∧ 0x200 ≤ (0x1FFF : BitVec 13).toNat ∧
    (0x3F : Byte).extractLsb' 6 2 = (withRegs 0x00 0 0).regs.banking.extractLsb' 6 2 ∧
    (0xC0 : Byte).extractLsb' 6 2 ≠ (withRegs 0x00 0 0).regs.banking.extractLsb' 6 2 := by decide

/-- The state after reset with another pad coupling. -/
def coupled (p : PadCoupling) : State := { State.reset with cfg := { Params.default with padCoupling := p } }

theorem witness_PadReads :
    (coupled .independent).cfg.padCoupling = .independent ∧ (coupled .resetOther).cfg.padCoupling = .resetOther ∧
    (coupled .section3Literal).cfg.padCoupling = .section3Literal := ⟨rfl, rfl, rfl⟩

/-- The state after reset with a cartridge. -/
def withCart (c : Cart) : State := { State.reset with mem := { State.reset.mem with cart := some c } }

theorem witness_CartridgeReads :
    (withCart (.cart8K (Vector.replicate 0x2000 0))).mem.cart = some (.cart8K (Vector.replicate 0x2000 0)) ∧
    (withCart (.cart32K (Vector.replicate 0x8000 0))).mem.cart = some (.cart32K (Vector.replicate 0x8000 0)) ∧
    (withCart (.cart2M (Vector.replicate 0x200000 0))).mem.cart = some (.cart2M (Vector.replicate 0x200000 0)) :=
  ⟨rfl, rfl, rfl⟩

/-- Also of LoadedImageAppearsInTheWindow: an image of each legal length. -/
theorem witness_LoadRomAccepts :
    (List.replicate 0x2000 (0 : Byte)).length ∈ [0x2000, 0x8000, 0x200000] ∧
    (List.replicate 0x8000 (0 : Byte)).length ∈ [0x2000, 0x8000, 0x200000] ∧
    (List.replicate 0x200000 (0 : Byte)).length ∈ [0x2000, 0x8000, 0x200000] := by
  simp only [List.length_replicate]; decide

theorem witness_LoadRomRejects :
    ([] : List Byte).length ∉ [0x2000, 0x8000, 0x200000] ∧
    (List.replicate 0x1FFF (0 : Byte)).length ∉ [0x2000, 0x8000, 0x200000] := by
  simp only [List.length_replicate]; decide

/-- A 2 × 2 colorfill at (5, 127) after `n` of its steps. -/
def fillAfter (n : Nat) : State := blitSteps n (blitState 0x89 2 2 5 127)

theorem witness_BstepObservesTheStart :
    (State.reset.regs.startStrobe = false ∧ State.reset.blit.bstate = .idle) ∧
    ((blitState 0x00 1 1 0 0).regs.startStrobe = true ∧ (blitState 0x00 1 1 0 0).blit.bstate = .idle ∧
      (blitState 0x00 1 1 0 0).regs.dmaFlags.getLsbD 0 = false) ∧
    ((wrStart (fillAfter 1)).regs.startStrobe = true ∧ (wrStart (fillAfter 1)).blit.bstate = .running) ∧
    ((blitState 0x01 1 1 0 0).regs.startStrobe = true ∧ (blitState 0x01 1 1 0 0).blit.bstate = .idle ∧
      (blitState 0x01 1 1 0 0).regs.dmaFlags.getLsbD 0 = true) := by decide

/-- The statement applied to the last step, whose wrap reaches the height (offset (2, 1) becomes (0, 2)), and to the second
step with `dma_enable` cleared (offset (1, 0), no wrap). -/
theorem witness_BstepWithoutAPixel (h : Obligations.BstepWithoutAPixel) :
    (∃ t, exec .bstep (fillAfter 4) = .next t ∧ t.blit.bstate = .idle) ∧
    ∃ t, exec .bstep (wrDma 0x88 (fillAfter 1)) = .next t ∧ t.blit.offsetX = 2 :=
  ⟨⟨_, (h (fillAfter 4) 0 2 (by decide) (by decide) (by decide) (by decide)).1 (by decide), rfl⟩,
    _, (h (wrDma 0x88 (fillAfter 1)) 1 0 (by decide) (by decide) (by decide) (by decide)).2 (by decide) (by decide),
      by decide⟩

/-- The statement applied to a step that draws at (6, 127), and to one whose place (5, 128) is off the screen. -/
theorem witness_BstepDrawsItsPixel (h : Obligations.BstepDrawsItsPixel) :
    (∃ t, exec .bstep (fillAfter 1) = .next t ∧ StoresByte (fillAfter 1) t .fb (127 * 128 + 6) 0x01) ∧
    ∃ t, exec .bstep (fillAfter 2) = .next t ∧ SameStorage (fillAfter 2) t := by
  obtain ⟨t, e, -, k, -⟩ := h.2 (fillAfter 1) 1 0 1 0 6 127 0x01 1 0 (by decide) (by decide) (by decide) (by decide)
    (by decide) (by decide) (by decide) (by decide) (by decide) (by decide) (by rfl) (by decide) (by decide)
  obtain ⟨u, e', -, -, k'⟩ := h.2 (fillAfter 2) 0 1 0 1 5 128 0x01 0 1 (by decide) (by decide) (by decide) (by decide)
    (by decide) (by decide) (by decide) (by decide) (by decide) (by decide) (by rfl) (by decide) (by decide)
  exact ⟨⟨t, e, k (by decide)⟩, u, e', k' (by decide)⟩

/-- What the statements about a whole blit ask of its start. -/
def entering (s : State) : Bool := s.blit.bstate == .idle && s.regs.startStrobe && s.regs.dmaFlags.getLsbD 0

/-- The two ends of the extents, and one step inside the blit. -/
theorem witness_NonFlipBlitTakesWidthTimesHeightPlusOne :
    (entering (blitState 0x89 1 1 0 0) = true ∧ 1 ≤ (1 : Byte).toNat ∧ (1 : Byte).toNat ≤ 127) ∧
    (entering (blitState 0x89 127 255 0 0) = true ∧ 1 ≤ (127 : Byte).toNat ∧ (127 : Byte).toNat ≤ 127 ∧
      1 ≤ (255 : Byte).toNat ∧ 32385 ≤ (127 : Byte).toNat * (255 : Byte).toNat) := by decide

/-- A rectangle that starts off the screen; a cell it does not reach. -/
theorem witness_ColorfillFillsItsRectangle :
    (entering (blitState 0x09 3 1 254 127) = true ∧ (blitState 0x09 3 1 254 127).regs.dmaFlags.getLsbD 3 = true ∧
      (blitState 0x09 3 1 254 127).regs.color ≠ 0xFF ∧ 1 ≤ (3 : Byte).toNat ∧ (3 : Byte).toNat ≤ 127 ∧
      1 ≤ (1 : Byte).toNat) ∧
    (2 < (3 : Byte).toNat ∧ 0 < (1 : Byte).toNat ∧ 0 = ((254 : Byte).toNat + 2) % 256 ∧
      127 = ((127 : Byte).toNat + 0) % 256) ∧
    (MemId.ram ≠ .fb) := by decide

theorem witness_DegenerateBlits :
    (entering (blitState 0x89 127 0 0 0) = true ∧ (127 : Byte).toNat ≤ 127) ∧
    (entering (blitState 0x89 0 1 0 0) = true ∧ 1 ≤ (1 : Byte).toNat) ∧
    (entering (blitState 0x89 0 3 0 0) = true ∧ 2 < (3 : Byte).toNat) := by decide

theorem witness_FlipBlitEndsInTwoSteps :
    (entering (blitState 0x89 128 1 0 0) = true ∧ 128 ≤ (128 : Byte).toNat ∧ (1 : Byte) ≠ 0) ∧
    (entering (blitState 0x89 255 255 0 0) = true ∧ 128 ≤ (255 : Byte).toNat ∧ (255 : Byte) ≠ 0) ∧
    (entering (blitState 0xC9 128 0 0 0) = true ∧ 128 ≤ (128 : Byte).toNat ∧
      (blitState 0xC9 128 0 0 0).regs.height = 0) := by decide

theorem witness_BlitterWritesOnlyTheDrawTarget :
    exec .bstep (blitState 0x89 2 2 5 127) = .next (fillAfter 1) ∧
    16384 / 16384 ≠ (if (blitState 0x89 2 2 5 127).regs.banking.getLsbD 3 = true then 1 else 0) := ⟨rfl, by decide⟩

theorem witness_RunningBlitEnds : (fillAfter 1).blit.bstate = .running := by decide

/-- A CPU step and an ACP step given as inputs: the CPU writes `AUDIO_CTL` on its reset, the ACP presents `$80`. -/
def withInputs (budget countdown : Int) : State :=
  { launched with
    orch := { State.reset.orch with acpBudget := budget, sampleCountdown := countdown }
    env := { Environment.empty with
        cpuIn := [⟨⟨.read 0, []⟩, [(⟨false, false, true⟩, ⟨.write 0x2006 0xFF, []⟩)]⟩]
        acpIn := [⟨⟨.read 0, [], 0x80⟩, []⟩] } }

/-- A CPU step that writes the framebuffer, which the window shows. -/
def withFramebufferWrite : State :=
  { launched with
    regs := { State.reset.regs with dmaFlags := 0x20 }
    env := { Environment.empty with cpuIn := [⟨⟨.write 0x4000 1, []⟩, []⟩] }
    mem := { launched.mem with fb := [(0, 0)] }
    cfg := { Params.default with cpuContract := .oneOwner } }

/-- What the clause on the owner of `FB` asks: the contract, and a byte that the CPU's step changes. -/
theorem witness_IterationIsItsSevenSteps_owner :
    withFramebufferWrite.cfg.cpuContract = .oneOwner ∧
    (cpuStep blankCart withFramebufferWrite).byte .fb 0 ≠ withFramebufferWrite.byte .fb 0 := by decide

/-- The statement applied to a CPU step from the queue that enables the ACP, and to a free step of a disabled one. -/
theorem witness_IterationIsItsSevenSteps (h : Obligations.IterationIsItsSevenSteps) :
    (∃ t, exec .iter (withInputs 0 0) = .next t) ∧
    ((cpuStep blankCart launched).regs.audioCtl.getLsbD 7 = false → ∃ t, exec .iter launched = .next t) := by
  obtain ⟨⟨t, e, -⟩, -⟩ := h (withInputs 0 0) _ _ _ _ _ _ blankCart ⟨.write 0x2006 0xFF, []⟩ _ rfl
    (.inl ⟨_, [], rfl, by decide, rfl⟩) rfl rfl rfl (.inl ⟨by decide, rfl⟩) rfl rfl
  refine ⟨⟨t, e⟩, fun hd => ?_⟩
  obtain ⟨⟨u, e', -⟩, -⟩ := h launched _ _ _ _ _ _ blankCart
    (cpuConform launched (Config.cpuStep 0 ⟨false, false, true⟩)) _ rfl (.inr ⟨rfl, rfl, rfl⟩) rfl rfl rfl
    (.inr ⟨hd, rfl⟩) rfl rfl
  exact ⟨u, e'⟩

/-- These inputs in the reading that drains after the ACP's loop, with divisor 127. -/
def withInputsAfterLoop (budget countdown : Int) : State :=
  { withInputs budget countdown with
    regs := { State.reset.regs with audioCtl := 0x7F }
    cfg := { Params.default with drainPoint := .afterLoop } }

theorem witness_AcpLoopIsItsPasses :
    (withInputs 1 1).cfg.drainPoint = .everySample ∧
    ((withInputsAfterLoop 1 1).cfg.drainPoint = .afterLoop ∧
      (withInputsAfterLoop 1 1).regs.audioCtl.extractLsb' 0 7 ≠ 0) := by decide

/-- The statement applied to a countdown of 1, which the one cycle of the step uses up, to a countdown of 2, which it does
not, to a free step, and to a countdown of 1 in the reading that drains after the loop. -/
theorem witness_AcpPassIsTheLoopBody (h : Obligations.AcpPassIsTheLoopBody) :
    (acpPass (withInputs 1 1)).lines.acpIrq = true ∧ (acpPass (withInputs 1 2)).orch.sampleCountdown = 1 ∧
    (0 < (acpPass launched).orch.sampleCountdown ∨ (acpPass launched).orch.sampleCountdown ≤ 0) ∧
    (acpPass (withInputsAfterLoop 1 1)).audio.nr = [0x80] := by
  have h1 := (h (withInputs 1 1) _ _ _ ⟨.read 0, [], 0x80⟩ (.inl ⟨_, [], rfl, by decide, rfl⟩) rfl rfl).2.1 (by decide)
    (.inl rfl)
  have h2 := (h (withInputs 1 2) _ _ _ ⟨.read 0, [], 0x80⟩ (.inl ⟨_, [], rfl, by decide, rfl⟩) rfl rfl).1 (by decide)
  have _h3 := h launched _ _ _ (Config.acpStep 0 ⟨false, false, true⟩) (.inr ⟨rfl, rfl, rfl⟩) rfl rfl
  have h4 := (h (withInputsAfterLoop 1 1) _ _ _ ⟨.read 0, [], 0x80⟩ (.inl ⟨_, [], rfl, by decide, rfl⟩) rfl rfl).2.2
    (by decide) rfl 127 _ _ rfl (by decide) (by decide) rfl (.inr ⟨fun _ k => (nomatch k), rfl⟩)
  have h1' := congrArg (fun o => (after o).lines.acpIrq) h1
  have h4' := congrArg (fun o => (after o).audio.nr) h4
  exact ⟨h1'.symm.trans (by decide), by rw [h2]; decide, by omega, h4'.symm.trans (by decide)⟩

theorem witness_AcpReachesAudioRamOnly : exec .acploop (withInputs 1 1) = .next (acpLoop (withInputs 1 1)) := rfl

/-- The statement applied to divisor 0, to divisor 74 with a pipeline of its rate, and to divisor 127 without one. -/
theorem witness_SampleEvent (h : Obligations.SampleEvent) :
    (∃ t, exec (.sample 0x80) (withRegs 0 0 0x80) = .next t) ∧
    (∃ t, exec (.sample 0x80) (audioRecreate ⟨3579545, 74⟩ (withRegs 0 0 0x4A)) = .next t) ∧
    ∃ t, exec (.sample 0x80) (withRegs 0 0 0x7F) = .next t := by
  refine ⟨⟨_, (h (withRegs 0 0 0x80) _ State.reset State.reset 0x80 0 (by decide) rfl).1 rfl⟩, ?_, ?_⟩
  · obtain ⟨t, e, -⟩ := (h (audioRecreate ⟨3579545, 74⟩ (withRegs 0 0 0x4A)) _ _ _ 0x80 74 (by decide) rfl).2 (by decide)
      rfl (.inl ⟨_, rfl, rfl, rfl⟩) rfl
    exact ⟨t, e⟩
  · obtain ⟨t, e, -⟩ := (h (withRegs 0 0 0x7F) _ _ _ 0x80 127 (by decide) rfl).2 (by decide) rfl
      (.inr ⟨fun _ k => (nomatch k), rfl⟩) rfl
    exact ⟨t, e⟩

/-- A countdown that one cycle more would use up, and one that is just used up. -/
theorem witness_InterruptCopyAndVblank :
    0 < State.reset.orch.vblankCountdown - (59658 : Nat) ∧ State.reset.orch.vblankCountdown - (59659 : Nat) ≤ 0 := by decide

theorem witness_PushStoresOrDrops :
    (withNative (List.replicate 127 0)).audio.nr.length < 128 ∧ 128 ≤ (withNative (List.replicate 128 0)).audio.nr.length := by
  simp [withNative]

theorem witness_Backpressure : State.reset.audio.nr = [] := rfl

/-- The state after reset with native samples and a resampler for divisor 74. -/
def withResampler (nr : List Byte) : State :=
  { State.reset with audio := { State.reset.audio with nr := nr, rs := some ⟨⟨3579545, 74⟩, 0, 0, none, []⟩ } }

/-- The statement also applied to a free resampler's first pull, of 64 equal samples: the output number keeps the bounds,
and a state that has settled at once gives only that sample. -/
theorem witness_ResamplerPull_free (h : Obligations.ResamplerPull) :
    (freePull ⟨⟨3579545, 74⟩, 0, 0, none, []⟩ (List.replicate 64 0)).1.steady = some 0 ∧
    (freePull ⟨⟨3579545, 74⟩, 0, 0, none, []⟩ (List.replicate 64 0)).1.nOut ≤ 64 + Config.resampleSlack ∧
    (Config.resampleSettle (reducedRate ⟨3579545, 74⟩) 0 ≤ 0 →
      ∀ x ∈ (freePull ⟨⟨3579545, 74⟩, 0, 0, none, []⟩ (List.replicate 64 0)).2, x = 0) := by
  obtain ⟨-, -, -, h4, h5, h6⟩ := h.2.1 ⟨⟨3579545, 74⟩, 0, 0, none, []⟩ _ (List.replicate 64 0) _ (by decide) (by decide)
    (by decide) rfl
  have h7 := (h5 0).2 ⟨by simp, .inl rfl⟩
  exact ⟨h7, (h4 (Nat.zero_le _)).2, fun hs x hx => h6 0 x h7 hs hx⟩

theorem witness_ResamplerPull :
    (withNative (List.replicate 63 0)).audio.nr.length < 64 ∧ 64 ≤ (withResampler (List.replicate 64 0)).audio.nr.length ∧
    (withResampler (List.replicate 64 0)).audio.rs = some ⟨⟨3579545, 74⟩, 0, 0, none, []⟩ ∧
    ∃ rs' out, resample State.reset.cfg.resample ⟨⟨3579545, 74⟩, 0, 0, none, []⟩
      (((withResampler (List.replicate 64 0)).audio.nr.take 64).map toF32) = (rs', out) :=
  ⟨by decide, by decide, rfl, _, _, rfl⟩

theorem witness_ZeroOrderHoldPull :
    0 < 3579545 ∧ 0 < 74 ∧ (List.replicate 64 (0 : F32)).length = 64 ∧ 0 ≤ 0 * 3579545 / (48000 * 74) ∧
    ∃ rs' out, resample .specDefault ⟨⟨3579545, 74⟩, 0, 0, none, []⟩ (List.replicate 64 0) = (rs', out) :=
  ⟨by decide, by decide, by decide, by decide, _, _, rfl⟩

/-- The state after reset with these lengths of the queue and of the output ring. -/
def withQueues (aq ring : Nat) : State :=
  { State.reset with audio := { State.reset.audio with aq := List.replicate aq 0, ring := List.replicate ring silence } }

theorem witness_CommitMovesOneBlock :
    (withQueues 63 0).audio.aq.length < 64 ∧
    (64 ≤ (withQueues 64 505).audio.aq.length ∧ 512 - (withQueues 64 505).audio.ring.length < 8) ∧
    (silence.toList = (withQueues 64 504).audio.aq.take 64 ∧ 8 ≤ 512 - (withQueues 64 504).audio.ring.length) := by
  decide +kernel

theorem witness_DrainRunsEachStageOut :
    (withNative (List.replicate 63 0)).audio.nr.length < 64 ∧ (withResampler (List.replicate 64 0)).audio.rs ≠ none := by
  decide

theorem witness_PopAndRecreate :
    (withQueues 0 1).audio.ring = silence :: [] ∧ (withQueues 0 0).audio.ring = [] ∧ 0 < 1 := ⟨rfl, rfl, by decide⟩

/-- The two sides of the end of the default set, and the corners of the screen. -/
theorem witness_ButtonsAndReadOut :
    (7 : Byte).toNat < State.reset.cfg.buttons ∧ State.reset.cfg.buttons ≤ (8 : Byte).toNat ∧ 0 < 128 ∧ 127 < 128 := by
  decide

theorem witness_StepKeepsCanonical :
    Canonical (waiting (.bus 0x10010AA)) ∧
    step (waiting (.bus 0x10010AA)) = .next (wrZp 0x10 0xAA { launched with env := Environment.empty }) :=
  ⟨⟨fun id => by cases id <;> rfl, by decide, by decide, fun _ h => nomatch h⟩, rfl⟩

theorem witness_ConfigurationAndCartridgeStay : exec (.wrBank 0xC0) launched = .next (wrBank 0xC0 launched) := rfl

/-- The last step of V-S3's blit raises the interrupt; a write of `start` clears it. -/
theorem witness_PendingInterruptChanges :
    (exec .bstep (blitSteps 1 (blitState 0x49 1 1 5 6)) = .next (blitSteps 2 (blitState 0x49 1 1 5 6)) ∧
      (blitSteps 1 (blitState 0x49 1 1 5 6)).blit.irqPending = false ∧
      (blitSteps 2 (blitState 0x49 1 1 5 6)).blit.irqPending = true) ∧
    (exec (.wrBr6 0 0) (blitSteps 2 (blitState 0x49 1 1 5 6)) = .next (wrStart (blitSteps 2 (blitState 0x49 1 1 5 6))) ∧
      (wrStart (blitSteps 2 (blitState 0x49 1 1 5 6))).blit.irqPending = false) :=
  ⟨⟨rfl, by decide, by decide⟩, rfl, rfl⟩

end Sys2Proof.Machine.Tests
end

section
/-! PROOFS. What every operation keeps of the machine's data, said once over `exec`, and the statements about the whole
state that follow from it. -/

namespace Sys2Proof.Machine

/-! The data that operations keep -/

/-- Every memory is in canonical form (R21 to R26). -/
def StorageWf (s : State) : Prop := ∀ id, Memory.wf (memSize id) (s.mem.get id) = true

theorem canonical_iff (s : State) : Canonical s ↔ StorageWf s ∧ AudioOk s.audio :=
  ⟨fun h => ⟨h.mem, h.native, h.ring, h.rate⟩, fun ⟨hm, ha⟩ => ⟨hm, ha.native, ha.ring, ha.rate⟩⟩

/-- What every operation but a load and power-on keeps: the configuration and the cartridge, and the canonical form of
the memories and of the audio pipeline (R52, R53, R48). -/
structure Keeps (s t : State) : Prop where
  cfg : t.cfg = s.cfg
  cart : t.mem.cart = s.mem.cart
  storage : StorageWf s → StorageWf t
  audio : AudioOk s.audio → AudioOk t.audio

theorem Keeps.refl (s : State) : Keeps s s := ⟨rfl, rfl, id, id⟩

theorem Keeps.trans {s t u : State} (h : Keeps s t) (k : Keeps t u) : Keeps s u :=
  ⟨k.cfg.trans h.cfg, k.cart.trans h.cart, k.storage ∘ h.storage, k.audio ∘ h.audio⟩

theorem Keeps.canonical {s t : State} (h : Keeps s t) (hs : Canonical s) : Canonical t :=
  let ⟨hm, ha⟩ := (canonical_iff s).1 hs
  (canonical_iff t).2 ⟨h.storage hm, h.audio ha⟩

/-- An operation that leaves memories, pipeline and configuration alone keeps the data. -/
theorem Keeps.of_eq {s t : State} (hm : t.mem = s.mem) (ha : t.audio = s.audio) (hc : t.cfg = s.cfg) : Keeps s t :=
  ⟨hc, by rw [hm], fun h id => by rw [hm]; exact h id, fun h => by rw [ha]; exact h⟩

/-- A byte stored inside its memory keeps the data. -/
theorem putByte_keeps (s : State) (id : MemId) (a : Nat) (v : Byte) (ha : a < memSize id) :
    Keeps s (s.putByte id a v) :=
  ⟨rfl, s.putByte_cart id a v, s.putByte_wf id a v ha, fun h => h⟩

/-- Operations that keep the data and, besides, leave the blitter's own state as it is. -/
structure Quiet (s t : State) : Prop extends Keeps s t where
  blit : t.blit = s.blit

theorem Quiet.trans {s t u : State} (h : Quiet s t) (k : Quiet t u) : Quiet s u :=
  ⟨h.toKeeps.trans k.toKeeps, k.blit.trans h.blit⟩

/-- An operation on registers, pads, counters, lines, inputs and outputs is quiet. -/
theorem Quiet.of_eq {s t : State} (hm : t.mem = s.mem) (ha : t.audio = s.audio) (hc : t.cfg = s.cfg)
    (hb : t.blit = s.blit) : Quiet s t := ⟨.of_eq hm ha hc, hb⟩

theorem emit_quiet (s : State) (o : Output) : Quiet s (s.emit o) := .of_eq rfl rfl rfl rfl

/-! Which cells the operands name -/

theorem ramOffset_lt (a : BitVec 13) : ramOffset a < Config.ramBankSize := by
  have h : a.toNat - 0x200 < 0x1E00 := by omega
  exact h

theorem bankedRamCell_lt (r : Registers) (a : BitVec 13) : bankedRamCell r a < memSize .ram := by
  have hb := (ramBank r.banking).isLt
  have ho := ramOffset_lt a
  simp only [bankedRamCell, ramCell, memSize, Config.ramBankSize] at ho ⊢
  omega

theorem winFbCell_lt (r : Registers) (o : BitVec 14) : winFbCell r o < memSize .fb := by
  have ho := o.isLt
  exact fbCell_lt _ (by simp only [winY]; omega) (by simp only [winX]; omega)

theorem quadBase_le (g : Byte) : quadBase g ≤ 128 := by
  unfold quadBase
  split <;> omega

theorem winVramCell_lt (r : Registers) (o : BitVec 14) : winVramCell r o < memSize .vram := by
  have ho := o.isLt
  have hp := (vramPage r.banking).isLt
  have hx := quadBase_le r.gx
  have hy := quadBase_le r.gy
  simp only [winVramCell, quadCell, vramCell, winX, winY, memSize]
  omega

/-- The half of the framebuffer memory that holds a cell on the screen is its buffer's (R26). -/
theorem fbCell_div (f : Bool) {y x : Nat} (hy : y < 128) (hx : x < 128) : fbCell f y x / 16384 = f.toNat := by
  simp only [fbCell]
  omega

/-! Bus transactions -/

theorem ReadEffect.quiet {s t : State} {addr : Addr} (h : ReadEffect s t addr) : Quiet s t :=
  .of_eq h.mem h.audio h.cfg h.blit

theorem readCell_quiet (s : State) (addr : Addr) (id : MemId) (a : Nat) : Quiet s (s.readCell addr id a) :=
  (answerRead_effect ..).quiet

theorem writeCell_quiet (s : State) (id : MemId) (a : Nat) (v : Byte) (ha : a < memSize id) :
    Quiet s (s.writeCell id a v) :=
  ⟨(putByte_keeps s id a v ha).trans (.of_eq rfl rfl rfl), rfl⟩

theorem writeNothing_quiet (s : State) (d : Diag) : Quiet s (s.writeNothing d) := .of_eq rfl rfl rfl rfl

/-- A write of a control register or of a blitter register other than `start` is quiet. -/
theorem writeRegs_quiet (s : State) (r : Registers) : Quiet s { s with regs := r }.countCycle :=
  .of_eq rfl rfl rfl rfl

theorem assertLine_countCycle_quiet (s : State) (l : EventLine) : Quiet s (s.assertLine l).countCycle :=
  .of_eq (s.assertLine_mem l) (s.assertLine_audio l) (s.assertLine_cfg l) (s.assertLine_blit l)

theorem wrStart_keeps (s : State) : Keeps s (wrStart s) := .of_eq rfl rfl rfl

/-- A write of `addr[2:0]` = 6 is that of `start`; any other changes one register (R202, R209). -/
theorem writeBr_cases (i : Nat) (v : Byte) (s : State) :
    (i = 6 ∧ writeBr i v s = wrStart s) ∨ ∃ r, writeBr i v s = { s with regs := r }.countCycle := by
  unfold writeBr
  split
  case h_7 => exact .inl ⟨rfl, rfl⟩
  all_goals exact .inr ⟨_, rfl⟩

/-- The window is in register mode while `dma_enable` is set, and only then (R200). -/
theorem windowModeOf_registers (flags : Byte) : windowModeOf flags = .registers ↔ dmaEnable flags = true := by
  unfold windowModeOf
  cases dmaEnable flags <;> cases cpuToVram flags <;> decide

/-- A window write is quiet, but for the write of `start` in register mode (R183, R209). -/
theorem windowWrite_cases (o : BitVec 14) (v : Byte) (s : State) :
    (dmaEnable s.regs.dmaFlags = true ∧ o.toNat % 8 = 6 ∧ windowWrite o v s = wrStart s) ∨
    Quiet s (windowWrite o v s) := by
  unfold windowWrite
  cases hm : s.windowMode with
  | registers =>
    rcases writeBr_cases (o.toNat % 8) v s with ⟨h6, e⟩ | ⟨r, e⟩
    · exact .inl ⟨(windowModeOf_registers _).1 hm, h6, e⟩
    · exact .inr (by simpa only [e] using writeRegs_quiet s r)
  | framebuffer => exact .inr (writeCell_quiet _ _ _ _ (winFbCell_lt ..))
  | vram => exact .inr (writeCell_quiet _ _ _ _ (winVramCell_lt ..))

theorem windowWrite_keeps (o : BitVec 14) (v : Byte) (s : State) : Keeps s (windowWrite o v s) := by
  rcases windowWrite_cases o v s with ⟨-, -, e⟩ | h
  · rw [e]; exact wrStart_keeps s
  · exact h.toKeeps

theorem memRead_quiet (c : Cart) (addr : Addr) (s : State) : Quiet s (memRead c addr s) := by
  unfold memRead
  cases region addr with
  | zp | stack | ram | aram => exact readCell_quiet ..
  | via | cart => exact (answerRead_effect ..).quiet
  | acprst | acpnmi | banking | audioctl | dmaflags | unmapped => exact (readNothing_effect ..).quiet
  | pad1 | pad2 => exact (padRead_effect ..).quiet
  | window => exact (windowRead_effect ..).quiet

theorem memWrite_keeps (addr : Addr) (v : Byte) (s : State) : Keeps s (memWrite addr v s) := by
  unfold memWrite
  cases region addr with
  | zp | stack | aram => exact (writeCell_quiet _ _ _ _ (BitVec.isLt _)).toKeeps
  | ram => exact (writeCell_quiet _ _ _ _ (bankedRamCell_lt ..)).toKeeps
  | acprst | acpnmi => exact (assertLine_countCycle_quiet ..).toKeeps
  | banking | audioctl | dmaflags => exact (writeRegs_quiet ..).toKeeps
  | pad1 | pad2 | cart | unmapped => exact (writeNothing_quiet ..).toKeeps
  | via => exact .of_eq rfl rfl rfl
  | window => exact windowWrite_keeps ..

theorem busAccess_keeps (c : Cart) (op : BusOp) (s : State) : Keeps s (busAccess c op s) := by
  cases op with
  | read addr => exact (memRead_quiet c addr s).toKeeps
  | write addr v => exact memWrite_keeps addr v s

/-- A list of accesses keeps what each access keeps. -/
theorem foldl_keeps {f : BusOp → State → State} (hf : ∀ op s, Keeps s (f op s)) (ops : List BusOp) (s : State) :
    Keeps s (ops.foldl (fun t op => f op t) s) := by
  induction ops generalizing s with
  | nil => exact .refl s
  | cons op rest ih => exact (hf op s).trans (ih _)

theorem cpuStep_keeps (c : Cart) (s : State) : Keeps s (cpuStep c s) := by
  have h : Keeps s (nextCpuStep s).2.takeCpuEvents := by
    rcases nextCpuStep_cases s with ⟨x, rest, -, e⟩ | ⟨-, e⟩ <;> rw [e] <;> exact .of_eq rfl rfl rfl
  exact h.trans (foldl_keeps (busAccess_keeps c) _ _)

/-! The blitter -/

/-- The blitter's step is its start phase, with the work of a `Running` blitter behind it (R232). -/
theorem blitStep_cases (s : State) : blitStep s = blitStart s ∨ blitStep s = blitWork (blitStart s) := by
  unfold blitStep
  cases h : (blitStart s).blit.bstate with
  | idle => exact .inl (by simp only [h])
  | running => exact .inr (by simp only [h])

/-- Between `s` and `t` the memories change by one pixel of the draw target, which is on the screen (R243, R244). -/
def DrawsPixel (s t : State) : Prop :=
  ∃ dy dx c, dy < 128 ∧ dx < 128 ∧ t.mem = (s.putByte .fb (fbCell (framebufferSel s.regs.banking) dy dx) c).mem

theorem blitWork_mem_cases (s : State) : (blitWork s).mem = s.mem ∨ DrawsPixel s (blitWork s) := by
  rcases blitWork_cases s with ⟨-, e⟩ | ⟨-, -, e⟩ | ⟨-, -, e⟩ <;> rw [e]
  · exact .inl rfl
  · exact .inl rfl
  · rcases blitPixel_cases { s with blit := blitWrap s.regs.width s.blit } with p | ⟨dy, dx, c, hy, hx, p⟩ <;> rw [p]
    · exact .inl rfl
    · exact .inr ⟨dy, dx, c, hy, hx, rfl⟩

/-- A blitter step stores one pixel of the draw target, or nothing (R232, R243, R244). -/
theorem blitStep_mem_cases (s : State) : (blitStep s).mem = s.mem ∨ DrawsPixel s (blitStep s) := by
  rcases blitStep_cases s with e | e <;> rw [e]
  · exact .inl (blitStart_mem s)
  · rcases blitWork_mem_cases (blitStart s) with h | ⟨dy, dx, c, hy, hx, h⟩
    · exact .inl (h.trans (blitStart_mem s))
    · refine .inr ⟨dy, dx, c, hy, hx, ?_⟩
      rw [h, blitStart_regs]
      simp only [State.putByte, blitStart_mem]

theorem blitStep_keeps (s : State) : Keeps s (blitStep s) := by
  have he := blitStep_effect s
  refine ⟨he.cfg, he.cart, fun hs => ?_, fun ha => by rw [he.audio]; exact ha⟩
  rcases blitStep_mem_cases s with hm | ⟨dy, dx, c, hy, hx, hm⟩
  · intro id
    rw [hm]
    exact hs id
  · intro id
    rw [hm]
    exact s.putByte_wf .fb _ c (fbCell_lt _ hy hx) hs id

theorem blitSteps_keeps (n : Nat) (s : State) : Keeps s (blitSteps n s) := by
  induction n generalizing s with
  | zero => exact .refl s
  | succ n ih => exact (blitStep_keeps s).trans (ih _)

theorem blitUntilIdle_keeps (n : Nat) (s : State) : Keeps s (blitUntilIdle n s) := by
  induction n generalizing s with
  | zero => exact .refl s
  | succ n ih =>
    unfold blitUntilIdle
    split
    · exact (blitStep_keeps s).trans (ih _)
    · exact .refl s

/-- A blitter step leaves the byte of every cell outside the draw target (R83). -/
theorem blitStep_byte_outside (s : State) (id : MemId) (a : Nat)
    (h : id ≠ .fb ∨ a / 16384 ≠ (framebufferSel s.regs.banking).toNat) : (blitStep s).byte id a = s.byte id a := by
  have he := congrArg Environment.powerOns (blitStep_effect s).env
  rcases blitStep_mem_cases s with hm | ⟨dy, dx, c, hy, hx, hm⟩
  · exact State.byte_congr hm he id a
  · refine (State.byte_congr (s := s.putByte _ _ c) hm he id a).trans (s.byte_putByte_other _ _ _ _ _ ?_)
    exact h.imp_right fun ha e => ha (by rw [e, fbCell_div _ hy hx])

/-- A blitter step leaves every register but the start strobe, which it uses up (R230, R233). -/
theorem blitStep_regs (s : State) : (blitStep s).regs = { s.regs with startStrobe := false } := by
  obtain ⟨b, hb⟩ := (blitStep_effect s).regs
  have hs := blitStep_strobe s
  rw [hb] at hs ⊢
  exact congrArg (fun b => { s.regs with startStrobe := b }) hs

/-- Between `s` and `t` the pending interrupt stays, or is raised with `irq_enable` set (R237, R40). -/
def PendingRaised (s t : State) : Prop :=
  t.blit.irqPending = s.blit.irqPending ∨ t.blit.irqPending = true ∧ irqEnable s.regs.dmaFlags = true

theorem PendingRaised.trans {s t u : State} (h : PendingRaised s t) (k : PendingRaised t u)
    (hf : t.regs.dmaFlags = s.regs.dmaFlags) : PendingRaised s u := by
  rcases k with k | ⟨ku, kf⟩
  · rwa [PendingRaised, k]
  · exact .inr ⟨ku, hf ▸ kf⟩

@[simp] theorem blitStart_irqPending (s : State) : (blitStart s).blit.irqPending = s.blit.irqPending := by
  unfold blitStart
  split
  · simp only
    split <;> rfl
  · rfl

@[simp] theorem blitWrap_irqPending (w : Byte) (b : Blitter) : (blitWrap w b).irqPending = b.irqPending := by
  unfold blitWrap
  split
  · split <;> rfl
  · rfl

theorem blitWork_pending (s : State) : PendingRaised s (blitWork s) := by
  rcases blitWork_cases s with ⟨-, e⟩ | ⟨-, -, e⟩ | ⟨-, -, e⟩ <;> rw [e]
  · cases hf : irqEnable s.regs.dmaFlags with
    | false => exact .inl (by simp [blitComplete, hf])
    | true => exact .inr ⟨by simp [blitComplete, hf], hf⟩
  · exact .inl (blitWrap_irqPending ..)
  · exact .inl (blitWrap_irqPending ..)

/-- A blitter step never clears the pending interrupt, and raises it only with `irq_enable` set (R237). -/
theorem blitStep_pending (s : State) : PendingRaised s (blitStep s) := by
  have hs : PendingRaised s (blitStart s) := .inl (blitStart_irqPending s)
  rcases blitStep_cases s with e | e <;> rw [e]
  · exact hs
  · exact hs.trans (blitWork_pending _) (by rw [blitStart_regs])

theorem blitUntilIdle_pending (n : Nat) (s : State) : PendingRaised s (blitUntilIdle n s) := by
  induction n generalizing s with
  | zero => exact .inl rfl
  | succ n ih =>
    unfold blitUntilIdle
    split
    · exact (blitStep_pending s).trans (ih _) (by rw [blitStep_regs])
    · exact .inl rfl

/-! The audio pipeline and the ACP -/

theorem AudioEffect.quiet {s t : State} (h : AudioEffect s t) (ok : AudioOk s.audio → AudioOk t.audio) : Quiet s t :=
  ⟨⟨h.cfg, by rw [h.mem], fun hs id => by rw [h.mem]; exact hs id, ok⟩, h.blit⟩

theorem SampleEffect.quiet {s t : State} (h : SampleEffect s t) (ok : AudioOk s.audio → AudioOk t.audio) : Quiet s t :=
  ⟨⟨h.acp.cfg, h.acp.cart, fun hs id => by rw [h.mem]; exact hs id, ok⟩, h.acp.blit⟩

theorem acpAccess_keeps (op : BusOp) (s : State) : Keeps s (acpAccess op s) := by
  cases op with
  | read a => exact .of_eq rfl rfl rfl
  | write a v =>
    simp only [acpAccess]
    rcases acpWrite_cases a v s with ⟨o, -, e⟩ | ⟨-, e⟩ <;> rw [e]
    · exact (putByte_keeps s .aram _ v o.isLt).trans (.of_eq rfl rfl rfl)
    · exact .of_eq rfl rfl rfl

theorem acpStep_keeps (s : State) : Keeps s (acpStep s).2 := by
  have h : Keeps s (nextAcpStep s).2.takeAcpEvents := by
    rcases nextAcpStep_cases s with ⟨x, rest, -, e⟩ | ⟨-, e⟩ <;> rw [e] <;> exact .of_eq rfl rfl rfl
  exact h.trans (foldl_keeps acpAccess_keeps _ _)

theorem acpPass_keeps (s : State) : Keeps s (acpPass s) := by
  unfold acpPass
  simp only
  have charged : ∀ o, Keeps s { (acpStep s).2 with orch := o } := fun o =>
    (acpStep_keeps s).trans (.of_eq rfl rfl rfl)
  split
  · exact (charged _).trans ((loopSampleEvent_effect ..).quiet (loopSampleEvent_ok _)).toKeeps
  · exact charged _

theorem acpPasses_keeps (n : Nat) (s : State) : Keeps s (acpPasses n s) := by
  induction n generalizing s with
  | zero => exact .refl s
  | succ n ih =>
    unfold acpPasses
    split
    · exact (acpPass_keeps s).trans (ih _)
    · exact .refl s

theorem acpLoop_keeps (s : State) : Keeps s (acpLoop s) :=
  (acpPasses_keeps _ s).trans ((loopDrain_effect _).quiet loopDrain_ok).toKeeps

/-! The iteration and the tick -/

theorem vblank_quiet (c : Nat) (s : State) : Quiet s (vblank c s) := by
  rcases vblank_cases c s with ⟨-, e⟩ | ⟨-, e⟩ <;> rw [e] <;> exact .of_eq rfl rfl rfl rfl

theorem irqProp_quiet (s : State) : Quiet s (irqProp s) := .of_eq rfl rfl rfl rfl

theorem iteration_keeps (c : Cart) (s : State) : Keeps s (iteration c s) := by
  have charged : Keeps s (chargeCycles (cpuStep c s)) := (cpuStep_keeps c s).trans (.of_eq rfl rfl rfl)
  have ended : ∀ n u, Keeps u (vblank n (irqProp (blitSteps n u))) := fun n u =>
    ((blitSteps_keeps n u).trans (irqProp_quiet _).toKeeps).trans (vblank_quiet n _).toKeeps
  unfold iteration
  simp only
  split
  · exact (charged.trans (acpLoop_keeps _)).trans (ended _ _)
  · exact charged.trans (ended _ _)

theorem tickLoop_keeps (c : Cart) (n : Nat) (s : State) : Keeps s (tickLoop c n s) := by
  induction n generalizing s with
  | zero => exact .refl s
  | succ n ih =>
    unfold tickLoop
    split
    · exact (iteration_keeps c s).trans (ih _)
    · exact .refl s

theorem budget_keeps (elapsed : Nat) (s : State) : Keeps s (budget elapsed s) := by
  unfold budget
  split <;> exact .of_eq rfl rfl rfl

theorem tick_keeps (c : Cart) (elapsed : Nat) (s : State) : Keeps s (tick c elapsed s) :=
  (budget_keeps elapsed s).trans (tickLoop_keeps c _ _)

/-! The host's operations -/

theorem setButton_quiet (p : PadPort) (b : BitVec 8) (pressed : Bool) (s : State) :
    Quiet s (setButton p b pressed s) :=
  .of_eq (s.setPad_mem ..) (s.setPad_audio ..) (s.setPad_cfg ..) (s.setPad_blit ..)

/-- A load inserts a cartridge and tells the host, or only tells the host (R360, R361). -/
theorem loadRom_cases (bytes : List Byte) (s : State) :
    (∃ c, loadRom bytes s = (insertCart c s).emit .romLoaded) ∨ Quiet s (loadRom bytes s) := by
  unfold loadRom
  cases cartOfImage bytes with
  | some c => exact .inl ⟨c, rfl⟩
  | none => exact .inr (emit_quiet ..)

/-- Power-on leaves every memory without a written cell and the pipeline empty (R54). -/
theorem powerOn_canonical (cfg : Params) (env : Environment) (now : Nat) : Canonical (State.powerOn cfg env now) where
  mem id := by cases id <;> rfl
  native := Nat.zero_le _
  ring := Nat.zero_le _
  rate _ h := nomatch h

/-- The cartridge is no part of the canonical form. -/
theorem insertCart_canonical (c : Cart) {s : State} (h : Canonical s) : Canonical (insertCart c s) where
  mem id := by
    have hs := h.mem id
    cases id <;> exact hs
  native := h.native
  ring := h.ring
  rate := h.rate

/-! What an operation can do -/

/-- What an operation that completes can do: quiet ones, those that run the blitter, those that run whole iterations, the
write of `start`, a load that succeeds, and power-on. -/
inductive ExecEffect (s t : State) (i : Instr) : Prop
  | quiet (h : Quiet s t)
  | blitter (hi : i = .bstep ∨ i = .hInstant) (h : Keeps s t) (hp : PendingRaised s t)
  | iterations (hi : i = .iter ∨ ∃ n, i = .tick n) (h : Keeps s t)
  | start (hi : (∃ k v, i = .wrBr6 k v) ∨ ∃ o v, i = .wrWin o v ∧ dmaEnable s.regs.dmaFlags = true ∧ o.toNat % 8 = 6)
      (h : t = wrStart s)
  | load (bytes : List Byte) (hi : i = .hLoadrom bytes) (c : Cart) (h : t = (insertCart c s).emit .romLoaded)
  | power (now : Nat) (hi : i = .hPoweron now) (h : t = powerOn now s)

/-- A fact about the state that an outcome holds is one about its next state. -/
theorem of_next {P : State → Prop} {u t : State} (h : (.next u : Result) = .next t) (p : P u) : P t :=
  Host.Outcome.next.inj h ▸ p

/-- The next state of an operation that runs under a condition, and otherwise stops. -/
theorem of_ite_next {P : State → Prop} {p : Prop} [Decidable p] {a b : Result} {t : State}
    (h : (if p then a else b) = .next t) (ha : p → a = .next t → P t) (hb : b = .next t → P t) : P t := by
  split at h
  · exact ha ‹p› h
  · exact hb h

/-- Every operation that completes has one of these effects, by its meaning. -/
theorem exec_effect (i : Instr) (s t : State) (h : exec i s = .next t) : ExecEffect s t i := by
  cases i with
  | rdZp o | rdStack o | rdAram o | rdFb o | rdVram o => exact .quiet (of_next h (readCell_quiet ..))
  | rdRam a =>
    exact .quiet (of_ite_next h (fun _ h => of_next h (readCell_quiet ..)) fun h => nomatch h)
  | wrZp o v | wrStack o v | wrAram o v => exact .quiet (of_next h (writeCell_quiet _ _ _ _ (BitVec.isLt _)))
  | wrRam a v =>
    exact .quiet (of_ite_next h (fun _ h => of_next h (writeCell_quiet _ _ _ _ (bankedRamCell_lt ..))) fun h => nomatch h)
  | wrFb o v => exact .quiet (of_next h (writeCell_quiet _ _ _ _ (winFbCell_lt ..)))
  | wrVram o v => exact .quiet (of_next h (writeCell_quiet _ _ _ _ (winVramCell_lt ..)))
  | rdWoAcprst | rdWoAcpnmi | rdWoBank | rdWoAudio | rdWoDma | rdBr o | rdUnmapped a =>
    exact .quiet (of_next h (readNothing_effect ..).quiet)
  | rdVia r => exact .quiet (of_next h (answerRead_effect ..).quiet)
  | rdPad1 | rdPad2 => exact .quiet (of_next h (padRead_effect ..).quiet)
  | rdWin o => exact .quiet (of_next h (windowRead_effect ..).quiet)
  | rdCart o =>
    simp only [exec, execRdCart] at h
    split at h
    · exact .quiet (of_next h (answerRead_effect ..).quiet)
    · cases h
  | wrAcprst v | wrAcpnmi v => exact .quiet (of_next h (assertLine_countCycle_quiet ..))
  | wrBank v | wrAudio v | wrDma v | wrBr0 k v | wrBr1 k v | wrBr2 k v | wrBr3 k v | wrBr4 k v | wrBr5 k v
  | wrBr7 k v => exact .quiet (of_next h (writeRegs_quiet ..))
  | wrPad1 v | wrPad2 v | wrCart o v | wrUnmapped a v => exact .quiet (of_next h (writeNothing_quiet ..))
  | wrVia r v => exact .quiet (of_next h (.of_eq rfl rfl rfl rfl))
  | wrBr6 k v => exact .start (.inl ⟨k, v, rfl⟩) (Host.Outcome.next.inj h).symm
  | wrWin o v =>
    obtain rfl : windowWrite o v s = t := Host.Outcome.next.inj h
    rcases windowWrite_cases o v s with ⟨hd, h6, e⟩ | hq
    · exact .start (.inr ⟨o, v, rfl, hd, h6⟩) e
    · exact .quiet hq
  | bstep => exact .blitter (.inl rfl) (of_next h (blitStep_keeps s)) (of_next h (blitStep_pending s))
  | hInstant =>
    exact .blitter (.inr rfl) (of_next h (blitUntilIdle_keeps _ s)) (of_next h (blitUntilIdle_pending _ s))
  | iter =>
    simp only [exec, execIter] at h
    split at h
    · exact .iterations (.inl rfl) (of_next h (iteration_keeps ..))
    · cases h
  | tick n =>
    simp only [exec, execTick] at h
    split at h
    · exact .iterations (.inr ⟨n, rfl⟩) (of_next h (tick_keeps ..))
    · cases h
  | irqprop => exact .quiet (of_next h (irqProp_quiet s))
  | vblank c => exact .quiet (of_next h (vblank_quiet c s))
  | acploop => exact .quiet (of_next h ⟨acpLoop_keeps s, (acpLoop_effect s).blit⟩)
  | acpRd a => exact .quiet (of_next h ⟨acpAccess_keeps (.read a) s, (acpAccess_effect (.read a) s).1.blit⟩)
  | acpWr a v => exact .quiet (of_next h ⟨acpAccess_keeps (.write a v) s, (acpAccess_effect (.write a v) s).1.blit⟩)
  | sample v => exact .quiet (of_next h ((sampleEvent_effect v s).quiet (sampleEvent_ok v)))
  | aPush v => exact .quiet (of_next h ((audioPush_effect v s).quiet (audioPush_ok v)))
  | aResample =>
    exact .quiet (of_ite_next h (fun _ h => nomatch h) fun h =>
      of_next h (((audioResample_effect s).quiet audioResample_ok).trans (emit_quiet ..)))
  | aCommit => exact .quiet (of_next h (((audioCommit_effect s).quiet audioCommit_ok).trans (emit_quiet ..)))
  | aDrain =>
    exact .quiet (of_ite_next h (fun _ h => nomatch h) fun h =>
      of_next h ((audioDrain_effect s).quiet audioDrain_ok))
  | aPop => exact .quiet (of_next h ((audioPop_effect s).quiet audioPop_ok))
  | aRecreate num den =>
    exact .quiet (of_ite_next h (fun ⟨hn, hd⟩ h =>
      of_next h ((audioRecreate_effect _ s).quiet fun _ => audioRecreate_ok _ s hn hd)) fun h => nomatch h)
  | hLoadrom bytes =>
    obtain rfl : loadRom bytes s = t := Host.Outcome.next.inj h
    rcases loadRom_cases bytes s with ⟨c, e⟩ | hq
    · exact .load bytes rfl c e
    · exact .quiet hq
  | hSetbtn p b pressed =>
    exact .quiet (of_ite_next h (fun _ h => of_next h (setButton_quiet ..)) fun h => nomatch h)
  | hReadfb => exact .quiet (of_next h (emit_quiet ..))
  | hPoweron now => exact .power now rfl (Host.Outcome.next.inj h).symm

/-- A step does nothing, for want of an operation, or runs the decoded operation on the state without it (R414). -/
theorem step_cases {s t : State} (h : step s = .next t) :
    t = s ∨ ∃ raw rest i, s.env.pending = raw :: rest ∧ decode s.windowMode raw = .ok i ∧
      exec i { s with env := { s.env with pending := rest } } = .next t := by
  unfold step State.fetch at h
  cases hp : s.env.pending with
  | nil =>
    simp only [hp] at h
    exact .inl (Host.Outcome.next.inj h).symm
  | cons raw rest =>
    simp only [hp] at h
    cases hd : decode s.windowMode raw with
    | error r =>
      simp only [hd] at h
      cases h
    | ok i =>
      simp only [hd] at h
      exact .inr ⟨raw, rest, i, rfl, hd, h⟩

theorem exec_keepsCanonical {i : Instr} {s t : State} (h : exec i s = .next t) (hs : Canonical s) : Canonical t := by
  cases exec_effect i s t h with
  | quiet hq => exact hq.canonical hs
  | blitter _ hk _ => exact hk.canonical hs
  | iterations _ hk => exact hk.canonical hs
  | start _ e => exact e ▸ (wrStart_keeps s).canonical hs
  | load _ _ c e => exact e ▸ (emit_quiet _ _).canonical (insertCart_canonical c hs)
  | power now _ e => exact e ▸ powerOn_canonical ..

/-- The pending interrupt rises in the blitter's own operations, with `irq_enable` set, and inside iterations (R40,
R237). -/
theorem exec_pending_rises {i : Instr} {s t : State} (h : exec i s = .next t) (h0 : s.blit.irqPending = false)
    (h1 : t.blit.irqPending = true) :
    (i = .bstep ∨ i = .hInstant) ∧ irqEnable s.regs.dmaFlags = true ∨ (i = .iter ∨ ∃ n, i = .tick n) := by
  cases exec_effect i s t h with
  | quiet hq => simp [hq.blit, h0] at h1
  | blitter hi _ hp =>
    rcases hp with e | ⟨-, hf⟩
    · simp [e, h0] at h1
    · exact .inl ⟨hi, hf⟩
  | iterations hi _ => exact .inr hi
  | start _ e => subst e; cases h1
  | load _ _ _ e => subst e; cases h1
  | power _ _ e => subst e; cases h1

/-- The pending interrupt falls with a write of `start`, a load, power-on, and inside iterations (R40, R391). -/
theorem exec_pending_falls {i : Instr} {s t : State} (h : exec i s = .next t) (h1 : s.blit.irqPending = true)
    (h0 : t.blit.irqPending = false) :
    (∃ k v, i = .wrBr6 k v) ∨ (∃ o v, i = .wrWin o v ∧ dmaEnable s.regs.dmaFlags = true ∧ o.toNat % 8 = 6) ∨
    (∃ bytes, i = .hLoadrom bytes) ∨ (∃ now, i = .hPoweron now) ∨ i = .iter ∨ ∃ n, i = .tick n := by
  cases exec_effect i s t h with
  | quiet hq => simp [hq.blit, h1] at h0
  | blitter _ _ hp =>
    rcases hp with e | ⟨e, -⟩
    · simp [e, h1] at h0
    · simp [e] at h0
  | iterations hi _ => exact .inr (.inr (.inr (.inr hi)))
  | start hi _ => exact or_assoc.1 (.inl hi)
  | load bytes hi _ _ => exact .inr (.inr (.inl ⟨bytes, hi⟩))
  | power now hi _ => exact .inr (.inr (.inr (.inl ⟨now, hi⟩)))

/-! The statements -/

/-- Settles O58: an operation keeps the canonical form whatever its effect, and taking it from the queue touches no data. -/
theorem stepKeepsCanonical : Obligations.StepKeepsCanonical := by
  intro s t hs h
  rcases step_cases h with rfl | ⟨raw, rest, i, -, -, he⟩
  · exact hs
  · exact exec_keepsCanonical he ⟨hs.mem, hs.native, hs.ring, hs.rate⟩

/-- Settles O35: the one byte that a step may store is a pixel of the draw target. -/
theorem blitterWritesOnlyTheDrawTarget : Obligations.BlitterWritesOnlyTheDrawTarget := by
  intro s t h
  obtain rfl : blitStep s = t := Host.Outcome.next.inj h
  have he := blitStep_effect s
  have target : (framebufferSel s.regs.banking).toNat = if s.regs.banking.getLsbD 3 = true then 1 else 0 :=
    Bool.cond_eq_ite ..
  exact ⟨fun id a ha => blitStep_byte_outside s id a (target ▸ ha), he.cart, blitStep_regs s, he.pad1, he.pad2,
    he.orch, he.lines, he.audio, he.env, he.cfg⟩

/-- Settles O42: the effect of the ACP's loop, read field by field. -/
theorem acpReachesAudioRamOnly : Obligations.AcpReachesAudioRamOnly := by
  intro s t h
  obtain rfl : acpLoop s = t := Host.Outcome.next.inj h
  have he := acpLoop_effect s
  refine ⟨fun id a hid => ?_, he.cart, he.regs, he.blit, he.pad1, he.pad2, he.cycles, he.remaining, he.vblank,
    he.cpuIrq, he.cpuNmi, he.cfg⟩
  simp only [State.byte, he.storage id hid, he.powerOns]

/-- Settles O59, by the effects an operation can have. -/
theorem configurationAndCartridgeStay : Obligations.ConfigurationAndCartridgeStay := by
  intro i s t h
  cases exec_effect i s t h with
  | quiet hq => exact ⟨hq.cfg, fun _ _ => hq.cart⟩
  | blitter _ hk _ => exact ⟨hk.cfg, fun _ _ => hk.cart⟩
  | iterations _ hk => exact ⟨hk.cfg, fun _ _ => hk.cart⟩
  | start _ e => exact e ▸ ⟨(wrStart_keeps s).cfg, fun _ _ => (wrStart_keeps s).cart⟩
  | load bytes hi c e => exact ⟨e ▸ rfl, fun hl _ => absurd hi (hl bytes)⟩
  | power now hi e => exact ⟨e ▸ rfl, fun _ hp => absurd hi (hp now)⟩

/-- Settles O60: what raises the pending interrupt runs the blitter, what clears it writes `start`, loads or powers on. -/
theorem pendingInterruptChanges : Obligations.PendingInterruptChanges := by
  intro i s t h
  refine ⟨fun h0 h1 => ?_, fun hi h0 h1 => ?_, fun h1 h0 => ?_⟩
  · rcases exec_pending_rises h h0 h1 with ⟨hb | hb, -⟩ | hn
    · exact .inl hb
    · exact .inr (.inl hb)
    · exact .inr (.inr hn)
  · rcases exec_pending_rises h h0 h1 with ⟨-, hf⟩ | hn
    · exact hf
    · rcases hi with rfl | rfl <;> simp at hn
  · exact exec_pending_falls h h1 h0

/-- Settles O57: the machine after reset is one after power-on. -/
theorem resetIsCanonical : Obligations.ResetIsCanonical := powerOn_canonical ..

end Sys2Proof.Machine
end

section
/-! PROOFS. What a bus read at the step does: the access that the decoder's operation makes, and the two forms of the
answer that a read of any address but a pad port can have. -/

namespace Sys2Proof.Machine

/-! The operand fields of an address -/

theorem regionBounds_of_region {addr : Addr} {r : Region} (h : region addr = r) : regionBounds addr r :=
  h ▸ region_bounds addr

/-- An address is named by its low bits in a range that begins at a multiple of the range's size. -/
theorem eq_of_lowBits {addr a : Addr} {k base : Nat} (ha : a.toNat = base + (addr.extractLsb' 0 k).toNat)
    (hd : base % 2 ^ k = 0) (hl : base ≤ addr.toNat) (hu : addr.toNat < base + 2 ^ k) : a = addr := by
  have hm : addr.toNat % 2 ^ k = addr.toNat - base := by
    conv_lhs => rw [← Nat.add_sub_cancel' hl, Nat.add_mod, hd, Nat.zero_add, Nat.mod_mod]
    exact Nat.mod_eq_of_lt (by omega)
  apply BitVec.eq_of_toNat_eq
  rw [ha, BitVec.extractLsb'_toNat, Nat.shiftRight_zero, hm]
  omega

theorem zpAddr_lowBits {addr : Addr} (h : region addr = .zp) : zpAddr (addr.extractLsb' 0 8) = addr := by
  have hb : addr.toNat ≤ 0xFF := regionBounds_of_region h
  exact eq_of_lowBits (zpAddr_toNat _) (by norm_num) (by omega) (by omega)

theorem stackAddr_lowBits {addr : Addr} (h : region addr = .stack) : stackAddr (addr.extractLsb' 0 8) = addr := by
  obtain ⟨hl, hu⟩ : 0x100 ≤ addr.toNat ∧ addr.toNat ≤ 0x1FF := regionBounds_of_region h
  exact eq_of_lowBits (stackAddr_toNat _) (by norm_num) (by omega) (by omega)

theorem ramBusAddr_lowBits {addr : Addr} (h : region addr = .ram) : ramBusAddr (addr.extractLsb' 0 13) = addr := by
  obtain ⟨hl, hu⟩ : 0x200 ≤ addr.toNat ∧ addr.toNat ≤ 0x1FFF := regionBounds_of_region h
  exact eq_of_lowBits (ramBusAddr_toNat _) (by norm_num) (by omega) (by omega)

theorem viaAddr_lowBits {addr : Addr} (h : region addr = .via) : viaAddr (addr.extractLsb' 0 4) = addr := by
  obtain ⟨hl, hu⟩ : 0x2800 ≤ addr.toNat ∧ addr.toNat ≤ 0x280F := regionBounds_of_region h
  exact eq_of_lowBits (viaAddr_toNat _) (by norm_num) (by omega) (by omega)

theorem aramAddr_lowBits {addr : Addr} (h : region addr = .aram) : aramAddr (addr.extractLsb' 0 12) = addr := by
  obtain ⟨hl, hu⟩ : 0x3000 ≤ addr.toNat ∧ addr.toNat ≤ 0x3FFF := regionBounds_of_region h
  exact eq_of_lowBits (aramAddr_toNat _) (by norm_num) (by omega) (by omega)

theorem winAddr_lowBits {addr : Addr} (h : region addr = .window) : winAddr (addr.extractLsb' 0 14) = addr := by
  obtain ⟨hl, hu⟩ : 0x4000 ≤ addr.toNat ∧ addr.toNat ≤ 0x7FFF := regionBounds_of_region h
  exact eq_of_lowBits (winAddr_toNat _) (by norm_num) (by omega) (by omega)

theorem cartAddr_lowBits {addr : Addr} (h : region addr = .cart) : cartAddr (addr.extractLsb' 0 15) = addr := by
  have hl : 0x8000 ≤ addr.toNat := regionBounds_of_region h
  have hu := addr.isLt
  exact eq_of_lowBits (cartAddr_toNat _) (by norm_num) (by omega) (by omega)

/-- The 13-bit operand that the decoder takes from a RAM address is one of RD.RAM and WR.RAM (R167). -/
theorem ramAddr_lowBits {addr : Addr} (h : region addr = .ram) : ramAddr (addr.extractLsb' 0 13) = true := by
  obtain ⟨hl, -⟩ : 0x200 ≤ addr.toNat ∧ addr.toNat ≤ 0x1FFF := regionBounds_of_region h
  have hn : 0 + (addr.extractLsb' 0 13).toNat = addr.toNat :=
    (ramBusAddr_toNat _).symm.trans (congrArg BitVec.toNat (ramBusAddr_lowBits h))
  rw [ramAddr_iff]
  omega

/-- The region of each pad port is its one address (R162). -/
theorem region_ne_pads {addr : Addr} (h1 : addr ≠ 0x2008) (h2 : addr ≠ 0x2009) :
    region addr ≠ .pad1 ∧ region addr ≠ .pad2 :=
  ⟨fun h => h1 (BitVec.eq_of_toNat_eq (regionBounds_of_region h)),
    fun h => h2 (BitVec.eq_of_toNat_eq (regionBounds_of_region h))⟩

/-! A bus read at the step -/

theorem decode_busRead (m : WindowMode) (addr : Addr) : decode m (busRead addr) = .ok (decodeRead m addr) := by
  rw [busRead_eq]
  simp only [decode, decodeBus, busRw_busWord, busAddr_busWord, Bool.false_eq_true, if_false]

/-- The operation that the decoder reads from an address is the bus's read of that address (R160, R139). -/
theorem exec_decodeRead {c : Cart} {s : State} (hc : s.mem.cart = some c) (addr : Addr) :
    exec (decodeRead s.windowMode addr) s = .next (memRead c addr s) := by
  have onlyAddress : ∀ {a : Addr} (f : Addr → State), addr.toNat = a.toNat →
      (.next (f a) : Result) = .next (f addr) := fun f h => by rw [BitVec.eq_of_toNat_eq h]
  unfold decodeRead memRead
  cases hr : region addr with
  | zp | stack | via | aram | unmapped => rfl
  | ram => exact if_pos (ramAddr_lowBits hr)
  | acprst | acpnmi | banking | audioctl | dmaflags =>
    exact onlyAddress (rdWo · s) (regionBounds_of_region hr)
  | pad1 => exact onlyAddress (padRead .pad1 · s) (regionBounds_of_region hr)
  | pad2 => exact onlyAddress (padRead .pad2 · s) (regionBounds_of_region hr)
  | window =>
    simp only [windowRead]
    cases s.windowMode <;> rfl
  | cart => simp only [exec, execRdCart, hc]

/-- One step with a bus read first in the queue makes that read (R414, R160). -/
theorem step_busRead {s : State} {addr : Addr} {rest : List RawOp} {c : Cart}
    (hp : s.env.pending = busRead addr :: rest) (hc : s.mem.cart = some c) :
    step s = .next (memRead c addr { s with env := { s.env with pending := rest } }) := by
  have hx := exec_decodeRead (s := { s with env := { s.env with pending := rest } }) hc addr
  simp only [step, State.fetch, hp, decode_busRead]
  exact hx

/-! The answer -/

/-- A window read answers with a stored byte, or logs one diagnostic and answers 0 (R211, R212, R214). -/
theorem windowRead_cases (o : BitVec 14) (s : State) :
    (∃ v, windowRead o s = s.answerRead (winAddr o) v) ∨ ∃ d, windowRead o s = s.readNothing (winAddr o) d := by
  unfold windowRead
  cases s.windowMode with
  | registers => exact .inr ⟨_, rfl⟩
  | framebuffer | vram => exact .inl ⟨_, rfl⟩

/-- A read of any address but the pad ports only answers, or logs one diagnostic and answers 0 (R160, R174, R186). -/
theorem memRead_cases (c : Cart) {addr : Addr} (h1 : addr ≠ 0x2008) (h2 : addr ≠ 0x2009) (s : State) :
    (∃ v, memRead c addr s = s.answerRead addr v) ∨ ∃ d, memRead c addr s = s.readNothing addr d := by
  obtain ⟨hn1, hn2⟩ := region_ne_pads h1 h2
  have answers : ∀ {a : Addr} (v : Byte), a = addr → ∃ w, s.answerRead a v = s.answerRead addr w :=
    fun v h => ⟨v, by rw [h]⟩
  unfold memRead
  cases hr : region addr with
  | zp => exact .inl (answers _ (zpAddr_lowBits hr))
  | stack => exact .inl (answers _ (stackAddr_lowBits hr))
  | ram => exact .inl (answers _ (ramBusAddr_lowBits hr))
  | via => exact .inl (answers _ (viaAddr_lowBits hr))
  | aram => exact .inl (answers _ (aramAddr_lowBits hr))
  | cart => exact .inl (answers _ (cartAddr_lowBits hr))
  | acprst | acpnmi | banking | audioctl | dmaflags | unmapped => exact .inr ⟨_, rfl⟩
  | window => simpa only [winAddr_lowBits hr] using windowRead_cases (addr.extractLsb' 0 14) s
  | pad1 => exact absurd hr hn1
  | pad2 => exact absurd hr hn2

/-- Settles O14: the step is the bus's read, and each form of its answer changes the count and the outputs only. -/
theorem onlyPadPortsHaveReadEffects : Obligations.OnlyPadPortsHaveReadEffects := by
  intro s addr rest c hp hc h1 h2
  rw [step_busRead hp hc]
  rcases memRead_cases c h1 h2 { s with env := { s.env with pending := rest } } with ⟨v, e⟩ | ⟨d, e⟩
  · exact ⟨v, s.env.diags, congrArg Host.Outcome.next e, .inl rfl⟩
  · exact ⟨0, d :: s.env.diags, congrArg Host.Outcome.next e, .inr ⟨rfl, d, rfl⟩⟩

end Sys2Proof.Machine
end

section
/-! PROOFS. The encodings: the decoder and the encoder are inverse to each other on the operations that the decoder
answers, and the masks of Table E1 name the ranges of R162. -/

namespace Sys2Proof.Machine

/-! The fields of a bus word and of an address -/

/-- A mask that clears the low `k` bits rounds down to a multiple of `2 ^ k`. -/
theorem toNat_and_highMask {w : Nat} (x : BitVec w) (k : Nat) :
    (x &&& BitVec.allOnes w <<< k).toNat = x.toNat / 2 ^ k * 2 ^ k := by
  rw [← BitVec.shiftLeft_ushiftRight, BitVec.toNat_shiftLeft, BitVec.toNat_ushiftRight, Nat.shiftRight_eq_div_pow,
    Nat.shiftLeft_eq]
  exact Nat.mod_eq_of_lt ((Nat.div_mul_le_self ..).trans_lt x.isLt)

theorem busAddr_toNat (w : BitVec 25) : (busAddr w).toNat = w.toNat / 2 ^ 8 % 2 ^ 16 := by
  rw [busAddr, BitVec.extractLsb'_toNat, Nat.shiftRight_eq_div_pow]

theorem busData_toNat (w : BitVec 25) : (busData w).toNat = w.toNat % 2 ^ 8 := by
  rw [busData, BitVec.extractLsb'_toNat, Nat.shiftRight_zero]

theorem busRw_toNat (w : BitVec 25) : (busRw w).toNat = w.toNat / 2 ^ 24 := by
  have hw := w.isLt
  rw [busRw, BitVec.getLsbD, Nat.toNat_testBit]
  omega

/-- The three fields of a BUS word make up the word (R120). -/
theorem busWord_fields (w : BitVec 25) : busWord (busRw w) (busAddr w) (busData w) = w := by
  apply BitVec.eq_of_toNat_eq
  rw [busWord_toNat, busRw_toNat, busAddr_toNat, busData_toNat]
  omega

/-- A BUS word with its data field written as 0 (R120). -/
theorem busWord_noData (w : BitVec 25) : busWord (busRw w) (busAddr w) 0 = w &&& 0x1FFFF00 := by
  have hm : (0x1FFFF00 : BitVec 25) = BitVec.allOnes 25 <<< 8 := by decide
  have hd : (0 : Byte).toNat = 0 := rfl
  apply BitVec.eq_of_toNat_eq
  rw [hm, toNat_and_highMask, busWord_toNat, busRw_toNat, busAddr_toNat, hd]
  omega

@[simp] theorem zpAddr_low (o : BitVec 8) : (zpAddr o).extractLsb' 0 8 = o := BitVec.extractLsb'_append_eq_right
@[simp] theorem stackAddr_low (o : BitVec 8) : (stackAddr o).extractLsb' 0 8 = o := BitVec.extractLsb'_append_eq_right
@[simp] theorem ramBusAddr_low (a : BitVec 13) : (ramBusAddr a).extractLsb' 0 13 = a :=
  BitVec.extractLsb'_append_eq_right
@[simp] theorem viaAddr_low (r : BitVec 4) : (viaAddr r).extractLsb' 0 4 = r := BitVec.extractLsb'_append_eq_right
@[simp] theorem aramAddr_low (o : BitVec 12) : (aramAddr o).extractLsb' 0 12 = o := BitVec.extractLsb'_append_eq_right
@[simp] theorem winAddr_low (o : BitVec 14) : (winAddr o).extractLsb' 0 14 = o := BitVec.extractLsb'_append_eq_right
@[simp] theorem cartAddr_low (o : BitVec 15) : (cartAddr o).extractLsb' 0 15 = o := BitVec.extractLsb'_append_eq_right

/-- `addr[2:0]` of a blitter register's address is its number (R133). -/
@[simp] theorem brAddr_register (k : BitVec 11) (i : BitVec 3) : (brAddr k i).extractLsb' 0 3 = i :=
  BitVec.extractLsb'_append_eq_right

/-- `addr[13:3]` of a blitter register's address is its repetition (R133). -/
@[simp] theorem brAddr_repetition (k : BitVec 11) (i : BitVec 3) : (brAddr k i).extractLsb' 3 11 = k := by
  have hi := i.isLt
  apply BitVec.eq_of_toNat_eq
  rw [BitVec.extractLsb'_toNat, brAddr_toNat, Nat.shiftRight_eq_div_pow]
  omega

/-- Every window address is that of a blitter register in one of its repetitions (R133). -/
theorem brAddr_fields {addr : Addr} (h : region addr = .window) :
    brAddr (addr.extractLsb' 3 11) (addr.extractLsb' 0 3) = addr := by
  obtain ⟨hl, hu⟩ : 0x4000 ≤ addr.toNat ∧ addr.toNat ≤ 0x7FFF := regionBounds_of_region h
  apply BitVec.eq_of_toNat_eq
  rw [brAddr_toNat, BitVec.extractLsb'_toNat, BitVec.extractLsb'_toNat, Nat.shiftRight_eq_div_pow, Nat.shiftRight_zero]
  omega

/-! The operand bytes of an event (log entry 10) -/

/-- A number in the first operand field, whatever follows it. -/
theorem operandNat_first {n : Nat} (h : n < 2 ^ 64) (ops : List Byte) : operandNat (bytesOfNat 8 n ++ ops) 0 = n := by
  rw [operandNat, List.drop_zero, List.take_left' (bytesOfNat_length 8 n)]
  exact natOfBytes_bytesOfNat 8 n h

theorem operandNat_only {n : Nat} (h : n < 2 ^ 64) : operandNat (bytesOfNat 8 n) 0 = n := by
  simpa only [List.append_nil] using operandNat_first h []

/-- A number in the second operand field. -/
theorem operandNat_second (n : Nat) {d : Nat} (h : d < 2 ^ 64) :
    operandNat (bytesOfNat 8 n ++ bytesOfNat 8 d) 1 = d := by
  rw [operandNat, List.drop_left' (bytesOfNat_length 8 n), List.take_of_length_le (bytesOfNat_length 8 d).le]
  exact natOfBytes_bytesOfNat 8 d h

/-- An address in operand bytes 0 and 1, low byte first. -/
theorem operandAddr_bytes (a : Addr) (ops : List Byte) :
    operandAddr (a.extractLsb' 0 8 :: a.extractLsb' 8 8 :: ops) = a := by
  apply BitVec.eq_of_toNat_eq
  change (a.extractLsb' 8 8 ++ a.extractLsb' 0 8).toNat = a.toNat
  rw [toNat_append_field, BitVec.extractLsb'_toNat, BitVec.extractLsb'_toNat, Nat.shiftRight_eq_div_pow,
    Nat.shiftRight_zero]
  omega

/-! Decoding an encoded operation -/

theorem decode_busWrite (m : WindowMode) (addr : Addr) (v : Byte) :
    decode m (busWrite addr v) = .ok (decodeWrite m addr v) := by
  rw [busWrite_eq]
  simp only [decode, decodeBus, busRw_busWord, busAddr_busWord, busData_busWord, if_true]

/-- In register mode a write of a blitter register's address is decoded by the number of the register (R139, R140). -/
theorem decodeWrite_brAddr (k : BitVec 11) (i : BitVec 3) (v : Byte) :
    decodeWrite .registers (brAddr k i) v = decodeBrWrite (brAddr k i) v := by
  simp only [decodeWrite, region_brAddr]

/-- Settles O4, by the operation's encoding: a bus address has its region and its operand field, and an event's operand
bytes give back the numbers they were written from. -/
theorem decodeOfEncode : Obligations.DecodeOfEncode := by
  intro m i hwf hans
  cases i with
  | rdZp | rdStack | rdVia | rdAram | rdCart => simp [encode, decode_busRead, decodeRead]
  | wrZp | wrStack | wrVia | wrAram | wrCart => simp [encode, decode_busWrite, decodeWrite]
  | rdRam a => simp [encode, decode_busRead, decodeRead, region_ramBusAddr a hwf]
  | wrRam a => simp [encode, decode_busWrite, decodeWrite, region_ramBusAddr a hwf]
  | rdUnmapped => simp [encode, decode_busRead, decodeRead, region_unmapped hwf]
  | wrUnmapped => simp [encode, decode_busWrite, decodeWrite, region_unmapped hwf]
  | rdWoAcprst | rdWoAcpnmi | rdWoBank | rdWoAudio | rdWoDma | rdPad1 | rdPad2 => exact decode_busRead m _
  | wrAcprst | wrAcpnmi | wrBank | wrAudio | wrDma | wrPad1 | wrPad2 => exact decode_busWrite m _ _
  | rdWin | wrWin => exact absurd hans Bool.false_ne_true
  | rdBr | rdFb | rdVram =>
    obtain rfl := beq_iff_eq.1 hans
    simp [encode, decode_busRead, decodeRead]
  | wrFb | wrVram =>
    obtain rfl := beq_iff_eq.1 hans
    simp [encode, decode_busWrite, decodeWrite]
  | wrBr0 | wrBr1 | wrBr2 | wrBr3 | wrBr4 | wrBr5 | wrBr6 | wrBr7 =>
    obtain rfl := beq_iff_eq.1 hans
    simp [encode, decode_busWrite, decodeWrite_brAddr, decodeBrWrite]
  | tick | vblank | hPoweron =>
    simp [encode, decode, decodeEvt, operandNat_only (of_decide_eq_true hwf)]
  | aRecreate n d =>
    simp only [wellFormed, fitsPos64, Bool.and_eq_true, decide_eq_true_eq] at hwf
    obtain ⟨⟨hn, hn'⟩, hd, hd'⟩ := hwf
    have hn1 : n - 1 < 2 ^ 64 := by omega
    have hd1 : d - 1 < 2 ^ 64 := by omega
    simp [encode, decode, decodeEvt, operandNat_first hn1, operandNat_second _ hd1, Nat.sub_add_cancel hn,
      Nat.sub_add_cancel hd]
  | hSetbtn p b pressed => cases p <;> cases pressed <;> rfl
  | acpRd a => exact congrArg (Except.ok <| Instr.acpRd ·) (operandAddr_bytes a [])
  | acpWr a v => exact congrArg (Except.ok <| Instr.acpWr · v) (operandAddr_bytes a [v])
  | bstep | iter | acploop | sample | irqprop | aPush | aResample | aCommit | aDrain | aPop | hLoadrom | hReadfb
  | hInstant => rfl

/-! Encoding a decoded bus word -/

/-- In window mode `m` the decoder answers the operation `i`, which is well formed and is encoded as `raw`. -/
structure Answers (m : WindowMode) (i : Instr) (raw : RawOp) : Prop where
  wf : wellFormed i = true
  answered : answeredIn m i = true
  encoded : encode i = raw

/-- The read operation of an address is a well-formed one that is encoded as a read of that address (R160, R139). -/
theorem decodeRead_answers (m : WindowMode) (addr : Addr) : Answers m (decodeRead m addr) (busRead addr) := by
  have fixed : ∀ {a : Addr}, addr.toNat = a.toNat → busRead a = busRead addr := fun h => by
    rw [BitVec.eq_of_toNat_eq h]
  unfold decodeRead
  cases hr : region addr with
  | zp => exact ⟨rfl, rfl, congrArg busRead (zpAddr_lowBits hr)⟩
  | stack => exact ⟨rfl, rfl, congrArg busRead (stackAddr_lowBits hr)⟩
  | ram => exact ⟨ramAddr_lowBits hr, rfl, congrArg busRead (ramBusAddr_lowBits hr)⟩
  | acprst | acpnmi | banking | audioctl | dmaflags | pad1 | pad2 =>
    exact ⟨rfl, rfl, fixed (regionBounds_of_region hr)⟩
  | via => exact ⟨rfl, rfl, congrArg busRead (viaAddr_lowBits hr)⟩
  | aram => exact ⟨rfl, rfl, congrArg busRead (aramAddr_lowBits hr)⟩
  | window => cases m <;> exact ⟨rfl, rfl, congrArg busRead (winAddr_lowBits hr)⟩
  | cart => exact ⟨rfl, rfl, congrArg busRead (cartAddr_lowBits hr)⟩
  | unmapped => exact ⟨(unmappedAddr_iff addr).2 (regionBounds_of_region hr), rfl, rfl⟩

/-- A window write in register mode is encoded as a write of the register that `addr[2:0]` numbers (R133, Table E3). -/
theorem decodeBrWrite_answers {addr : Addr} (h : region addr = .window) (v : Byte) :
    Answers .registers (decodeBrWrite addr v) (busWrite addr v) := by
  have numbered : ∀ {i : BitVec 3}, (addr.extractLsb' 0 3).toNat = i.toNat →
      busWrite (brAddr (addr.extractLsb' 3 11) i) v = busWrite addr v := fun hi => by
    rw [← BitVec.eq_of_toNat_eq hi, brAddr_fields h]
  have hlt : (addr.extractLsb' 0 3).toNat < 8 := BitVec.isLt _
  unfold decodeBrWrite
  interval_cases (addr.extractLsb' 0 3).toNat <;> exact ⟨rfl, rfl, numbered rfl⟩

/-- The write operation of an address is a well-formed one that is encoded as a write of that address (R161, R139). -/
theorem decodeWrite_answers (m : WindowMode) (addr : Addr) (v : Byte) :
    Answers m (decodeWrite m addr v) (busWrite addr v) := by
  have fixed : ∀ {a : Addr}, addr.toNat = a.toNat → busWrite a v = busWrite addr v := fun h => by
    rw [BitVec.eq_of_toNat_eq h]
  unfold decodeWrite
  cases hr : region addr with
  | zp => exact ⟨rfl, rfl, congrArg (busWrite · v) (zpAddr_lowBits hr)⟩
  | stack => exact ⟨rfl, rfl, congrArg (busWrite · v) (stackAddr_lowBits hr)⟩
  | ram => exact ⟨ramAddr_lowBits hr, rfl, congrArg (busWrite · v) (ramBusAddr_lowBits hr)⟩
  | acprst | acpnmi | banking | audioctl | dmaflags | pad1 | pad2 =>
    exact ⟨rfl, rfl, fixed (regionBounds_of_region hr)⟩
  | via => exact ⟨rfl, rfl, congrArg (busWrite · v) (viaAddr_lowBits hr)⟩
  | aram => exact ⟨rfl, rfl, congrArg (busWrite · v) (aramAddr_lowBits hr)⟩
  | window =>
    cases m with
    | registers => exact decodeBrWrite_answers hr v
    | framebuffer | vram => exact ⟨rfl, rfl, congrArg (busWrite · v) (winAddr_lowBits hr)⟩
  | cart => exact ⟨rfl, rfl, congrArg (busWrite · v) (cartAddr_lowBits hr)⟩
  | unmapped => exact ⟨(unmappedAddr_iff addr).2 (regionBounds_of_region hr), rfl, rfl⟩

/-- Every BUS word is answered by an operation that is encoded as the same word, without the data field of a read
(R120, R138, R188). -/
theorem decodeBus_answers (m : WindowMode) (w : BitVec 25) :
    Answers m (decodeBus m w) (.bus (if busRw w = true then w else w &&& 0x1FFFF00)) := by
  have hw := busWord_fields w
  have hn := busWord_noData w
  unfold decodeBus
  cases hrw : busRw w with
  | true =>
    rw [hrw] at hw
    have h := decodeWrite_answers m (busAddr w) (busData w)
    rwa [busWrite_eq, hw] at h
  | false =>
    rw [hrw] at hn
    have h := decodeRead_answers m (busAddr w)
    rwa [busRead_eq, hn] at h

/-- Settles O5: the word's operation is the one that the decoder answers. -/
theorem encodeOfDecodedWord : Obligations.EncodeOfDecodedWord := by
  intro m w
  obtain ⟨hwf, hans, henc⟩ := decodeBus_answers m w
  exact ⟨decodeBus m w, rfl, hwf, hans, henc⟩

/-! The masks of Table E1 -/

/-- The addresses that a line of Table E1 admits, as a range: from its match, by as many as its mask leaves free. -/
def lineHolds (line : Addr × Addr × Region) (addr : Addr) : Bool :=
  line.2.1.toNat ≤ addr.toNat ∧ addr.toNat ≤ line.2.1.toNat + (~~~line.1).toNat

/-- The masks of Table E1 clear low bits only, and each match is a multiple of the range's size (R136). -/
theorem tableE1_aligned : ∀ line ∈ tableE1, ∃ k ∈ List.range 17,
    line.1 = BitVec.allOnes 16 <<< k ∧ (~~~line.1).toNat = 2 ^ k - 1 ∧ line.2.1.toNat % 2 ^ k = 0 := by decide

/-- A line of Table E1 matches the addresses of its range (R136). -/
theorem mask_match {line : Addr × Addr × Region} (hl : line ∈ tableE1) (addr : Addr) :
    (addr &&& line.1 == line.2.1) = lineHolds line addr := by
  obtain ⟨k, -, hmask, hfree, hmatch⟩ := tableE1_aligned line hl
  have hk : 0 < 2 ^ k := Nat.two_pow_pos k
  obtain ⟨q, hq⟩ := Nat.dvd_of_mod_eq_zero hmatch
  rw [lineHolds, hfree, hq, Bool.eq_iff_iff, beq_iff_eq, decide_eq_true_iff, ← BitVec.toNat_inj, hmask,
    toNat_and_highMask, hq, Nat.mul_comm, Nat.mul_right_inj hk.ne', Nat.div_eq_iff hk,
    Nat.mul_comm q, Nat.add_sub_assoc hk]

/-- The mask decoder takes the first line whose range holds the address. -/
theorem regionByMask_eq_ranges (addr : Addr) :
    regionByMask addr = ((tableE1.find? (lineHolds · addr)).map fun line => line.2.2).getD .unmapped := by
  rw [regionByMask, List.find?_congr fun line hl => mask_match hl addr]

/-- Settles O6, by the region of the address: its bounds exclude the range of every line before its own. -/
theorem maskDecoderAgreesWithTheRanges : Obligations.MaskDecoderAgreesWithTheRanges := by
  intro addr
  have hlt : addr.toNat < 0x10000 := addr.isLt
  have hb := region_bounds addr
  simp only [regionByMask_eq_ranges, tableE1, List.find?_cons, lineHolds, BitVec.reduceToNat, BitVec.reduceNot]
  generalize region addr = r at hb ⊢
  cases r
  all_goals
    simp only [regionBounds] at hb
    simp (disch := omega) only [decide_eq_true, decide_eq_false, Option.map_some, Option.getD_some]

/-! The step -/

theorem step_of_pending {s : State} {raw : RawOp} {rest : List RawOp} {i : Instr} (hp : s.env.pending = raw :: rest)
    (hd : decode s.windowMode raw = .ok i) : step s = exec i { s with env := { s.env with pending := rest } } := by
  simp only [step, State.fetch, hp, hd]

/-- Settles O1: the step fetches the waiting operation and runs what the decoder reads from it. -/
theorem stepRunsTheDecodedInstruction : Obligations.StepRunsTheDecodedInstruction :=
  fun _ _ _ _ hp hd _ => step_of_pending hp hd

/-- Settles O3: each word is decoded by computation. -/
theorem wordsOfTheSpecDecode : Obligations.WordsOfTheSpecDecode := by
  unfold Obligations.WordsOfTheSpecDecode
  decide

end Sys2Proof.Machine
end

section
/-! PROOFS. A bus transaction of a CPU step and the operation that the decoder answers do the same; the one cycle that it
counts; and which operations complete, with the stops of those that need not. -/

namespace Sys2Proof.Machine

/-! A bus write at the step -/

/-- `addr[2:0]` of a window address is that of its window offset (R132, R133). -/
theorem offset_register (addr : Addr) : (addr.extractLsb' 0 14).toNat % 8 = (addr.extractLsb' 0 3).toNat := by
  simp only [BitVec.extractLsb'_toNat, Nat.shiftRight_zero]
  omega

/-- The decoder's register write is the write of the register that `addr[2:0]` numbers (R202, Table E3). -/
theorem exec_decodeBrWrite (addr : Addr) (v : Byte) (s : State) :
    exec (decodeBrWrite addr v) s = .next (writeBr (addr.extractLsb' 0 3).toNat v s) := by
  have hlt : (addr.extractLsb' 0 3).toNat < 8 := BitVec.isLt _
  unfold decodeBrWrite
  interval_cases (addr.extractLsb' 0 3).toNat <;> rfl

/-- In every mode the decoder's window read is `WindowRead` of the offset (R183, R139). -/
theorem exec_decodeRead_window {addr : Addr} (h : region addr = .window) (s : State) :
    exec (decodeRead s.windowMode addr) s = .next (windowRead (addr.extractLsb' 0 14) s) := by
  simp only [decodeRead, h, windowRead]
  cases s.windowMode <;> rfl

/-- In every mode the decoder's window write is `WindowWrite` of the offset (R183, R139). -/
theorem exec_decodeWrite_window {addr : Addr} (h : region addr = .window) (v : Byte) (s : State) :
    exec (decodeWrite s.windowMode addr v) s = .next (windowWrite (addr.extractLsb' 0 14) v s) := by
  simp only [decodeWrite, h, windowWrite]
  cases s.windowMode with
  | registers =>
    simp only [offset_register]
    exact exec_decodeBrWrite addr v s
  | framebuffer | vram => rfl

/-- The operation that the decoder reads from an address and a datum is the bus's write (R161, R139). -/
theorem exec_decodeWrite (addr : Addr) (v : Byte) (s : State) :
    exec (decodeWrite s.windowMode addr v) s = .next (memWrite addr v s) := by
  have onlyAddress : ∀ {a : Addr}, addr.toNat = a.toNat →
      (.next (wrPad a s) : Result) = .next (wrPad addr s) := fun h => by rw [BitVec.eq_of_toNat_eq h]
  cases hr : region addr with
  | window =>
    simp only [memWrite, hr]
    exact exec_decodeWrite_window hr v s
  | ram =>
    simp only [decodeWrite, memWrite, hr]
    exact if_pos (ramAddr_lowBits hr)
  | pad1 | pad2 =>
    simp only [decodeWrite, memWrite, hr]
    exact onlyAddress (regionBounds_of_region hr)
  | zp | stack | acprst | acpnmi | banking | audioctl | dmaflags | via | aram | cart | unmapped =>
    simp only [decodeWrite, memWrite, hr]
    rfl

/-- Settles O9: each direction's decoded operation is the bus's access, region by region. -/
theorem busAccessIsTheDecodedInstruction : Obligations.BusAccessIsTheDecodedInstruction :=
  fun _ s hc => ⟨exec_decodeRead hc, fun addr v => exec_decodeWrite addr v s⟩

/-- Settles O27: both rows of a direction are the window's access at the offset. -/
theorem windowRowsHandOver : Obligations.WindowRowsHandOver := by
  intro s o v
  have hr := exec_decodeRead_window (region_winAddr o) s
  have hw := exec_decodeWrite_window (region_winAddr o) v s
  rw [winAddr_low] at hr hw
  exact ⟨windowRead o s, windowWrite o v s, rfl, hr, rfl, hw⟩

/-! The cycle count -/

/-- Between `s` and `t` the diagnostic output grows by one record or not at all (R383). -/
def LogsAtMostOne (s t : State) : Prop := t.env.diags = s.env.diags ∨ ∃ d, t.env.diags = d :: s.env.diags

theorem padRead_diags (p : PadPort) (addr : Addr) (s : State) : (padRead p addr s).env.diags = s.env.diags := by
  obtain ⟨-, -, -, -, -, -, henv, -⟩ := padSelects_effect s p
  simp only [padRead, State.answerRead_diags, henv]

theorem memRead_logs (c : Cart) (addr : Addr) (s : State) : LogsAtMostOne s (memRead c addr s) := by
  by_cases hp : addr = 0x2008 ∨ addr = 0x2009
  · rcases hp with rfl | rfl
    · exact .inl (padRead_diags .pad1 _ s)
    · exact .inl (padRead_diags .pad2 _ s)
  · obtain ⟨h1, h2⟩ := not_or.1 hp
    rcases memRead_cases c h1 h2 s with ⟨v, e⟩ | ⟨d, e⟩ <;> rw [e]
    · exact .inl rfl
    · exact .inr ⟨d, rfl⟩

/-- A window write logs nothing (R183). -/
theorem windowWrite_env (o : BitVec 14) (v : Byte) (s : State) : (windowWrite o v s).env = s.env := by
  unfold windowWrite
  cases s.windowMode with
  | registers => rcases writeBr_cases (o.toNat % 8) v s with ⟨-, e⟩ | ⟨r, e⟩ <;> simp only [e] <;> rfl
  | framebuffer | vram => rfl

theorem memWrite_logs (addr : Addr) (v : Byte) (s : State) : LogsAtMostOne s (memWrite addr v s) := by
  unfold memWrite
  cases region addr with
  | zp | stack | ram | acprst | acpnmi | banking | audioctl | dmaflags | via | aram => exact .inl rfl
  | pad1 | pad2 | cart | unmapped => exact .inr ⟨_, rfl⟩
  | window => exact .inl (congrArg Environment.diags (windowWrite_env ..))

theorem busAccess_logs (c : Cart) (op : BusOp) (s : State) : LogsAtMostOne s (busAccess c op s) := by
  cases op with
  | read addr => exact memRead_logs c addr s
  | write addr v => exact memWrite_logs addr v s

/-- Every BUS word is decoded to an access of the bus (R120, R188). -/
theorem exec_decodeBus {c : Cart} {s : State} (hc : s.mem.cart = some c) (w : BitVec 25) :
    ∃ op, exec (decodeBus s.windowMode w) s = .next (busAccess c op s) := by
  unfold decodeBus
  split
  · exact ⟨.write (busAddr w) (busData w), exec_decodeWrite ..⟩
  · exact ⟨.read (busAddr w), exec_decodeRead hc _⟩

/-- One step with a BUS word first in the queue makes one access (R188, R414). -/
theorem step_bus {s : State} {w : BitVec 25} {rest : List RawOp} {c : Cart} (hp : s.env.pending = .bus w :: rest)
    (hc : s.mem.cart = some c) :
    ∃ op, step s = .next (busAccess c op { s with env := { s.env with pending := rest } }) := by
  obtain ⟨op, h⟩ := exec_decodeBus (s := { s with env := { s.env with pending := rest } }) hc w
  exact ⟨op, (step_of_pending hp rfl).trans h⟩

/-- Between `s` and `t` the count of bus cycles stays (R189). -/
def SameCount (s t : State) : Prop := t.orch.cycleCounter = s.orch.cycleCounter

theorem SameCount.of_orch {s t : State} (h : t.orch = s.orch) : SameCount s t := congrArg Orchestrator.cycleCounter h

theorem loadRom_orch (bytes : List Byte) (s : State) : (loadRom bytes s).orch = s.orch := by
  unfold loadRom
  cases cartOfImage bytes <;> rfl

/-- Settles O10: a bus word makes one access of the bus, and the effect of each operation of another agent leaves the
count. -/
theorem transactionsCountOneCycle : Obligations.TransactionsCountOneCycle := by
  refine ⟨fun s w rest c hp hc => ?_, fun s t i h hi => ?_⟩
  · obtain ⟨op, e⟩ := step_bus hp hc
    have he := busAccess_effect c op { s with env := { s.env with pending := rest } }
    exact ⟨_, e, he.orch, he.audio, he.cfg, he.cart, busAccess_logs c op _⟩
  · change SameCount s t
    rcases hi with rfl | rfl | ⟨v, rfl⟩ | ⟨a, rfl⟩ | ⟨a, v, rfl⟩ | ⟨v, rfl⟩ | rfl | rfl | rfl | rfl | ⟨n, d, rfl⟩ |
      ⟨b, rfl⟩ | ⟨p, b, x, rfl⟩ | rfl | rfl
    · exact of_next h (.of_orch (blitStep_effect s).orch)
    · exact of_next h (acpLoop_effect s).cycles
    · exact of_next h (sampleEvent_effect v s).acp.cycles
    · exact of_next h (acpAccess_effect (.read a) s).1.cycles
    · exact of_next h (acpAccess_effect (.write a v) s).1.cycles
    · exact of_next h (.of_orch (audioPush_effect v s).orch)
    · exact of_ite_next h (fun _ h => nomatch h) fun h => of_next h (.of_orch (audioResample_effect s).orch)
    · exact of_next h (.of_orch (audioCommit_effect s).orch)
    · exact of_ite_next h (fun _ h => nomatch h) fun h => of_next h (.of_orch (audioDrain_effect s).orch)
    · exact of_next h (.of_orch (audioPop_effect s).orch)
    · exact of_ite_next h (fun _ h => of_next h (.of_orch rfl)) fun h => nomatch h
    · exact of_next h (.of_orch (loadRom_orch b s))
    · exact of_ite_next h (fun _ h => of_next h (.of_orch (s.setPad_orch ..))) fun h => nomatch h
    · exact of_next h (.of_orch rfl)
    · exact of_next h (.of_orch (blitUntilIdle_effect _ s).orch)

/-! The stops -/

/-- The stops: an operation that the state has no effect for, and the outcome it has. -/
inductive Stop (s : State) : Instr → Result → Prop
  | rdRam (a : BitVec 13) (ha : a.toNat < 0x200) : Stop s (.rdRam a) (.fault .noSuchCell)
  | wrRam (a : BitVec 13) (v : Byte) (ha : a.toNat < 0x200) : Stop s (.wrRam a v) (.fault .noSuchCell)
  | iter (hc : s.mem.cart = none) : Stop s .iter (.refused .noCartridge)
  | tick (n : Nat) (hc : s.mem.cart = none) : Stop s (.tick n) (.refused .noCartridge)
  | rdCart (o : BitVec 15) (hc : s.mem.cart = none) : Stop s (.rdCart o) (.refused .noCartridge)
  | aResample (hn : 64 ≤ s.audio.nr.length) (hr : s.audio.rs = none) : Stop s .aResample (.refused .noResampler)
  | aDrain (hn : 64 ≤ s.audio.nr.length) (hr : s.audio.rs = none) : Stop s .aDrain (.refused .noResampler)
  | aRecreate (n d : Nat) (h : n = 0 ∨ d = 0) : Stop s (.aRecreate n d) (.refused .noSuchRate)
  | hSetbtn (p : PadPort) (b : BitVec 8) (pressed : Bool) (hb : s.cfg.buttons ≤ b.toNat) :
    Stop s (.hSetbtn p b pressed) (.refused .noSuchButton)

theorem not_exhausted_iff (a : AudioPipeline) : exhausted a = false ↔ 64 ≤ a.nr.length := by
  rw [exhausted, decide_eq_false_iff_not, Nat.not_lt]
  rfl

theorem resamplerMissing_iff (s : State) :
    resamplerMissing s = true ↔ 64 ≤ s.audio.nr.length ∧ s.audio.rs = none := by
  rw [resamplerMissing, Bool.and_eq_true, Bool.not_eq_true', not_exhausted_iff, Option.isNone_iff_eq_none]

theorem Stop.exec_eq {s : State} {i : Instr} {r : Result} (h : Stop s i r) : exec i s = r := by
  cases h with
  | rdRam a ha | wrRam a v ha => exact if_neg (by rw [ramAddr_iff]; omega)
  | iter hc => simp only [exec, execIter, hc]
  | tick n hc => simp only [exec, execTick, hc]
  | rdCart o hc => simp only [exec, execRdCart, hc]
  | aResample hn hr | aDrain hn hr => exact if_pos ((resamplerMissing_iff s).2 ⟨hn, hr⟩)
  | aRecreate n d h => exact if_neg (by omega)
  | hSetbtn p b pressed hb => exact if_neg (by omega)

/-- Every operation completes or is one of the stops, by its meaning. -/
theorem exec_next_or_stop (i : Instr) (s : State) : (∃ t, exec i s = .next t) ∨ Stop s i (exec i s) := by
  have stops : ∀ {r}, Stop s i r → (∃ t, exec i s = .next t) ∨ Stop s i (exec i s) := fun h => .inr (h.exec_eq ▸ h)
  cases i with
  | rdRam a =>
    by_cases ha : ramAddr a = true
    · exact .inl ⟨_, if_pos ha⟩
    · exact stops (.rdRam a (by rw [ramAddr_iff] at ha; omega))
  | wrRam a v =>
    by_cases ha : ramAddr a = true
    · exact .inl ⟨_, if_pos ha⟩
    · exact stops (.wrRam a v (by rw [ramAddr_iff] at ha; omega))
  | iter =>
    cases hc : s.mem.cart with
    | none => exact stops (.iter hc)
    | some c => exact .inl ⟨iteration c s, by simp only [exec, execIter, hc]⟩
  | tick n =>
    cases hc : s.mem.cart with
    | none => exact stops (.tick n hc)
    | some c => exact .inl ⟨tick c n s, by simp only [exec, execTick, hc]⟩
  | rdCart o =>
    cases hc : s.mem.cart with
    | none => exact stops (.rdCart o hc)
    | some c => exact .inl ⟨rdCart c o s, by simp only [exec, execRdCart, hc]⟩
  | aResample =>
    by_cases h : resamplerMissing s = true
    · obtain ⟨hn, hr⟩ := (resamplerMissing_iff s).1 h
      exact stops (.aResample hn hr)
    · exact .inl ⟨_, if_neg h⟩
  | aDrain =>
    by_cases h : resamplerMissing s = true
    · obtain ⟨hn, hr⟩ := (resamplerMissing_iff s).1 h
      exact stops (.aDrain hn hr)
    · exact .inl ⟨_, if_neg h⟩
  | aRecreate n d =>
    by_cases h : 0 < n ∧ 0 < d
    · exact .inl ⟨_, if_pos h⟩
    · exact stops (.aRecreate n d (by omega))
  | hSetbtn p b pressed =>
    by_cases h : b.toNat < s.cfg.buttons
    · exact .inl ⟨_, if_pos h⟩
    · exact stops (.hSetbtn p b pressed (by omega))
  | _ => exact .inl ⟨_, rfl⟩

/-- An outcome that is no next state is that of a stop, and conversely. -/
theorem stop_iff {i : Instr} {s : State} {r : Result} (hr : ∀ t, r ≠ .next t) : exec i s = r ↔ Stop s i r := by
  refine ⟨fun h => ?_, Stop.exec_eq⟩
  rcases exec_next_or_stop i s with ⟨t, e⟩ | hs
  · exact absurd (h.symm.trans e) (hr t)
  · exact h ▸ hs

/-- Settles O12, by the list of the stops. -/
theorem stopsAreExactlyThese : Obligations.StopsAreExactlyThese := by
  refine fun i s => ⟨fun f => ?_, fun r => ?_⟩
  · rw [stop_iff (by simp)]
    constructor
    · intro h
      cases h with
      | rdRam a ha => exact ⟨rfl, a, ha, .inl rfl⟩
      | wrRam a v ha => exact ⟨rfl, a, ha, .inr ⟨v, rfl⟩⟩
    · rintro ⟨rfl, a, ha, rfl | ⟨v, rfl⟩⟩
      · exact .rdRam a ha
      · exact .wrRam a v ha
  · rw [stop_iff (by simp)]
    constructor
    · intro h
      cases h with
      | iter hc => exact .inl ⟨rfl, hc, .inl rfl⟩
      | tick n hc => exact .inl ⟨rfl, hc, .inr (.inl ⟨n, rfl⟩)⟩
      | rdCart o hc => exact .inl ⟨rfl, hc, .inr (.inr ⟨o, rfl⟩)⟩
      | aResample hn hr => exact .inr (.inl ⟨rfl, hn, hr, .inl rfl⟩)
      | aDrain hn hr => exact .inr (.inl ⟨rfl, hn, hr, .inr rfl⟩)
      | aRecreate n d h => exact .inr (.inr (.inl ⟨rfl, n, d, rfl, h⟩))
      | hSetbtn p b pressed hb => exact .inr (.inr (.inr ⟨rfl, p, b, pressed, rfl, hb⟩))
    · rintro (⟨rfl, hc, rfl | ⟨n, rfl⟩ | ⟨o, rfl⟩⟩ | ⟨rfl, hn, hr, rfl | rfl⟩ | ⟨rfl, n, d, rfl, h⟩ |
        ⟨rfl, p, b, pressed, rfl, hb⟩)
      · exact .iter hc
      · exact .tick n hc
      · exact .rdCart o hc
      · exact .aResample hn hr
      · exact .aDrain hn hr
      · exact .aRecreate n d h
      · exact .hSetbtn p b pressed hb

/-- Settles O11: each premise excludes the stops of its operations, and a well-formed operand the others. -/
theorem everyOperationCompletes : Obligations.EveryOperationCompletes := by
  intro i s hwf hcart hrs hbtn
  have loaded : Launched s → s.mem.cart ≠ none := fun ⟨c, h⟩ => by simp [h]
  have notMissing : s.audio.nr.length < 64 ∨ s.audio.rs ≠ none → 64 ≤ s.audio.nr.length → s.audio.rs ≠ none :=
    fun h hn => h.resolve_left (by omega)
  refine (exec_next_or_stop i s).resolve_right fun h => ?_
  generalize exec i s = r at h
  cases h with
  | rdRam a ha | wrRam a v ha =>
    have hlo := (ramAddr_iff a).1 hwf
    omega
  | iter hc => exact loaded (hcart (.inl rfl)) hc
  | tick n hc => exact loaded (hcart (.inr (.inl ⟨n, rfl⟩))) hc
  | rdCart o hc => exact loaded (hcart (.inr (.inr ⟨o, rfl⟩))) hc
  | aResample hn hr => exact notMissing (hrs (.inl rfl)) hn hr
  | aDrain hn hr => exact notMissing (hrs (.inr rfl)) hn hr
  | aRecreate n d h =>
    simp only [wellFormed, fitsPos64, Bool.and_eq_true, decide_eq_true_eq] at hwf
    omega
  | hSetbtn p b pressed hb => exact absurd (hbtn p b pressed rfl) (by omega)

end Sys2Proof.Machine
end

section
/-! PROOFS. The address decoder's transactions, one by one: each meaning written with the record of what a transaction
leaves (a cycle, an answer, a diagnostic, a stored byte). -/

namespace Sys2Proof.Machine

/-! What a transaction leaves -/

theorem answerRead_next (s : State) (addr : Addr) (v : Byte) :
    (.next (s.answerRead addr v) : Result) = .next (answered s addr v) := rfl

theorem readNothing_next (s : State) (addr : Addr) (d : Diag) :
    (.next (s.readNothing addr d) : Result) = .next (answered (logged s d) addr 0) := rfl

theorem writeNothing_next (s : State) (d : Diag) :
    (.next (s.writeNothing d) : Result) = .next (counted (logged s d)) := rfl

theorem writeRegs_next (s : State) (r : Registers) :
    (.next { s with regs := r }.countCycle : Result) = .next { counted s with regs := r } := rfl

/-- A write of storage stores its byte and counts one cycle, and changes no other field (R189). -/
theorem writeCell_stores (s : State) (id : MemId) (a : Nat) (v : Byte) :
    StoresByte s (s.writeCell id a v) id a v ∧
      s.writeCell id a v = { counted s with mem := (s.writeCell id a v).mem } :=
  ⟨s.putByte_stores id a v, rfl⟩

/-! Storage -/

/-- A read of an address in the RAM region gives the byte of the selected bank (R167). -/
theorem exec_rdRam (s : State) {a : BitVec 13} (ha : 0x200 ≤ a.toNat) :
    exec (.rdRam a) s = .next (answered s (ramBusAddr a) (s.byte .ram (bankedRamCell s.regs a))) :=
  if_pos ((ramAddr_iff a).2 ha)

theorem exec_wrRam (s : State) {a : BitVec 13} (v : Byte) (ha : 0x200 ≤ a.toNat) :
    exec (.wrRam a v) s = .next (s.writeCell .ram (bankedRamCell s.regs a) v) :=
  if_pos ((ramAddr_iff a).2 ha)

/-- Settles O13: each read answers with its cell. -/
theorem readsReturnTheStoredByte : Obligations.ReadsReturnTheStoredByte :=
  fun s =>
    ⟨fun _ => answerRead_next .., fun _ => answerRead_next .., fun _ => answerRead_next .., fun _ ha => exec_rdRam s ha,
      fun _ => answerRead_next .., fun _ => answerRead_next ..⟩

/-- Settles O15: each write stores its cell. -/
theorem unbankedWritesStoreOneByte : Obligations.UnbankedWritesStoreOneByte :=
  fun s v =>
    ⟨fun o => ⟨_, rfl, writeCell_stores s .zp o.toNat v⟩, fun o => ⟨_, rfl, writeCell_stores s .stack o.toNat v⟩,
      fun o => ⟨_, rfl, writeCell_stores s .aram o.toNat v⟩⟩

/-- A cell of RAM is in one bank, at one offset (R23, R134). -/
theorem ramCell_inj {b b' : BitVec 2} {o o' : Nat} (ho : o < Config.ramBankSize) (ho' : o' < Config.ramBankSize)
    (h : ramCell b o = ramCell b' o') : b = b' ∧ o = o' := by
  have hb : b.toNat = b'.toNat := by
    simp only [ramCell, Config.ramBankSize] at h ho ho'
    omega
  rw [ramCell, ramCell, hb] at h
  exact ⟨BitVec.eq_of_toNat_eq hb, Nat.add_left_cancel h⟩

theorem ramOffset_inj {a a' : BitVec 13} (ha : 0x200 ≤ a.toNat) (ha' : 0x200 ≤ a'.toNat)
    (h : ramOffset a = ramOffset a') : a = a' :=
  BitVec.eq_of_toNat_eq ((tsub_left_inj ha ha').1 h)

/-- Settles O16: after the bank switch the cells are those of the write, and different banks and addresses name
different cells. -/
theorem ramBanksAreIsolated : Obligations.RamBanksAreIsolated := by
  intro s a v b ha
  obtain ⟨hst, hrec⟩ := writeCell_stores s .ram (bankedRamCell s.regs a) v
  refine ⟨_, _, exec_wrRam s v ha, hst, hrec, rfl, fun a' ha' => ?_⟩
  obtain ⟨hsame, hother, -⟩ := hst
  have hread := exec_rdRam (wrBank b (s.writeCell .ram (bankedRamCell s.regs a) v)) ha'
  have answers : ∀ {w x : Byte}, w = x → ∀ u addr, (.next (answered u addr w) : Result) = .next (answered u addr x) :=
    fun h _ _ => h ▸ rfl
  refine ⟨fun hb e => ?_, fun hne => ?_⟩
  · subst e
    have hcell : bankedRamCell { s.regs with banking := b } a' = bankedRamCell s.regs a' :=
      congrArg (ramCell · (ramOffset a')) hb
    exact hread.trans (answers ((congrArg _ hcell).trans hsame) _ _)
  · have hcell : bankedRamCell { s.regs with banking := b } a' ≠ bankedRamCell s.regs a := fun e => by
      obtain ⟨hb, ho⟩ := ramCell_inj (ramOffset_lt a') (ramOffset_lt a) e
      exact hne.elim (· hb) (· (ramOffset_inj ha' ha ho))
    exact hread.trans (answers (hother .ram _ (.inr hcell)) _ _)

/-! Locations with nothing to read or write, and the control registers -/

/-- Settles O18: each read finds nothing to read. -/
theorem nothingToReadGivesZero : Obligations.NothingToReadGivesZero :=
  fun s =>
    ⟨readNothing_next .., readNothing_next .., readNothing_next .., readNothing_next .., readNothing_next ..,
      fun _ => readNothing_next s _ _, fun _ => readNothing_next s _ _⟩

/-- Settles O19: each write replaces one field of the registers. -/
theorem controlRegisterWrites : Obligations.ControlRegisterWrites :=
  fun s _ => ⟨writeRegs_next s _, writeRegs_next s _, writeRegs_next s _⟩

theorem wrAcprst_eq (s : State) : wrAcprst s = { counted s with lines := { s.lines with acpReset := true } } := rfl

theorem wrAcpnmi_eq (s : State) : wrAcpnmi s = { counted s with lines := { s.lines with acpNmi := true } } := rfl

/-- Settles O20: the two writes deliver the event of their line, and the datum is no part of it. -/
theorem acpStrobesDeliverEvents : Obligations.AcpStrobesDeliverEvents :=
  fun s _ => ⟨congrArg Host.Outcome.next (wrAcprst_eq s), congrArg Host.Outcome.next (wrAcpnmi_eq s)⟩

/-- Settles O22: four writes with nothing to write, and the stub's answer and silence. -/
theorem droppedWritesAndViaStub : Obligations.DroppedWritesAndViaStub :=
  fun s _ =>
    ⟨writeNothing_next .., writeNothing_next .., fun _ => writeNothing_next s _, fun _ => writeNothing_next s _,
      fun _ => answerRead_next .., fun _ => rfl⟩

/-! The pads -/

/-- The answer of a pad read is that of the state before it, on the selects that the coupling leaves (R177). -/
theorem padRead_next {s t : State} {p : PadPort} (h : padSelects s p = t) (addr : Addr) :
    (.next (padRead p addr s) : Result) =
      .next (answered t addr (padEncode s.cfg.buttons (s.pad p).pressed (s.pad p).portSelect)) := by
  rw [padRead, h, answerRead_next]

theorem padSelects_independent {s : State} (h : s.cfg.padCoupling = .independent) (p : PadPort) :
    padSelects s p = s.setPad p { s.pad p with portSelect := !(s.pad p).portSelect } := by
  simp only [padSelects, h]

theorem padSelects_resetOther {s : State} (h : s.cfg.padCoupling = .resetOther) (p : PadPort) :
    padSelects s p = (s.setPad p { s.pad p with portSelect := !(s.pad p).portSelect }).setPad (otherPad p)
      { s.pad (otherPad p) with portSelect := false } := by
  simp only [padSelects, h]

theorem padSelects_section3Literal {s : State} (h : s.cfg.padCoupling = .section3Literal) (p : PadPort) :
    padSelects s p = (s.setPad p { s.pad p with portSelect := false }).setPad (otherPad p)
      { s.pad (otherPad p) with portSelect := !(s.pad (otherPad p)).portSelect } := by
  simp only [padSelects, h]

/-- Settles O21: the halves differ on the telling record, and each coupling sets the selects by its own rule. -/
theorem padReads : Obligations.PadReads :=
  ⟨fun n => ⟨tellingRecord n, tellingRecord_in_set n, padEncode_halves_differ n⟩, fun _ =>
    ⟨fun h => ⟨padRead_next (padSelects_independent h .pad1) _, padRead_next (padSelects_independent h .pad2) _⟩,
      fun h => ⟨padRead_next (padSelects_resetOther h .pad1) _, padRead_next (padSelects_resetOther h .pad2) _⟩,
      fun h =>
        ⟨padRead_next (padSelects_section3Literal h .pad1) _, padRead_next (padSelects_section3Literal h .pad2) _⟩⟩⟩

/-! The cartridge -/

theorem exec_rdCart {s : State} {c : Cart} (hc : s.mem.cart = some c) (o : BitVec 15) :
    exec (.rdCart o) s = .next (answered s (cartAddr o) (cartByte c o)) := by
  simp only [exec, execRdCart, hc]
  exact answerRead_next ..

/-- A byte inside an image, read with a default, is the image's byte. -/
theorem rom_getD {n : Nat} (rom : Vector Byte n) {k : Nat} (h : k < n) : rom[k] = rom.toArray.getD k 0 := by
  simp [Array.getD, h]

/-- Settles O23: the byte that the variant's translation names lies inside the image. -/
theorem cartridgeReads : Obligations.CartridgeReads := by
  intro s o
  refine ⟨fun rom hc => ?_, fun rom hc => ?_, fun rom hc => ?_⟩ <;> rw [exec_rdCart hc, cartByte, rom_getD]

end Sys2Proof.Machine
end

section
/-! PROOFS. The window: the operation of each mode, the write in each mode, and the offset and view that a framebuffer
or VRAM cell belongs to. -/

namespace Sys2Proof.Machine

/-! The mode -/

/-- The row of a window read, by the two bits of `DMA_FLAGS` (R139, R200). -/
theorem decodeRead_winAddr (flags : Byte) (o : BitVec 14) :
    decodeRead (windowModeOf flags) (winAddr o) =
      if dmaEnable flags = true then .rdBr o else if cpuToVram flags = true then .rdFb o else .rdVram o := by
  simp only [decodeRead, region_winAddr, winAddr_low, windowModeOf]
  cases dmaEnable flags <;> cases cpuToVram flags <;> rfl

/-- The row of a window write, by the two bits of `DMA_FLAGS` (R139, R200). -/
theorem decodeWrite_winAddr (flags : Byte) (o : BitVec 14) (v : Byte) :
    decodeWrite (windowModeOf flags) (winAddr o) v =
      if dmaEnable flags = true then decodeBrWrite (winAddr o) v
      else if cpuToVram flags = true then .wrFb o v else .wrVram o v := by
  simp only [decodeWrite, region_winAddr, winAddr_low, windowModeOf]
  cases dmaEnable flags <;> cases cpuToVram flags <;> rfl

/-- Settles O7: the step decodes a window transaction in the mode of the flags at that step. -/
theorem windowModeIsStrictPriority : Obligations.WindowModeIsStrictPriority := by
  intro s
  refine ⟨rfl, fun o rest hp => ?_, fun o v rest hp => ?_⟩
  · rw [step_of_pending hp (decode_busRead ..), State.windowMode, decodeRead_winAddr]
    rfl
  · rw [step_of_pending hp (decode_busWrite ..), State.windowMode, decodeWrite_winAddr]
    rfl

/-! The blitter registers -/

/-- Settles O25: each write replaces one field of the registers. -/
theorem blitterRegisterWrites : Obligations.BlitterRegisterWrites :=
  fun s _ _ =>
    ⟨writeRegs_next s _, writeRegs_next s _, writeRegs_next s _, writeRegs_next s _, writeRegs_next s _,
      writeRegs_next s _, writeRegs_next s _⟩

theorem wrStart_eq (s : State) :
    wrStart s = { counted s with
      regs := { s.regs with startStrobe := true }
      blit := { s.blit with irqPending := false } } := rfl

/-- Settles O26: the write's effect is that of `start`, and neither repetition nor datum is a part of it. -/
theorem startWrite : Obligations.StartWrite :=
  fun s _ _ => congrArg Host.Outcome.next (wrStart_eq s)

/-! The write in each mode -/

/-- One step with a window write first in the queue makes that write (R414, R183). -/
theorem step_windowWrite {s : State} {o : BitVec 14} {v : Byte} {rest : List RawOp}
    (hp : s.env.pending = busWrite (winAddr o) v :: rest) :
    step s = .next (windowWrite o v { s with env := { s.env with pending := rest } }) := by
  have hx := exec_decodeWrite_window (region_winAddr o) v { s with env := { s.env with pending := rest } }
  rw [winAddr_low] at hx
  exact (step_of_pending hp (decode_busWrite ..)).trans hx

theorem windowWrite_registers {s : State} (h : dmaEnable s.regs.dmaFlags = true) (o : BitVec 14) (v : Byte) :
    windowWrite o v s = writeBr (o.toNat % 8) v s := by
  simp only [windowWrite, State.windowMode, windowModeOf, h, if_true]

theorem windowWrite_framebuffer {s : State} (h : dmaEnable s.regs.dmaFlags = false)
    (h5 : cpuToVram s.regs.dmaFlags = true) (o : BitVec 14) (v : Byte) :
    windowWrite o v s = s.writeCell .fb (winFbCell s.regs o) v := by
  simp only [windowWrite, State.windowMode, windowModeOf, h, h5, Bool.false_eq_true, if_false, if_true, wrFb]

theorem windowWrite_vram {s : State} (h : dmaEnable s.regs.dmaFlags = false)
    (h5 : cpuToVram s.regs.dmaFlags = false) (o : BitVec 14) (v : Byte) :
    windowWrite o v s = s.writeCell .vram (winVramCell s.regs o) v := by
  simp only [windowWrite, State.windowMode, windowModeOf, h, h5, Bool.false_eq_true, if_false, wrVram]

/-- In register mode a window write stores no byte (R216). -/
theorem windowWrite_sameStorage {s : State} (h : dmaEnable s.regs.dmaFlags = true) (o : BitVec 14) (v : Byte) :
    SameStorage s (windowWrite o v s) := by
  rw [windowWrite_registers h]
  rcases writeBr_cases (o.toNat % 8) v s with ⟨-, e⟩ | ⟨r, e⟩ <;> rw [e] <;> exact ⟨fun _ _ => rfl, rfl⟩

/-- In the two other modes a window write stores one cell (R213, R215). -/
theorem windowWrite_writeCell {s : State} (h : dmaEnable s.regs.dmaFlags = false) (o : BitVec 14) (v : Byte) :
    ∃ id a, windowWrite o v s = s.writeCell id a v := by
  cases h5 : cpuToVram s.regs.dmaFlags with
  | true => exact ⟨_, _, windowWrite_framebuffer h h5 o v⟩
  | false => exact ⟨_, _, windowWrite_vram h h5 o v⟩

theorem windowWrite_keeps_registers {s : State} (h : dmaEnable s.regs.dmaFlags = false) (o : BitVec 14) (v : Byte) :
    (windowWrite o v s).regs = s.regs ∧ (windowWrite o v s).blit = s.blit := by
  obtain ⟨id, a, e⟩ := windowWrite_writeCell h o v
  rw [e]
  exact ⟨rfl, rfl⟩

/-- Settles O8: register mode writes a register, and each of the other modes one cell of its memory. -/
theorem windowWritesKeepToTheirMode : Obligations.WindowWritesKeepToTheirMode := by
  intro s o v rest hp
  let u : State := { s with env := { s.env with pending := rest } }
  refine ⟨windowWrite o v u, step_windowWrite hp, fun h => windowWrite_sameStorage (s := u) h o v,
    fun h => windowWrite_keeps_registers (s := u) h o v, fun h h5 => ?_, fun h h5 => ?_⟩
  · rw [windowWrite_framebuffer (s := u) h h5]
    exact (writeCell_stores u ..).1
  · rw [windowWrite_vram (s := u) h h5]
    exact (writeCell_stores u ..).1

/-! The cells of the window -/

theorem winX_lt (o : BitVec 14) : winX o < 128 := Nat.mod_lt _ (by norm_num)

theorem winY_lt (o : BitVec 14) : winY o < 128 := Nat.div_lt_of_lt_mul o.isLt

/-- A place of the window is its offset (R132). -/
theorem winY_winX_inj {o o' : BitVec 14} (hy : winY o = winY o') (hx : winX o = winX o') : o = o' := by
  simp only [winY, winX] at hy hx
  apply BitVec.eq_of_toNat_eq
  omega

/-- A framebuffer cell is in one buffer, at one place (R26). -/
theorem fbCell_inj {f f' : Bool} {y y' x x' : Nat} (hy : y < 128) (hy' : y' < 128) (hx : x < 128) (hx' : x' < 128)
    (h : fbCell f y x = fbCell f' y' x') : f = f' ∧ y = y' ∧ x = x' := by
  simp only [fbCell] at h
  exact ⟨Function.LeftInverse.injective Bool.ofNat_toNat (by omega), by omega, by omega⟩

/-- A framebuffer cell is in one buffer, at one offset of the window (R26, R212). -/
theorem winFbCell_eq_iff (r r' : Registers) (o o' : BitVec 14) :
    winFbCell r o = winFbCell r' o' ↔ framebufferSel r.banking = framebufferSel r'.banking ∧ o = o' := by
  constructor
  · intro h
    obtain ⟨hf, hy, hx⟩ := fbCell_inj (winY_lt o) (winY_lt o') (winX_lt o) (winX_lt o') h
    exact ⟨hf, winY_winX_inj hy hx⟩
  · rintro ⟨hf, rfl⟩
    simp only [winFbCell, hf]

theorem quadBase_eq (g : Byte) : quadBase g = (g.getLsbD 7).toNat * 128 := by
  unfold quadBase
  cases g.getLsbD 7 <;> rfl

/-- A coordinate of the 256 × 256 view is in one half of it, at one place (R25, R131). -/
theorem quadBase_add_inj {g g' : Byte} {c c' : Nat} (hc : c < 128) (hc' : c' < 128)
    (h : quadBase g + c = quadBase g' + c') : g.getLsbD 7 = g'.getLsbD 7 ∧ c = c' := by
  rw [quadBase_eq, quadBase_eq] at h
  exact ⟨Function.LeftInverse.injective Bool.ofNat_toNat (by omega), by omega⟩

theorem quadBase_add_lt (g : Byte) {c : Nat} (hc : c < 128) : quadBase g + c < 256 := by
  have hg := quadBase_le g
  omega

/-- A VRAM cell is in one page, at one place of its flattened view (R25). -/
theorem vramCell_inj {p p' : BitVec 3} {y y' x x' : Nat} (hy : y < 256) (hy' : y' < 256) (hx : x < 256)
    (hx' : x' < 256) (h : vramCell p y x = vramCell p' y' x') : p = p' ∧ y = y' ∧ x = x' := by
  simp only [vramCell] at h
  exact ⟨BitVec.eq_of_toNat_eq (by omega), by omega, by omega⟩

/-- A VRAM cell is in one page and quadrant, at one offset of the window (R25, R214). -/
theorem winVramCell_eq_iff (r r' : Registers) (o o' : BitVec 14) :
    winVramCell r o = winVramCell r' o' ↔ vramPage r.banking = vramPage r'.banking ∧
      r.gx.getLsbD 7 = r'.gx.getLsbD 7 ∧ r.gy.getLsbD 7 = r'.gy.getLsbD 7 ∧ o = o' := by
  constructor
  · intro h
    obtain ⟨hp, hrow, hcol⟩ := vramCell_inj (quadBase_add_lt _ (winY_lt o)) (quadBase_add_lt _ (winY_lt o'))
      (quadBase_add_lt _ (winX_lt o)) (quadBase_add_lt _ (winX_lt o')) h
    obtain ⟨hgy, hy⟩ := quadBase_add_inj (winY_lt o) (winY_lt o') hrow
    obtain ⟨hgx, hx⟩ := quadBase_add_inj (winX_lt o) (winX_lt o') hcol
    exact ⟨hp, hgx, hgy, winY_winX_inj hy hx⟩
  · rintro ⟨hp, hgx, hgy, rfl⟩
    simp only [winVramCell, quadCell, quadBase, hp, hgx, hgy]

/-! A read after a write -/

theorem readCell_next {s : State} {id : MemId} {a : Nat} {w : Byte} (h : s.byte id a = w) (addr : Addr) :
    (.next (s.readCell addr id a) : Result) = .next (answered s addr w) := h ▸ answerRead_next s addr (s.byte id a)

/-- The bytes of the storage do not depend on the registers (R21 to R26). -/
theorem StoresByte.withRegs {s t : State} {id : MemId} {a : Nat} {v : Byte} (h : StoresByte s t id a v)
    (r : Registers) : StoresByte { s with regs := r } { t with regs := r } id a v := h

/-- After a store a read of the stored cell answers with the stored byte, and a read of any other cell with the byte
that it answered with before. -/
theorem StoresByte.readCell {s t : State} {id : MemId} {a : Nat} {v : Byte} (h : StoresByte s t id a v) (addr : Addr)
    (a' : Nat) :
    (a' = a → (.next (t.readCell addr id a') : Result) = .next (answered t addr v)) ∧
    (a' ≠ a → ∃ w, (.next (s.readCell addr id a') : Result) = .next (answered s addr w) ∧
      (.next (t.readCell addr id a') : Result) = .next (answered t addr w)) := by
  obtain ⟨hsame, hother, -⟩ := h
  exact ⟨fun e => readCell_next (e ▸ hsame) addr,
    fun hne => ⟨s.byte id a', readCell_next rfl addr, readCell_next (hother id a' (.inr hne)) addr⟩⟩

/-- Settles O17: the write stores one cell, and a read names that cell exactly from its own place of its own view. -/
theorem windowWritesStoreOneByte : Obligations.WindowWritesStoreOneByte := by
  intro s o v
  constructor
  · obtain ⟨hst, hrec⟩ := writeCell_stores s .fb (winFbCell s.regs o) v
    refine ⟨_, rfl, hst, hrec, fun r o' => ?_⟩
    have hread := (hst.withRegs r).readCell (winAddr o') (winFbCell r o')
    simp only [ne_eq, winFbCell_eq_iff, not_and_or] at hread
    exact hread
  · obtain ⟨hst, hrec⟩ := writeCell_stores s .vram (winVramCell s.regs o) v
    refine ⟨_, rfl, hst, hrec, fun r o' => ?_⟩
    have hread := (hst.withRegs r).readCell (winAddr o') (winVramCell r o')
    simp only [ne_eq, winVramCell_eq_iff, not_and_or] at hread
    exact hread

end Sys2Proof.Machine
end

section
/-! PROOFS. The blitter: one step by its cases, the walk of its counters, and whole blits. -/

namespace Sys2Proof.Machine

/-! The start of a blit -/

theorem exec_bstep (s : State) : exec .bstep s = .next (blitStep s) := rfl

/-- A step starts as it would after its own start phase, which is over with the strobe (R233). -/
theorem blitStep_blitStart (s : State) : blitStep (blitStart s) = blitStep s := by
  have again : blitStart (blitStart s) = blitStart s := blitStart_idle (by rw [blitStart_regs])
  simp only [blitStep, again]

theorem blitSteps_blitStart (n : Nat) (s : State) : blitSteps (n + 1) (blitStart s) = blitSteps (n + 1) s :=
  congrArg (blitSteps n) (blitStep_blitStart s)

theorem blitStep_of_idle {s : State} (h : (blitStart s).blit.bstate = .idle) : blitStep s = blitStart s := by
  simp only [blitStep, h]

theorem blitStep_of_running {s : State} (hr : s.blit.bstate = .running) (hs : s.regs.startStrobe = false) :
    blitStep s = blitWork s := by
  simp only [blitStep, blitStart_idle hs, hr]

/-- Where no blit is entered, the start phase only uses up the strobe (R233, R252). -/
theorem blitStart_not_entering {s : State} (hs : s.regs.startStrobe = true)
    (h : ¬(s.blit.bstate = .idle ∧ dmaEnable s.regs.dmaFlags = true)) :
    blitStart s = { s with regs := { s.regs with startStrobe := false } } := by
  rw [blitStart, if_pos hs, if_neg h]

/-- The next step enters a blit (R233). -/
structure Entering (s : State) : Prop where
  idle : s.blit.bstate = .idle
  strobe : s.regs.startStrobe = true
  enabled : dmaEnable s.regs.dmaFlags = true

theorem Entering.blitStart_eq {s : State} (h : Entering s) :
    blitStart s =
      { s with regs := { s.regs with startStrobe := false }, blit := blitEntry s.regs s.blit } := by
  rw [blitStart, if_pos h.strobe, if_pos ⟨h.idle, h.enabled⟩]

/-- Settles O28, by what the start phase leaves. -/
theorem bstepObservesTheStart : Obligations.BstepObservesTheStart := by
  intro s
  simp only [exec_bstep]
  refine ⟨fun hs hi => ?_, fun hs hi hd => ?_, fun hs hr => ?_, fun hs hi hd => ?_⟩
  · have unchanged := blitStart_idle hs
    rw [blitStep_of_idle (by rw [unchanged]; exact hi), unchanged]
  · have used := blitStart_not_entering hs fun h => Bool.false_ne_true (hd.symm.trans h.2)
    rw [blitStep_of_idle (by rw [used]; exact hi), used]
  · have used := blitStart_not_entering hs fun h => BState.noConfusion (hr.symm.trans h.1)
    rw [← used, blitStep_blitStart]
  · have entered := (Entering.mk hi hs hd).blitStart_eq
    rw [← blitStep_blitStart, entered]
    rfl

/-! The progress counters -/

/-- The progress counters (R39). -/
def Blitter.offset (b : Blitter) : Byte × Byte := (b.offsetX, b.offsetY)

/-- The blitter with other progress counters. -/
def Blitter.atOffset (b : Blitter) (p : Byte × Byte) : Blitter := { b with offsetX := p.1, offsetY := p.2 }

/-- The counters after phase 2, for the live `width` (R235). -/
def wrapOffset (w : Byte) (p : Byte × Byte) : Byte × Byte :=
  (if w.toNat ≤ p.1.toNat then (if 128 ≤ w.toNat then w - 128 else 0) else p.1,
   if w.toNat ≤ p.1.toNat then (if 128 ≤ w.toNat then p.2 - 1 else p.2 + 1) else p.2)

/-- The counters after `Advance(w)` (R245). -/
def advanceOffset (w : Byte) (p : Byte × Byte) : Byte × Byte :=
  (if 128 ≤ w.toNat then p.1 - 1 else p.1 + 1, p.2)

theorem flipped_iff (extent : Byte) : flipped extent = true ↔ 128 ≤ extent.toNat := decide_eq_true_iff

theorem wrapOffset_of_lt {w : Byte} {p : Byte × Byte} (h : p.1.toNat < w.toNat) : wrapOffset w p = p := by
  rw [wrapOffset, if_neg (by omega), if_neg (by omega)]

theorem wrapOffset_of_flipped {w : Byte} {p : Byte × Byte} (h : w.toNat ≤ p.1.toNat) (hf : 128 ≤ w.toNat) :
    wrapOffset w p = (w - 128, p.2 - 1) := by
  rw [wrapOffset, if_pos h, if_pos h, if_pos hf, if_pos hf]

theorem wrapOffset_of_not_flipped {w : Byte} {p : Byte × Byte} (h : w.toNat ≤ p.1.toNat) (hf : w.toNat < 128) :
    wrapOffset w p = (0, p.2 + 1) := by
  rw [wrapOffset, if_pos h, if_pos h, if_neg (by omega), if_neg (by omega)]

theorem blitWrap_eq (w : Byte) (b : Blitter) : blitWrap w b = b.atOffset (wrapOffset w b.offset) := by
  unfold blitWrap
  split
  case isTrue hw =>
    split
    case isTrue hf => rw [wrapOffset_of_flipped hw ((flipped_iff w).1 hf)]; rfl
    case isFalse hf => rw [wrapOffset_of_not_flipped hw (Nat.lt_of_not_le (mt (flipped_iff w).2 hf))]; rfl
  case isFalse hw => rw [wrapOffset_of_lt (Nat.lt_of_not_le hw)]; rfl

theorem blitAdvance_atOffset (w : Byte) (b : Blitter) (p : Byte × Byte) :
    blitAdvance w (b.atOffset p) = b.atOffset (advanceOffset w p) := by
  simp only [blitAdvance, advanceOffset, Blitter.atOffset, flipped_iff]

theorem blitDone_atOffset (b : Blitter) (p : Byte × Byte) :
    blitDone (b.atOffset p) = true ↔ b.heightL.toNat ≤ p.2.toNat := decide_eq_true_iff

/-! One working step -/

/-- The state in which a working step does its work: the row is wrapped (R235). -/
def wrapped (s : State) : State := { s with blit := s.blit.atOffset (wrapOffset s.regs.width s.blit.offset) }

/-- The pixel of a step is on the screen and passes the transparency test (R243, R244). -/
def PixelShown (s : State) : Prop :=
  (s.regs.vx + s.blit.offsetX).toNat < 128 ∧ (s.blit.dstY + s.blit.offsetY).toNat < 128 ∧
    (opaqueFlag s.regs.dmaFlags = true ∨ blitColor s ≠ 0)

/-- The cell of the draw target at the place of the pixel (R243). -/
def pixelCell (s : State) : Nat :=
  fbCell (framebufferSel s.regs.banking) (s.blit.dstY + s.blit.offsetY).toNat (s.regs.vx + s.blit.offsetX).toNat

theorem blitPixel_stores {s : State} (h : PixelShown s) :
    StoresByte s (blitPixel s) .fb (pixelCell s) (blitColor s) := by
  have e : blitPixel s = s.putByte .fb (pixelCell s) (blitColor s) := if_pos h
  rw [e]
  exact s.putByte_stores ..

theorem blitPixel_drops {s : State} (h : ¬PixelShown s) : blitPixel s = s := if_neg h

section Work

variable {s : State}

/-- The row counter has reached the latched height: the step completes (R237). -/
theorem blitWork_completes (hd : s.blit.heightL.toNat ≤ (wrapOffset s.regs.width s.blit.offset).2.toNat) :
    blitWork s = { s with blit := blitComplete s.regs.dmaFlags (wrapped s).blit } := by
  rcases blitWork_cases s with ⟨-, e⟩ | ⟨hn, -⟩ | ⟨hn, -⟩
  · rw [e, blitWrap_eq]
    rfl
  all_goals
    rw [blitWrap_eq, (blitDone_atOffset ..).2 hd] at hn
    cases hn

/-- Below the latched height the counters advance (R245). -/
theorem blitWork_blit (hd : (wrapOffset s.regs.width s.blit.offset).2.toNat < s.blit.heightL.toNat) :
    (blitWork s).blit = s.blit.atOffset (advanceOffset s.regs.width (wrapOffset s.regs.width s.blit.offset)) := by
  rcases blitWork_cases s with ⟨hn, -⟩ | ⟨-, -, e⟩ | ⟨-, -, e⟩
  · rw [blitWrap_eq, blitDone_atOffset] at hn
    omega
  all_goals rw [e, blitWrap_eq, blitAdvance_atOffset]

/-- Below the latched height the work changes storage and the counters only (R230, R245). -/
theorem blitWork_frame (hd : (wrapOffset s.regs.width s.blit.offset).2.toNat < s.blit.heightL.toNat) :
    blitWork s =
      { s with
        mem := (blitWork s).mem
        blit := s.blit.atOffset (advanceOffset s.regs.width (wrapOffset s.regs.width s.blit.offset)) } := by
  rw [← blitWork_blit hd]
  rcases blitWork_cases s with ⟨-, e⟩ | ⟨-, -, e⟩ | ⟨-, -, e⟩ <;> rw [e]
  obtain ⟨-, -, -, -, -, -, -, p⟩ := blitPixel_effect { s with blit := blitWrap s.regs.width s.blit }
  rw [p]

/-- Below the latched height the work stores the pixel of the wrapped counters, with `dma_enable` set (R239 to R244). -/
theorem blitWork_storage (hd : (wrapOffset s.regs.width s.blit.offset).2.toNat < s.blit.heightL.toNat)
    (he : dmaEnable s.regs.dmaFlags = true) :
    (PixelShown (wrapped s) → StoresByte s (blitWork s) .fb (pixelCell (wrapped s)) (blitColor (wrapped s))) ∧
    (¬PixelShown (wrapped s) → SameStorage s (blitWork s)) := by
  rcases blitWork_cases s with ⟨hn, -⟩ | ⟨-, hn, -⟩ | ⟨-, -, e⟩
  · rw [blitWrap_eq, blitDone_atOffset] at hn
    omega
  · rw [he] at hn
    cases hn
  · rw [e, blitWrap_eq]
    refine ⟨fun h => blitPixel_stores h, fun h => ?_⟩
    rw [show { s with blit := s.blit.atOffset (wrapOffset s.regs.width s.blit.offset) } = wrapped s from rfl,
      blitPixel_drops h]
    exact ⟨fun _ _ => rfl, rfl⟩

end Work

/-- Settles O29, by the two cases of a step without a pixel. -/
theorem bstepWithoutAPixel : Obligations.BstepWithoutAPixel := by
  intro s ox oy hr hs hx hy
  have place : wrapOffset s.regs.width s.blit.offset = (ox, oy) := Prod.ext hx.symm hy.symm
  rw [exec_bstep]
  refine ⟨fun hd => ?_, fun hd he => ?_⟩
  · rw [blitStep_of_running hr hs, blitWork_completes (by rw [place]; exact hd), wrapped, place]
    simp only [blitComplete, Blitter.atOffset, flipped_iff, irqEnable]
  · have stored := blitStep_dma_off he
    rw [blitStep_of_running hr hs] at stored ⊢
    rw [blitWork_frame (by rw [place]; exact hd), stored, place]
    rfl

/-- The source offset of one axis, by the extent's value (R240). -/
theorem sourceOffset_eq (src : ParamSource) (extent offset : Byte) :
    sourceOffset src extent offset = if 128 ≤ extent.toNat then flipAdj src extent offset else offset := by
  simp only [sourceOffset, flipped_iff]

/-- Settles O30: the step's place is that of the wrapped counters, and its color is the one of R239 to R242. -/
theorem bstepDrawsItsPixel : Obligations.BstepDrawsItsPixel := by
  refine ⟨fun _ _ => rfl, ?_⟩
  intro s ox oy fx fy dx dy c sx sy hr hs he hx hy hd hfx hfy hsx hsy hc hdx hdy
  have place : wrapOffset s.regs.width s.blit.offset = (ox, oy) := Prod.ext hx.symm hy.symm
  have below : (wrapOffset s.regs.width s.blit.offset).2.toNat < s.blit.heightL.toNat := by
    rw [place]
    exact hd
  have color : blitColor (wrapped s) = c := by
    rw [hc, hsx, hsy, hfx, hfy, ← sourceOffset_eq, ← sourceOffset_eq, wrapped, place]
    rfl
  have frame := blitWork_frame below
  have storage := blitWork_storage below he
  simp only [PixelShown, pixelCell, color] at storage
  simp only [wrapped, place, Blitter.atOffset, ← hdx, ← hdy] at storage
  rw [place] at frame
  exact ⟨blitWork s, by rw [exec_bstep, blitStep_of_running hr hs], frame, storage⟩

end Sys2Proof.Machine
end

section
/-! PROOFS. Blits as wholes: the walk of the counters from entry to completion, what it draws, and how long it takes. -/

namespace Sys2Proof.Machine

/-! Runs of steps -/

theorem blitSteps_succ (n : Nat) (s : State) : blitSteps (n + 1) s = blitStep (blitSteps n s) := by
  induction n generalizing s with
  | zero => rfl
  | succ n ih => exact ih (blitStep s)

theorem blitSteps_regs (n : Nat) {s : State} (hs : s.regs.startStrobe = false) : (blitSteps n s).regs = s.regs := by
  have unstrobed : { s.regs with startStrobe := false } = s.regs := by rw [← hs]
  induction n with
  | zero => rfl
  | succ n ih => rw [blitSteps_succ, blitStep_regs, ih, unstrobed]

/-! The walk -/

/-- The counters after `k` working steps from the entry, for a `width` that stays (R235, R245). -/
def walkOffset (w : Byte) : Nat → Byte × Byte
  | 0 => (0, 0)
  | k + 1 => advanceOffset w (wrapOffset w (walkOffset w k))

/-- The offset that working step `k` works at, the entering step being step 0. -/
def walkPixel (w : Byte) (k : Nat) : Byte × Byte := wrapOffset w (walkOffset w k)

/-- The first `n` working steps stay below the height (R237). -/
def WalkBelow (w h : Byte) (n : Nat) : Prop := ∀ k < n, (walkPixel w k).2.toNat < h.toNat

/-- The walk has `n` pixels: step `n` finds the row counter at the height (R237). -/
structure WalkLength (w h : Byte) (n : Nat) : Prop where
  below : WalkBelow w h n
  reached : h.toNat ≤ (walkPixel w n).2.toNat

theorem WalkBelow.mono {w h : Byte} {m n : Nat} (hn : WalkBelow w h n) (hm : m ≤ n) : WalkBelow w h m :=
  fun k hk => hn k (hk.trans_le hm)

/-- The pixel that the walk of these registers draws in step `k` is on the screen, in cell `a` of the draw target. -/
def WalkDraws (r : Registers) (k a : Nat) : Prop :=
  (r.vx + (walkPixel r.width k).1).toNat < 128 ∧ (r.vy + (walkPixel r.width k).2).toNat < 128 ∧
    a = fbCell (framebufferSel r.banking) (r.vy + (walkPixel r.width k).2).toNat
      (r.vx + (walkPixel r.width k).1).toNat

/-- The state in which step `n` of a blit that `s` enters works: the row is wrapped, nothing is drawn yet. -/
def workState (s : State) (n : Nat) : State := wrapped (blitSteps n (blitStart s))

/-- The entry and the row wrap touch no storage. -/
theorem workState_zero_byte (s : State) (id : MemId) (a : Nat) : (workState s 0).byte id a = s.byte id a := by
  have entry : (blitStart s).env = s.env := by
    unfold blitStart
    split <;> rfl
  exact State.byte_congr (blitStart_mem s) (congrArg Environment.powerOns entry) id a

theorem workState_succ_byte (s : State) (n : Nat) (id : MemId) (a : Nat) :
    (workState s (n + 1)).byte id a = (blitSteps (n + 1) s).byte id a := by
  rw [← blitSteps_blitStart]
  rfl

theorem blitSteps_entry_regs (n : Nat) (s : State) :
    (blitSteps n (blitStart s)).regs = { s.regs with startStrobe := false } :=
  (blitSteps_regs n (by rw [blitStart_regs])).trans (blitStart_regs s)

theorem workState_regs (s : State) (n : Nat) : (workState s n).regs = { s.regs with startStrobe := false } :=
  blitSteps_entry_regs n s

namespace Entering

variable {s : State} {n k a : Nat} (he : Entering s)
include he

/-- While the walk stays below the height, the blitter is the entered one at the walk's counters. -/
theorem blit (hn : WalkBelow s.regs.width s.regs.height n) :
    (blitSteps n (blitStart s)).blit = (blitEntry s.regs s.blit).atOffset (walkOffset s.regs.width n) := by
  induction n with
  | zero => rw [blitSteps, he.blitStart_eq]; rfl
  | succ n ih =>
    have hb := ih (hn.mono n.le_succ)
    have hp := hn n n.lt_succ_self
    rw [blitSteps_succ, blitStep_of_running (by rw [hb]; rfl) (by rw [blitSteps_entry_regs]), blitWork_blit, hb,
      blitSteps_entry_regs]
    · rfl
    · rw [hb, blitSteps_entry_regs]
      exact hp

theorem blit_succ (hk : WalkBelow s.regs.width s.regs.height (k + 1)) :
    (blitSteps (k + 1) s).blit =
      (blitEntry s.regs s.blit).atOffset (advanceOffset s.regs.width (walkPixel s.regs.width k)) := by
  rw [← blitSteps_blitStart, he.blit hk]
  rfl

theorem workState_blit (hn : WalkBelow s.regs.width s.regs.height n) :
    (workState s n).blit = (blitEntry s.regs s.blit).atOffset (walkPixel s.regs.width n) := by
  rw [workState, wrapped, he.blit hn, blitSteps_entry_regs]
  rfl

theorem step_eq (hn : WalkBelow s.regs.width s.regs.height n) :
    blitSteps (n + 1) s = blitWork (blitSteps n (blitStart s)) := by
  rw [← blitSteps_blitStart, blitSteps_succ,
    blitStep_of_running (by rw [he.blit hn]; rfl) (by rw [blitSteps_entry_regs])]

/-- The step that finds the row counter at the height completes, and stores nothing (R237). -/
theorem completes (hn : WalkLength s.regs.width s.regs.height n) :
    blitSteps (n + 1) s =
      { workState s n with
        blit := blitComplete s.regs.dmaFlags
          ((blitEntry s.regs s.blit).atOffset (walkPixel s.regs.width n)) } := by
  have flags : (blitSteps n (blitStart s)).regs.dmaFlags = s.regs.dmaFlags := by
    rw [blitSteps_entry_regs]
  rw [← he.workState_blit hn.below, he.step_eq hn.below, blitWork_completes, flags]
  · rfl
  · rw [he.blit hn.below, blitSteps_entry_regs]
    exact hn.reached

/-- A blit whose walk has `n` pixels ends in step `n + 1`, with the interrupt if it is enabled (R237). -/
theorem ends (hn : WalkLength s.regs.width s.regs.height n) :
    (blitSteps (n + 1) s).blit.bstate = .idle ∧
    (blitSteps (n + 1) s).blit.irqPending = (s.blit.irqPending || s.regs.dmaFlags.getLsbD 6) := by
  rw [he.completes hn]
  exact ⟨rfl, rfl⟩

theorem byte_ended (hn : WalkLength s.regs.width s.regs.height n) (id : MemId) (a : Nat) :
    (blitSteps (n + 1) s).byte id a = (workState s n).byte id a := by
  rw [he.completes hn]
  rfl

theorem pixelShown_iff (hn : WalkBelow s.regs.width s.regs.height n) :
    PixelShown (workState s n) ↔
      (s.regs.vx + (walkPixel s.regs.width n).1).toNat < 128 ∧
      (s.regs.vy + (walkPixel s.regs.width n).2).toNat < 128 ∧
      (opaqueFlag s.regs.dmaFlags = true ∨ blitColor (workState s n) ≠ 0) := by
  rw [PixelShown, he.workState_blit hn, workState_regs]
  rfl

theorem pixelCell_eq (hn : WalkBelow s.regs.width s.regs.height n) :
    pixelCell (workState s n) =
      fbCell (framebufferSel s.regs.banking) (s.regs.vy + (walkPixel s.regs.width n).2).toNat
        (s.regs.vx + (walkPixel s.regs.width n).1).toNat := by
  rw [pixelCell, he.workState_blit hn, workState_regs]
  rfl

/-- What a step below the height stores: its pixel or nothing (R243, R244). -/
theorem storage (hk : WalkBelow s.regs.width s.regs.height (k + 1)) :
    (PixelShown (workState s k) →
      StoresByte (workState s k) (blitSteps (k + 1) s) .fb (pixelCell (workState s k)) (blitColor (workState s k))) ∧
    (¬PixelShown (workState s k) → SameStorage (workState s k) (blitSteps (k + 1) s)) := by
  have hb := hk.mono k.le_succ
  rw [he.step_eq hb]
  apply blitWork_storage
  · rw [he.blit hb, blitSteps_entry_regs]
    exact hk k k.lt_succ_self
  · rw [blitSteps_entry_regs]
    exact he.enabled

/-- A step leaves the byte of a cell that it does not draw in. -/
theorem byte_step {id : MemId} (hk : WalkBelow s.regs.width s.regs.height (k + 1))
    (h : id ≠ .fb ∨ ¬WalkDraws s.regs k a) : (blitSteps (k + 1) s).byte id a = (workState s k).byte id a := by
  have hb := hk.mono k.le_succ
  obtain ⟨stores, drops⟩ := he.storage hk
  by_cases shown : PixelShown (workState s k)
  · obtain ⟨-, other, -⟩ := stores shown
    obtain ⟨hx, hy, -⟩ := (he.pixelShown_iff hb).1 shown
    exact other id a (h.imp_right fun hd e => hd ⟨hx, hy, e.trans (he.pixelCell_eq hb)⟩)
  · exact (drops shown).1 id a

/-- A cell that no step of the walk draws in keeps its byte. -/
theorem byte_undrawn {id : MemId} (hn : WalkBelow s.regs.width s.regs.height n)
    (h : id ≠ .fb ∨ ∀ k < n, ¬WalkDraws s.regs k a) : (workState s n).byte id a = s.byte id a := by
  induction n with
  | zero => exact workState_zero_byte ..
  | succ n ih =>
    rw [workState_succ_byte, he.byte_step hn (h.imp_right fun hd => hd n n.lt_succ_self)]
    exact ih (hn.mono n.le_succ) (h.imp_right fun hd k hk => hd k (hk.trans n.lt_succ_self))

/-- A colorfill stores the latched color at its place, if it is opaque or the color is not 0 (R239, R244). -/
theorem byte_fill (hk : WalkBelow s.regs.width s.regs.height (k + 1)) (hf : colorfillEnable s.regs.dmaFlags = true)
    (ho : opaqueFlag s.regs.dmaFlags = true ∨ ~~~s.regs.color ≠ 0) (hd : WalkDraws s.regs k a) :
    (blitSteps (k + 1) s).byte .fb a = ~~~s.regs.color := by
  have hb := hk.mono k.le_succ
  have color : blitColor (workState s k) = ~~~s.regs.color := by
    rw [blitColor, he.workState_blit hb]
    exact if_pos hf
  obtain ⟨hx, hy, cell⟩ := hd
  obtain ⟨stored, -⟩ := (he.storage hk).1 ((he.pixelShown_iff hb).2 ⟨hx, hy, color ▸ ho⟩)
  rwa [he.pixelCell_eq hb, ← cell, color] at stored

/-- After the first `n` steps of a colorfill every cell that one of them draws in holds the fill's color. -/
theorem byte_filled (hn : WalkBelow s.regs.width s.regs.height n) (hf : colorfillEnable s.regs.dmaFlags = true)
    (ho : opaqueFlag s.regs.dmaFlags = true ∨ ~~~s.regs.color ≠ 0) (hk : k < n) (hd : WalkDraws s.regs k a) :
    (workState s n).byte .fb a = ~~~s.regs.color := by
  induction n with
  | zero => omega
  | succ n ih =>
    rw [workState_succ_byte]
    by_cases last : WalkDraws s.regs n a
    · exact he.byte_fill hn hf ho last
    · have earlier : k < n := Nat.lt_of_le_of_ne (Nat.le_of_lt_succ hk) fun e => last (e ▸ hd)
      rw [he.byte_step hn (.inr last)]
      exact ih (hn.mono n.le_succ) earlier

end Entering

end Sys2Proof.Machine
end

section
/-! PROOFS. The walks of the blit's shapes, and the bound on every blit. -/

namespace Sys2Proof.Machine

/-! A width of 1 to 127 -/

/-- The pixel after one in row-major order: the next of its row, or the first of the next row. -/
theorem rowMajor_succ {w : Nat} (hw : 0 < w) (k : Nat) :
    ((k + 1) / w, (k + 1) % w) = if w ≤ k % w + 1 then (k / w + 1, 0) else (k / w, k % w + 1) := by
  have hm := Nat.mod_lt k hw
  have hd := Nat.mod_add_div k w
  split
  · have next : (k + 1) / w = k / w + 1 ∧ (k + 1) % w = 0 :=
      (Nat.div_mod_unique hw).2 ⟨by rw [Nat.mul_add]; omega, hw⟩
    rw [next.1, next.2]
  · have next : (k + 1) / w = k / w ∧ (k + 1) % w = k % w + 1 := (Nat.div_mod_unique hw).2 ⟨by omega, by omega⟩
    rw [next.1, next.2]

theorem byte_ofNat_succ (n : Nat) : BitVec.ofNat 8 n + 1 = BitVec.ofNat 8 (n + 1) := (BitVec.ofNat_add ..).symm

/-- The walk of a non-flip blit is in row-major order (R248). -/
theorem walkPixel_rowMajor {w : Byte} (hw : 1 ≤ w.toNat) (hf : w.toNat ≤ 127) (k : Nat) :
    walkPixel w k = (BitVec.ofNat 8 (k % w.toNat), BitVec.ofNat 8 (k / w.toNat)) := by
  induction k with
  | zero =>
    rw [Nat.zero_mod, Nat.zero_div]
    exact wrapOffset_of_lt hw
  | succ k ih =>
    have hm := Nat.mod_lt k hw
    have column : (BitVec.ofNat 8 (k % w.toNat + 1)).toNat = k % w.toNat + 1 :=
      Nat.mod_eq_of_lt (show k % w.toNat + 1 < 256 by omega)
    have step : walkPixel w (k + 1) =
        wrapOffset w (BitVec.ofNat 8 (k % w.toNat + 1), BitVec.ofNat 8 (k / w.toNat)) := by
      rw [walkPixel, walkOffset, ← walkPixel, ih, advanceOffset, if_neg (by omega), byte_ofNat_succ]
    have next := rowMajor_succ hw k
    split at next
    case isTrue h =>
      obtain ⟨hq, hr⟩ := Prod.mk.inj next
      rw [step, hq, hr, wrapOffset_of_not_flipped (by rw [column]; exact h) (by omega), byte_ofNat_succ]
      rfl
    case isFalse h =>
      obtain ⟨hq, hr⟩ := Prod.mk.inj next
      rw [step, hq, hr, wrapOffset_of_lt (by rw [column]; omega)]

section NonFlip

variable {w h : Byte} (hw : 1 ≤ w.toNat) (hf : w.toNat ≤ 127)
include hw hf

theorem walkPixel_column (k : Nat) : (walkPixel w k).1.toNat = k % w.toNat := by
  have hm := Nat.mod_lt k hw
  rw [walkPixel_rowMajor hw hf, BitVec.toNat_ofNat]
  exact Nat.mod_eq_of_lt (by omega)

theorem walkPixel_row {k : Nat} (hk : k ≤ w.toNat * h.toNat) : (walkPixel w k).2.toNat = k / w.toNat := by
  have hd : k / w.toNat ≤ h.toNat := Nat.div_le_of_le_mul hk
  rw [walkPixel_rowMajor hw hf, BitVec.toNat_ofNat]
  exact Nat.mod_eq_of_lt (hd.trans_lt h.isLt)

/-- A non-flip blit has as many pixels as its rectangle (R248). -/
theorem walkLength_rowMajor : WalkLength w h (w.toNat * h.toNat) where
  below k hk := by
    rw [walkPixel_row hw hf hk.le]
    exact Nat.div_lt_of_lt_mul hk
  reached := by rw [walkPixel_row hw hf le_rfl, Nat.mul_div_cancel_left _ hw]

end NonFlip

/-- Settles O31: the walk in row-major order, seen after each step. -/
theorem nonFlipBlitTakesWidthTimesHeightPlusOne : Obligations.NonFlipBlitTakesWidthTimesHeightPlusOne := by
  intro s hi hs he hw hf _
  have entering : Entering s := ⟨hi, hs, he⟩
  have walk := walkLength_rowMajor (h := s.regs.height) hw hf
  refine ⟨fun k hk hn => ?_, entering.ends walk⟩
  obtain ⟨j, rfl⟩ := Nat.exists_eq_add_of_le' hk
  rw [entering.blit_succ (walk.below.mono hn), advanceOffset, if_neg (by omega)]
  have hm := Nat.mod_lt j hw
  have hx := walkPixel_column hw hf j
  refine ⟨rfl, ?_, walkPixel_row hw hf (j.le_succ.trans hn), rfl⟩
  change ((walkPixel s.regs.width j).1 + 1).toNat = _
  rw [BitVec.toNat_add, hx, Nat.add_sub_cancel]
  exact Nat.mod_eq_of_lt (show j % s.regs.width.toNat + 1 < 256 by omega)

/-- The places that the walk of a non-flip blit draws at are those of its rectangle on the screen (R243, R248). -/
theorem walkDraws_rowMajor_iff {r : Registers} (hw : 1 ≤ r.width.toNat) (hf : r.width.toNat ≤ 127) {k a : Nat}
    (hk : k ≤ r.width.toNat * r.height.toNat) :
    WalkDraws r k a ↔
      (r.vx.toNat + k % r.width.toNat) % 256 < 128 ∧ (r.vy.toNat + k / r.width.toNat) % 256 < 128 ∧
        a = fbCell (framebufferSel r.banking) ((r.vy.toNat + k / r.width.toNat) % 256)
          ((r.vx.toNat + k % r.width.toNat) % 256) := by
  rw [WalkDraws, BitVec.toNat_add, BitVec.toNat_add, walkPixel_column hw hf, walkPixel_row hw hf hk]

/-- Pixel (i, j) of a rectangle is one of its pixels in row-major order. -/
theorem rowMajor_index {w h i j : Nat} (hi : i < w) (hj : j < h) :
    ∃ k < w * h, k % w = i ∧ k / w = j := by
  obtain ⟨hq, hr⟩ := (Nat.div_mod_unique (Nat.zero_lt_of_lt hi)).2 ⟨rfl, hi⟩
  refine ⟨i + w * j, ?_, hr, hq⟩
  calc i + w * j < w + w * j := Nat.add_lt_add_right hi _
    _ = w * (j + 1) := by rw [Nat.mul_succ, Nat.add_comm]
    _ ≤ w * h := Nat.mul_le_mul_left w hj

/-- Settles O32: each place of the rectangle is drawn at by one step of the walk, and no other place by any. -/
theorem colorfillFillsItsRectangle : Obligations.ColorfillFillsItsRectangle := by
  intro s hi hs he hc ho hw hf _
  have entering : Entering s := ⟨hi, hs, he⟩
  have walk := walkLength_rowMajor (h := s.regs.height) hw hf
  have visible : opaqueFlag s.regs.dmaFlags = true ∨ ~~~s.regs.color ≠ 0 :=
    ho.imp_right fun hne e => hne (by rw [← BitVec.not_not (b := s.regs.color), e]; rfl)
  refine ⟨fun i j x y hx hy ex ey sx sy => ?_, fun id a ha => ?_⟩
  · obtain ⟨k, hk, rfl, rfl⟩ := rowMajor_index hx hy
    rw [entering.byte_ended walk]
    subst ex ey
    exact entering.byte_filled walk.below hc visible hk ((walkDraws_rowMajor_iff hw hf hk.le).2 ⟨sx, sy, rfl⟩)
  · rw [entering.byte_ended walk]
    refine entering.byte_undrawn walk.below (ha.imp_right fun undrawn k hk hd => ?_)
    obtain ⟨sx, sy, cell⟩ := (walkDraws_rowMajor_iff hw hf hk.le).1 hd
    exact undrawn _ _ _ _ (Nat.mod_lt k hw) (Nat.div_lt_of_lt_mul hk) rfl rfl sx sy cell

/-! Degenerate and flip blits -/

/-- A width of 0 wraps the row in every step (R249). -/
theorem walkPixel_zero_width (k : Nat) : walkPixel 0 k = (0, BitVec.ofNat 8 (k + 1)) := by
  induction k with
  | zero => rfl
  | succ k ih =>
    have step : walkPixel 0 (k + 1) = wrapOffset 0 (0 + 1, BitVec.ofNat 8 (k + 1)) := by
      rw [walkPixel, walkOffset, ← walkPixel, ih]
      rfl
    rw [step, wrapOffset_of_not_flipped (Nat.zero_le _) (by decide), byte_ofNat_succ]

theorem walkPixel_zero_width_row {h : Byte} {k : Nat} (hk : k < h.toNat) : (walkPixel 0 k).2.toNat = k + 1 := by
  rw [walkPixel_zero_width, BitVec.toNat_ofNat]
  exact Nat.mod_eq_of_lt (Nat.lt_of_le_of_lt hk h.isLt)

/-- The steps of a blit of width 0 draw in the column of `vx`, from the second row on (R243, R249). -/
theorem walkDraws_zero_width_iff {r : Registers} (hw : r.width = 0) {k a : Nat} (hk : k < r.height.toNat) :
    WalkDraws r k a ↔
      r.vx.toNat < 128 ∧ (r.vy.toNat + (k + 1)) % 256 < 128 ∧
        a = fbCell (framebufferSel r.banking) ((r.vy.toNat + (k + 1)) % 256) r.vx.toNat := by
  have column : r.vx + (walkPixel 0 k).1 = r.vx := by
    rw [walkPixel_zero_width]
    exact BitVec.add_zero _
  rw [WalkDraws, hw, column, BitVec.toNat_add, walkPixel_zero_width_row hk]

theorem walkLength_zero_width {h : Byte} {n : Nat} (hn : h.toNat = n + 1) : WalkLength 0 h n where
  below k hk := by
    rw [walkPixel_zero_width_row (h := h) (by omega)]
    omega
  reached := by
    rw [walkPixel_zero_width_row (h := h) (by omega)]
    omega

/-- With height 0 there is no pixel, whatever the width (R249). -/
theorem walkLength_zero_height (w : Byte) : WalkLength w 0 0 where
  below k hk := absurd hk k.not_lt_zero
  reached := Nat.zero_le _

/-- With height 0 the entering step completes and writes nothing (R237, R249). -/
theorem Entering.zero_height {s : State} (he : Entering s) (h : s.regs.height = 0) :
    (blitSteps 1 s).blit.bstate = .idle ∧
    (blitSteps 1 s).blit.irqPending = (s.blit.irqPending || s.regs.dmaFlags.getLsbD 6) ∧
    SameStorage s (blitSteps 1 s) := by
  have walk : WalkLength s.regs.width s.regs.height 0 := h ▸ walkLength_zero_height s.regs.width
  obtain ⟨idle, pending⟩ := he.ends walk
  exact ⟨idle, pending, fun id a => (he.byte_ended walk id a).trans (workState_zero_byte ..),
    (blitSteps_effect 1 s).cart⟩

/-- Settles O33: the walk of no pixels, and the walk down the column 0. -/
theorem degenerateBlits : Obligations.DegenerateBlits := by
  intro s hi hs he
  have entering : Entering s := ⟨hi, hs, he⟩
  refine ⟨fun hh _ => ?_, fun hw hh => ?_⟩
  · obtain ⟨idle, pending, same⟩ := entering.zero_height hh
    exact ⟨idle, same, pending⟩
  · obtain ⟨n, hn⟩ := Nat.exists_eq_add_of_le' hh
    have walk : WalkLength s.regs.width s.regs.height n := hw ▸ walkLength_zero_width hn
    rw [hn]
    refine ⟨fun k hk hkn => ?_, (entering.ends walk).1, (entering.ends walk).2, fun y x hx hy undrawn => ?_⟩
    · obtain ⟨j, rfl⟩ := Nat.exists_eq_add_of_le' hk
      rw [entering.blit_succ (walk.below.mono (by omega)), hw]
      refine ⟨rfl, ?_, walkPixel_zero_width_row (h := s.regs.height) (by omega)⟩
      rw [walkPixel_zero_width]
      rfl
    · rw [entering.byte_ended walk]
      refine entering.byte_undrawn walk.below (.inr fun k hk hd => ?_)
      obtain ⟨sx, sy, cell⟩ := (walkDraws_zero_width_iff hw (by omega)).1 hd
      obtain ⟨-, ey, ex⟩ := fbCell_inj hy sy hx sx cell
      exact undrawn (k + 1) (by omega) (by omega) ⟨ex, ey⟩

/-- With the x flip bit set the second step wraps the row to the one above, which is at no height (R250). -/
theorem walkPixel_flipped {w : Byte} (hf : 128 ≤ w.toNat) :
    walkPixel w 0 = (0, 0) ∧ walkPixel w 1 = (w - 128, 255) := by
  have first : walkPixel w 0 = (0, 0) := wrapOffset_of_lt (show 0 < w.toNat by omega)
  refine ⟨first, ?_⟩
  have step : walkPixel w 1 = wrapOffset w (255, 0) := by
    rw [walkPixel, walkOffset, ← walkPixel, first, advanceOffset, if_pos hf]
    rfl
  rw [step, wrapOffset_of_flipped (Nat.le_of_lt_succ w.isLt) hf]
  rfl

theorem walkLength_flipped {w h : Byte} (hf : 128 ≤ w.toNat) (hh : h ≠ 0) : WalkLength w h 1 where
  below k hk := by
    obtain rfl : k = 0 := by omega
    rw [(walkPixel_flipped hf).1]
    exact Nat.pos_of_ne_zero fun e => hh (BitVec.eq_of_toNat_eq e)
  reached := by
    rw [(walkPixel_flipped hf).2]
    exact Nat.le_of_lt_succ h.isLt

/-- Settles O34: the walk of one pixel, and with height 0 that of none. -/
theorem flipBlitEndsInTwoSteps : Obligations.FlipBlitEndsInTwoSteps := by
  intro s hi hs he hf
  have entering : Entering s := ⟨hi, hs, he⟩
  refine ⟨fun hh => ?_, entering.zero_height⟩
  have walk := walkLength_flipped hf hh
  have after := entering.blit_succ walk.below
  obtain ⟨first, second⟩ := walkPixel_flipped hf
  obtain ⟨idle, pending⟩ := entering.ends walk
  rw [first, advanceOffset, if_pos hf] at after
  refine ⟨by rw [after]; rfl, by rw [after]; rfl, by rw [after]; rfl, idle, ?_, pending, fun id a => ?_, ?_⟩
  · rw [entering.completes walk, second]
    rfl
  · rw [entering.byte_ended walk, workState_succ_byte]
  · rw [(blitSteps_effect 2 s).cart, (blitSteps_effect 1 s).cart]

/-! Every blit ends -/

/-- Working steps left at most, from these counters below the height: whole rows at no more than 256 steps each, and the
rest of the row (R251). -/
def stepsLeft (w h : Byte) (p : Byte × Byte) : Nat :=
  if 128 ≤ w.toNat then 256 * p.2.toNat + (if p.1.toNat < w.toNat then p.1.toNat + 1 else 0)
  else 256 * (h.toNat - p.2.toNat) + (w.toNat - p.1.toNat)

theorem stepsLeft_lt {w h : Byte} {p : Byte × Byte} (hp : p.2.toNat < h.toNat) : stepsLeft w h p < 256 * 256 := by
  have hh := h.isLt
  have hw := w.isLt
  rw [stepsLeft]
  split
  · split <;> omega
  · omega

/-- A working step that stays below the height leaves fewer (R235, R245). -/
theorem stepsLeft_advance {w h : Byte} {p : Byte × Byte} (hp : p.2.toNat < h.toNat)
    (hq : (wrapOffset w p).2.toNat < h.toNat) :
    stepsLeft w h (advanceOffset w (wrapOffset w p)) < stepsLeft w h p := by
  obtain ⟨x, y⟩ := p
  have hh := h.isLt
  have hw := w.isLt
  have hx := x.isLt
  by_cases inRow : x.toNat < w.toNat
  · rw [wrapOffset_of_lt inRow]
    by_cases hf : 128 ≤ w.toNat
    · simp only [advanceOffset, stepsLeft, if_pos hf, if_pos inRow]
      split <;> bv_omega
    · simp only [advanceOffset, stepsLeft, if_neg hf]
      bv_omega
  · have wraps : w.toNat ≤ x.toNat := Nat.le_of_not_lt inRow
    by_cases hf : 128 ≤ w.toNat
    · rw [wrapOffset_of_flipped wraps hf] at hq ⊢
      simp only [advanceOffset, stepsLeft, if_pos hf, if_neg inRow]
      split <;> bv_omega
    · have narrow : w.toNat < 128 := Nat.lt_of_not_le hf
      rw [wrapOffset_of_not_flipped wraps narrow] at hq ⊢
      simp only [advanceOffset, stepsLeft, if_neg hf]
      bv_omega

/-- A running blitter that is not done goes on with fewer steps left (R235, R245). -/
theorem blitStep_goes_on {s : State} (hr : s.blit.bstate = .running) (hs : s.regs.startStrobe = false)
    (hd : (wrapOffset s.regs.width s.blit.offset).2.toNat < s.blit.heightL.toNat) :
    (blitStep s).blit =
      s.blit.atOffset (advanceOffset s.regs.width (wrapOffset s.regs.width s.blit.offset)) := by
  rw [blitStep_of_running hr hs, blitWork_blit hd]

theorem blitStep_completes {s : State} (hr : s.blit.bstate = .running) (hs : s.regs.startStrobe = false)
    (hd : s.blit.heightL.toNat ≤ (wrapOffset s.regs.width s.blit.offset).2.toNat) :
    (blitStep s).blit.bstate = .idle := by
  rw [blitStep_of_running hr hs, blitWork_completes hd]
  rfl

/-- A running blitter below the height ends within the steps left and one more (R251). -/
theorem blit_ends_below {s : State} (hr : s.blit.bstate = .running) (hs : s.regs.startStrobe = false)
    (hp : s.blit.offset.2.toNat < s.blit.heightL.toNat) :
    ∃ n, n ≤ stepsLeft s.regs.width s.blit.heightL s.blit.offset + 1 ∧ (blitSteps n s).blit.bstate = .idle := by
  induction hm : stepsLeft s.regs.width s.blit.heightL s.blit.offset using Nat.strong_induction_on generalizing s with
  | _ m ih =>
    by_cases hd : s.blit.heightL.toNat ≤ (wrapOffset s.regs.width s.blit.offset).2.toNat
    · exact ⟨1, by omega, blitStep_completes hr hs hd⟩
    · have hq := Nat.lt_of_not_le hd
      have next := blitStep_goes_on hr hs hq
      have fewer := stepsLeft_advance hp hq
      have regs := blitSteps_regs 1 hs
      obtain ⟨n, hn, idle⟩ := ih _ (hm ▸ fewer) (s := blitStep s) (by rw [next]; exact hr) (blitStep_strobe s)
        (by rw [next]; exact hq) (by rw [next, show (blitStep s).regs = s.regs from regs]; rfl)
      exact ⟨n + 1, by omega, idle⟩

/-- A running blitter that sees no strobe ends within 256 · 257 steps: after one step it has ended or is below the
height (R251). -/
theorem blit_ends {s : State} (hr : s.blit.bstate = .running) (hs : s.regs.startStrobe = false) :
    ∃ n, n + 1 ≤ 256 * 257 ∧ (blitSteps (n + 1) s).blit.bstate = .idle := by
  by_cases hd : s.blit.heightL.toNat ≤ (wrapOffset s.regs.width s.blit.offset).2.toNat
  · exact ⟨0, by omega, blitStep_completes hr hs hd⟩
  · have hq := Nat.lt_of_not_le hd
    have next := blitStep_goes_on hr hs hq
    have below : (blitStep s).blit.offset.2.toNat < (blitStep s).blit.heightL.toNat := by
      rw [next]
      exact hq
    obtain ⟨n, hn, idle⟩ := blit_ends_below (by rw [next]; exact hr) (blitStep_strobe s) below
    have few := stepsLeft_lt (w := (blitStep s).regs.width) below
    exact ⟨n, by omega, idle⟩

/-- Settles O36: the first step may see a strobe, which a running blitter ignores (R252). -/
theorem runningBlitEnds : Obligations.RunningBlitEnds := by
  intro s hr
  have running : (blitStart s).blit.bstate = .running := by
    cases hs : s.regs.startStrobe with
    | false => rw [blitStart_idle hs, hr]
    | true => rw [blitStart_not_entering hs fun h => BState.noConfusion (hr.symm.trans h.1), hr]
  obtain ⟨n, hn, idle⟩ := blit_ends running (by rw [blitStart_regs])
  exact ⟨n + 1, hn, by rwa [← blitSteps_blitStart]⟩

end Sys2Proof.Machine
end

section
/-! PROOFS. The ACP's side of the orchestrator: its accesses, the sample event, a pass of its loop, and the loop. -/

namespace Sys2Proof.Machine

/-! An access -/

/-- By default the address wraps at the size of audio RAM (R82). -/
theorem acpDecode_default (a : Addr) :
    (acpDecode .specDefault a).map BitVec.toNat = some (a.toNat % 4096) := by
  simp [acpDecode, BitVec.extractLsb'_toNat]

theorem acpRead_eq (a : Addr) (s : State) :
    acpRead a s =
      { handedOut s (.acpRead a (((acpDecode s.cfg.acpDecode a).map fun o => s.byte .aram o.toNat).getD 0)) with
        orch := { s.orch with acpCycleCounter := s.orch.acpCycleCounter + 1 } } := by
  unfold acpRead
  cases acpDecode s.cfg.acpDecode a <;> rfl

/-- Settles O45: a read by its two cases of the decoder, a write by the two cases of `acpWrite_cases`. -/
theorem acpAccesses : Obligations.AcpAccesses := by
  refine ⟨acpDecode_default, fun s a => ⟨congrArg Host.Outcome.next (acpRead_eq a s), fun v => ⟨_, rfl, ?_⟩⟩⟩
  rcases acpWrite_cases a v s with ⟨o, hdec, e⟩ | ⟨hdec, e⟩ <;> rw [e, hdec]
  · exact ⟨rfl, s.putByte_stores .aram o.toNat v⟩
  · exact ⟨rfl, rfl⟩

/-! The sample event -/

theorem rateDivisor_eq_zero_iff (ctl : Byte) : rateDivisor ctl = 0 ↔ ctl.extractLsb' 0 7 = 0 :=
  BitVec.toNat_inj (y := 0#7)

theorem rateMatches_iff (a : AudioPipeline) (r : Rate) :
    rateMatches a r = true ↔ ∃ rs, a.rs = some rs ∧ rs.rate.num * r.den = r.num * rs.rate.den := by
  unfold rateMatches
  cases a.rs with
  | none => simp
  | some rs => simp [sameRate]

/-- `w` is `u` with a pipeline of divisor `d`'s rate: `u` itself if its pipeline has that rate, and else `u` after
A.RECREATE (R295, R296, R332). -/
def RateChecked (d : Nat) (u w : State) : Prop :=
  (∃ rs, u.audio.rs = some rs ∧ rs.rate.num * d = 3579545 * rs.rate.den ∧ w = u) ∨
  ((∀ rs, u.audio.rs = some rs → rs.rate.num * d ≠ 3579545 * rs.rate.den) ∧ exec (.aRecreate 3579545 d) u = .next w)

theorem RateChecked.ensureRate_eq {d : Nat} {u w : State} (h : RateChecked d u w) : ensureRate (nativeRate d) u = w := by
  rcases h with ⟨rs, hrs, hrate, rfl⟩ | ⟨hrate, hw⟩
  · exact if_pos ((rateMatches_iff ..).2 ⟨rs, hrs, hrate⟩)
  · have differs : ¬rateMatches u.audio (nativeRate d) = true := fun h =>
      let ⟨rs, hrs, hr⟩ := (rateMatches_iff ..).1 h
      hrate rs hrs hr
    exact (if_neg differs).trans (of_ite_next hw (fun _ h => Host.Outcome.next.inj h) fun h => nomatch h)

/-- The rate check leaves a pipeline that has been created (R332). -/
theorem ensureRate_created (r : Rate) (s : State) : (ensureRate r s).audio.rs ≠ none := by
  unfold ensureRate
  split
  · rename_i h
    obtain ⟨rs, hrs, -⟩ := (rateMatches_iff ..).1 h
    simp [hrs]
  · simp [audioRecreate]

/-- A push leaves the resampler as it is (R322). -/
theorem audioPush_rs (v : Byte) (s : State) : (audioPush v s).audio.rs = s.audio.rs := by
  rcases audioPush_cases v s with ⟨-, e⟩ | ⟨-, e⟩
  · rw [e]
  · rw [e, State.diag_audio]

/-- A drain with a pipeline that has been created is not refused (R328). -/
theorem exec_aDrain {s : State} (h : s.audio.rs ≠ none) : exec .aDrain s = .next (audioDrain s) :=
  if_neg fun hm => h ((resamplerMissing_iff s).1 hm).2

/-- `s` with the sample countdown reloaded for divisor `d` and the ACP's IRQ asserted (R295). -/
def sampleAsserted (d : Nat) (s : State) : State :=
  { s with
    orch := { s.orch with sampleCountdown := 4 * (d : Int) }
    lines := { s.lines with acpIrq := true } }

/-- With a divisor of 0 the event ends before the pipeline, whatever its pipeline part (U6). -/
theorem sampleEventBy_stopped (pipe : Rate → Byte → State → State) (v : Byte) {s : State}
    (h : rateDivisor s.regs.audioCtl = 0) : sampleEventBy pipe v s = sampleAsserted 0 s := by
  rcases sampleEventBy_cases pipe v s with ⟨-, e⟩ | ⟨hd, -⟩
  · rw [e, h]
    rfl
  · exact absurd h hd

theorem sampleEventBy_running (pipe : Rate → Byte → State → State) (v : Byte) {s : State}
    (h : rateDivisor s.regs.audioCtl ≠ 0) (hp : s.env.popIn = []) :
    sampleEventBy pipe v s =
      pipe (nativeRate (rateDivisor s.regs.audioCtl)) v (sampleAsserted (rateDivisor s.regs.audioCtl) s) := by
  rcases sampleEventBy_cases pipe v s with ⟨hd, -⟩ | ⟨-, e⟩
  · exact absurd hd h
  · rw [e]
    exact congrArg _ (audioThread_none (s := sampleAsserted _ s) hp)

/-- Settles O43. The drain is not refused, since the rate check has left a pipeline. -/
theorem sampleEvent_reloads_asserts_feeds : Obligations.SampleEvent := by
  rintro s u w x v d rfl rfl
  refine ⟨fun hd => ?_, fun hd hp hw hx => ?_⟩
  · rw [hd]
    exact congrArg Host.Outcome.next (sampleEventBy_stopped samplePipeline v hd)
  · have checked : ensureRate (nativeRate _) (sampleAsserted _ s) = w := RateChecked.ensureRate_eq hw
    have created : w.audio.rs ≠ none := checked ▸ ensureRate_created _ (sampleAsserted _ s)
    obtain rfl : audioPush v w = x := Host.Outcome.next.inj hx
    refine ⟨_, congrArg Host.Outcome.next (sampleEventBy_running samplePipeline v hd hp), ?_⟩
    rw [exec_aDrain (by rwa [audioPush_rs])]
    exact congrArg (fun t => Host.Outcome.next (audioDrain (audioPush v t))) checked.symm

/-! One pass -/

theorem nextAcpStep_queued {s : State} {x : AcpInput} {more : List AcpInput} (h : s.env.acpIn = x :: more) :
    nextAcpStep s = (acpAnswer x s.acpSample, { s with env := { s.env with acpIn := more } }) := by
  simp only [nextAcpStep, h]

theorem nextAcpStep_unqueued {s : State} (h : s.env.acpIn = []) :
    nextAcpStep s =
      (Config.acpStep s.env.acpFree s.acpSample, { s with env := { s.env with acpFree := s.env.acpFree + 1 } }) := by
  simp only [nextAcpStep, h]

/-- The ACP takes its events, then makes its accesses (R292). -/
theorem acpStep_of_next {s u : State} {st : AcpStep} (h : nextAcpStep s = (st, u)) :
    acpStep s = (st.sample, (st.first :: st.rest).foldl (fun t op => acpAccess op t) u.takeAcpEvents) := by
  simp only [acpStep, h]

/-- `a` with the cycles of the ACP's step charged to the budget and the sample countdown (R294). -/
def acpCharged (a : State) : State :=
  { a with
    orch := { a.orch with
      acpCycleCounter := 0
      acpBudget := a.orch.acpBudget - a.orch.acpCycleCounter
      sampleCountdown := a.orch.sampleCountdown - a.orch.acpCycleCounter } }

theorem acpPass_no_event {s : State} (h : 0 < (acpCharged (acpStep s).2).orch.sampleCountdown) :
    acpPass s = acpCharged (acpStep s).2 := if_neg (not_le.2 h)

theorem acpPass_event {s : State} (h : (acpCharged (acpStep s).2).orch.sampleCountdown ≤ 0) :
    acpPass s = loopSampleEvent (acpStep s).1 (acpCharged (acpStep s).2) := if_pos h

/-- Where the loop's event drains, or has nothing to drain, it is the event of R295 (log entry 23). -/
theorem loopSampleEvent_eq_sampleEvent (v : Byte) {s : State}
    (h : s.cfg.drainPoint = .everySample ∨ rateDivisor s.regs.audioCtl = 0) : loopSampleEvent v s = sampleEvent v s := by
  unfold loopSampleEvent
  split
  · rfl
  · rename_i hp
    have stopped := h.resolve_left (by simp [hp])
    exact (sampleEventBy_stopped sampleQueue v stopped).trans (sampleEventBy_stopped samplePipeline v stopped).symm

theorem loopSampleEvent_afterLoop (v : Byte) {s : State} (h : s.cfg.drainPoint = .afterLoop) :
    loopSampleEvent v s = sampleEventBy sampleQueue v s := by simp only [loopSampleEvent, h]

/-- Settles O41: the three clauses are no event, the event of R295, and the event without its drain. -/
theorem acpPassIsTheLoopBody : Obligations.AcpPassIsTheLoopBody := by
  intro s u a b st hst ha hb
  have step : acpStep s = (st.sample, a) := by
    subst ha
    rcases hst with ⟨x, more, hin, rfl, rfl⟩ | ⟨hin, rfl, rfl⟩
    · exact acpStep_of_next (nextAcpStep_queued hin)
    · exact acpStep_of_next (nextAcpStep_unqueued hin)
  have charged : acpCharged (acpStep s).2 = b := by rw [step, hb]; rfl
  have cfg : b.cfg = s.cfg := charged ▸ (acpStep_effect s).1.cfg
  have event (due : b.orch.sampleCountdown ≤ 0) : acpPass s = loopSampleEvent st.sample b := by
    have h := acpPass_event (charged ▸ due)
    rwa [charged, step] at h
  refine ⟨fun waits => ?_, fun due drains => ?_, fun due undrained d v w hp hd hd0 hv hw => ?_⟩
  · rw [acpPass_no_event (charged ▸ waits), charged]
  · rw [← cfg, ← rateDivisor_eq_zero_iff] at drains
    rw [event due, loopSampleEvent_eq_sampleEvent _ drains]
    rfl
  · rw [← cfg] at undrained
    subst hd hv
    have checked : ensureRate (nativeRate _) (sampleAsserted _ b) = w := RateChecked.ensureRate_eq hw
    rw [event due, loopSampleEvent_afterLoop _ undrained, sampleEventBy_running _ _ hd0 hp]
    exact congrArg (fun t => Host.Outcome.next (audioPush st.sample t)) checked.symm

/-! The loop -/

/-- A loop that repeats `f` while the counter `left` is positive, cut off after `n` rounds, is a number of rounds up to
`n`, each of which found the counter positive. -/
theorem exists_rounds {loop : Nat → State → State} {f : State → State} {left : State → Int}
    (zero : ∀ s, loop 0 s = s) (succ : ∀ n s, loop (n + 1) s = if 0 < left s then loop n (f s) else s) (n : Nat)
    (s : State) : ∃ m, m ≤ n ∧ loop n s = f^[m] s ∧ ∀ k, k < m → 0 < left (f^[k] s) := by
  induction n generalizing s with
  | zero => exact ⟨0, le_refl 0, zero s, by simp⟩
  | succ n ih =>
    rw [succ]
    split
    · rename_i first
      obtain ⟨m, hm, e, rounds⟩ := ih (f s)
      refine ⟨m + 1, Nat.succ_le_succ hm, e, fun k hk => ?_⟩
      cases k with
      | zero => exact first
      | succ k => exact rounds k (Nat.lt_of_succ_lt_succ hk)
    · exact ⟨0, Nat.zero_le _, rfl, by simp⟩

/-- Settles O40: the rounds of the loop, then the cases of the drain behind it. -/
theorem acpLoopIsItsPasses : Obligations.AcpLoopIsItsPasses := by
  intro s
  obtain ⟨n, hn, passes, rounds⟩ := exists_rounds (loop := acpPasses) (fun _ => rfl) (fun _ _ => rfl)
    s.orch.acpBudget.toNat s
  have he := acpPasses_effect s.orch.acpBudget.toNat s
  refine ⟨n, acpLoop s, _, rfl, passes, hn, acpLoop_budget s, rounds, ?_⟩
  rw [← rateDivisor_eq_zero_iff, Ne, ← rateDivisor_eq_zero_iff, ← he.cfg, ← he.regs]
  rcases loopDrain_cases (acpPasses s.orch.acpBudget.toNat s) with ⟨undrained, e⟩ | ⟨after, hd, e⟩
  · exact ⟨fun _ => e, fun after hd => absurd undrained (by simp [after, hd])⟩
  · exact ⟨fun undrained => absurd undrained (by simp [after, hd]), fun _ _ => e⟩

end Sys2Proof.Machine
end

section
/-! PROOFS. The tick, the iteration and its last steps, and the CPU's contract on the framebuffer. -/

namespace Sys2Proof.Machine

/-! The last steps of an iteration -/

/-- Settles O44, by the two cases of the vblank update. -/
theorem interruptCopyAndVblank : Obligations.InterruptCopyAndVblank := by
  refine fun s => ⟨rfl, fun c => ?_⟩
  rcases vblank_cases c s with ⟨left, e⟩ | ⟨expired, e⟩
  · exact ⟨fun _ => congrArg Host.Outcome.next e, fun h => absurd left (not_lt.2 h)⟩
  · exact ⟨fun h => absurd h (not_lt.2 expired), fun _ => congrArg Host.Outcome.next e⟩

/-! The tick -/

theorem exec_tick {s : State} {c : Cart} (hc : s.mem.cart = some c) (elapsed : Nat) :
    exec (.tick elapsed) s = .next (tick c elapsed s) := by simp only [exec, execTick, hc]

theorem exec_iter {s : State} {c : Cart} (hc : s.mem.cart = some c) : exec .iter s = .next (iteration c s) := by
  simp only [exec, execIter, hc]

/-- The budget logs a clamped tick, and changes only the time of the last tick and the remaining cycles (R282, R385). -/
theorem budget_eq (elapsed : Nat) (s : State) :
    budget elapsed s =
      { (if 33000000 < elapsed then logged s (.timingAnomaly elapsed) else s) with
        orch := { s.orch with
          lastTick := s.orch.lastTick + elapsed
          remainingCycles := cyclesOf (clampElapsed elapsed) } } := by
  unfold budget
  by_cases h : 33000000 < elapsed
  · rw [if_pos h, if_pos (show Config.clampTriggerNs < elapsed from h)]
    rfl
  · rw [if_neg h, if_neg (show ¬Config.clampTriggerNs < elapsed from h)]

/-- Settles O38: the rounds of the tick's loop from the state that the budget leaves. -/
theorem tickIsItsIterations : Obligations.TickIsItsIterations := by
  intro s c elapsed hc
  obtain ⟨n, hn, iterations, rounds⟩ := exists_rounds (loop := tickLoop c) (fun _ => rfl) (fun _ _ => rfl)
    (cyclesOf (clampElapsed elapsed)) (budget elapsed s)
  refine ⟨n, tick c elapsed s, exec_tick hc elapsed, ?_, tick_remaining c elapsed s⟩
  intro e he u hu
  obtain rfl : e = cyclesOf (clampElapsed elapsed) := he
  obtain rfl : u = budget elapsed s := hu.trans (budget_eq elapsed s).symm
  exact ⟨hn, iterations, rounds⟩

/-! The CPU's contract -/

/-- Transactions that keep the owner are left as they are (log entry 24). -/
theorem ownedOps_of_keepsOwner {flags : Byte} {owned : Bool} {ops : List BusOp} (h : KeepsOwner flags owned ops) :
    ownedOps flags owned ops = ops := by
  induction ops generalizing flags owned with
  | nil => rfl
  | cons op rest ih =>
    obtain ⟨hop, hrest⟩ := h
    unfold ownedOps
    rw [if_neg (by cases owned <;> simp_all), ih hrest]

/-- Transactions keep the owner if none sets `dma_enable` behind one that writes the framebuffer, in `ops` or before
it. -/
theorem keepsOwner_of_splits {flags : Byte} {owned : Bool} {ops : List BusOp}
    (before : owned = true → ∀ op ∈ ops, setsDmaEnable op = false)
    (inside : ∀ (l m r : List BusOp) (w op : BusOp), ops = l ++ w :: (m ++ op :: r) →
      writesFramebuffer w (l.foldl (fun flags x => flagsAfter x flags) flags) = true → setsDmaEnable op = false) :
    KeepsOwner flags owned ops := by
  induction ops generalizing flags owned with
  | nil => exact trivial
  | cons first rest ih =>
    refine ⟨fun ho => before ho first List.mem_cons_self, ih (fun ho op hop => ?_) fun l m r w op hsplit hw => ?_⟩
    · rcases Bool.or_eq_true_iff.1 ho with ho | hw
      · exact before ho op (List.mem_cons_of_mem _ hop)
      · obtain ⟨m, r, rfl⟩ := List.append_of_mem hop
        exact inside [] m r first op rfl hw
    · exact inside (first :: l) m r w op (congrArg (first :: ·) hsplit) hw

/-- What a conforming CPU makes of a step `p` (R218, log entry 24): under `anySequence` the step itself; in every contract
its transactions in their order without some that set `dma_enable`, and `p` itself where it keeps the owner. -/
structure Conforms (s : State) (p q : CpuStep) : Prop where
  any : s.cfg.cpuContract = .anySequence → q = p
  first : q.first = p.first
  sublist : q.rest.Sublist p.rest
  others : (q.rest.filter fun op => !setsDmaEnable op) = p.rest.filter fun op => !setsDmaEnable op
  kept : KeepsOwner s.regs.dmaFlags false (p.first :: p.rest) → q = p

theorem cpuConform_conforms (s : State) (p : CpuStep) : Conforms s p (cpuConform s p) := by
  rcases cpuConform_cases s p with ⟨-, e⟩ | ⟨hc, hfirst, hrest⟩
  · rw [e]
    exact ⟨fun _ => rfl, rfl, .refl _, rfl, fun _ => rfl⟩
  · refine ⟨fun h => by simp [hc] at h, hfirst, ?_, ?_, fun ⟨_, hk⟩ => ?_⟩
    · rw [hrest]
      exact ownedOps_sublist ..
    · rw [hrest]
      exact ownedOps_filter ..
    · have same : (cpuConform s p).rest = p.rest := hrest.trans (ownedOps_of_keepsOwner hk)
      calc cpuConform s p = ⟨(cpuConform s p).first, (cpuConform s p).rest⟩ := rfl
        _ = p := by rw [hfirst, same]

/-- A step under `oneOwner` keeps the owner (R218). -/
theorem cpuConform_keepsOwner {s : State} (h : s.cfg.cpuContract = .oneOwner) (p : CpuStep) :
    KeepsOwner s.regs.dmaFlags false ((cpuConform s p).first :: (cpuConform s p).rest) := by
  rcases cpuConform_cases s p with ⟨hc, -⟩ | ⟨-, hfirst, hrest⟩
  · simp [h] at hc
  · rw [hfirst, hrest]
    exact ⟨(nomatch ·), ownedOps_keepsOwner ..⟩

/-! The iteration -/

/-- The primary CPU's next step from `s` is `st`, made from `u`: the state without the events and the input that the CPU
has taken (R8, R281). -/
structure CpuStarts (s u : State) (st : CpuStep) : Prop where
  step : ∀ c, cpuStep c s = (st.first :: st.rest).foldl (fun t op => busAccess c op t) u
  conform : ∃ p, st = cpuConform s p
  regs : u.regs = s.regs
  byte : ∀ id x, u.byte id x = s.byte id x

theorem cpuStarts_queued {s : State} {x : CpuInput} {more : List CpuInput} (h : s.env.cpuIn = x :: more) :
    CpuStarts s { s with env := { s.env with cpuIn := more } }.takeCpuEvents
      (cpuConform s (cpuAnswer x s.cpuSample)) :=
  ⟨fun c => by simp only [cpuStep, nextCpuStep, h], ⟨_, rfl⟩, rfl, fun _ _ => rfl⟩

theorem cpuStarts_unqueued {s : State} (h : s.env.cpuIn = []) :
    CpuStarts s { s with env := { s.env with cpuFree := s.env.cpuFree + 1 } }.takeCpuEvents
      (cpuConform s (Config.cpuStep s.env.cpuFree s.cpuSample)) :=
  ⟨fun c => by simp only [cpuStep, nextCpuStep, h], ⟨_, rfl⟩, rfl, fun _ _ => rfl⟩

theorem CpuStarts.keepsOwner {s u : State} {st : CpuStep} (h : CpuStarts s u st)
    (ho : s.cfg.cpuContract = .oneOwner ∨ ∀ op, op ∈ st.first :: st.rest → setsDmaEnable op = false) :
    KeepsOwner s.regs.dmaFlags false (st.first :: st.rest) := by
  rcases ho with ho | ho
  · obtain ⟨p, rfl⟩ := h.conform
    exact cpuConform_keepsOwner ho p
  · exact keepsOwner_of_none_sets _ _ _ ho

/-- A CPU step that keeps the owner and changes a framebuffer byte leaves `dma_enable` clear (R218). -/
theorem CpuStarts.dma_clear {s u : State} {st : CpuStep} (h : CpuStarts s u st)
    (ho : s.cfg.cpuContract = .oneOwner ∨ ∀ op, op ∈ st.first :: st.rest → setsDmaEnable op = false) {c : Cart}
    (changed : ∃ x, (cpuStep c s).byte .fb x ≠ s.byte .fb x) : dmaEnable (cpuStep c s).regs.dmaFlags = false := by
  obtain ⟨x, hx⟩ := changed
  rw [h.step] at hx ⊢
  have owner : KeepsOwner u.regs.dmaFlags false (st.first :: st.rest) := by rw [h.regs]; exact h.keepsOwner ho
  exact (busAccesses_one_owner c _ u false owner fun h => nomatch h).resolve_right
    fun ⟨_, same⟩ => hx ((same x).trans (h.byte ..))

/-- With `dma_enable` clear the blitter's steps leave every byte (R238). -/
theorem blitSteps_byte_dma_off (n : Nat) {s : State} (h : dmaEnable s.regs.dmaFlags = false) (id : MemId) (a : Nat) :
    (blitSteps n s).byte id a = s.byte id a :=
  State.byte_congr (blitSteps_dma_off n h) (congrArg Environment.powerOns (blitSteps_effect n s).env) id a

/-- The ACP's turn in an iteration: its loop if it is enabled (R286). -/
def acpTurn (s : State) : State := if acpEnable s.regs.audioCtl then acpLoop s else s

theorem acpTurn_regs (s : State) : (acpTurn s).regs = s.regs := by
  unfold acpTurn
  split
  · exact (acpLoop_effect s).regs
  · rfl

theorem acpTurn_eq {b d : State}
    (h : (acpEnable b.regs.audioCtl = true ∧ exec .acploop b = .next d) ∨ (acpEnable b.regs.audioCtl = false ∧ d = b)) :
    d = acpTurn b := by
  unfold acpTurn
  rcases h with ⟨on, hd⟩ | ⟨off, rfl⟩
  · rw [if_pos on]
    exact (Host.Outcome.next.inj hd).symm
  · rw [off]
    rfl

/-- Settles O39. The order is that of `iteration`; where the CPU's step keeps the owner and changes the framebuffer, it
leaves `dma_enable` clear, so that the blitter's steps write nothing. -/
theorem iterationIsItsSevenSteps : Obligations.IterationIsItsSevenSteps := by
  intro s u a b d e f c st n hc hst ha hn hb hd he hf
  have starts : CpuStarts s u st := by
    rcases hst with ⟨x, more, hin, rfl, rfl⟩ | ⟨hin, rfl, rfl⟩
    · exact cpuStarts_queued hin
    · exact cpuStarts_unqueued hin
  obtain rfl : a = cpuStep c s := ha.trans (starts.step c).symm
  obtain rfl : b = chargeCycles (cpuStep c s) := by
    rw [hb, hn]
    simp only [chargeCycles, Config.acpRatio, Nat.cast_mul, Nat.cast_ofNat]
  obtain rfl : d = acpTurn (chargeCycles (cpuStep c s)) := acpTurn_eq hd
  obtain rfl : irqProp e = f := Host.Outcome.next.inj hf
  subst hn he
  refine ⟨⟨iteration c s, exec_iter hc, rfl⟩, fun ho changed => ?_, fun p => ?_⟩
  · have clear := starts.dma_clear ho changed
    exact blitSteps_byte_dma_off _ (by rw [acpTurn_regs]; exact clear) .fb
  · obtain ⟨any, first, sublist, others, kept⟩ := cpuConform_conforms s p
    exact ⟨any, first, sublist, others, fun splits => kept (keepsOwner_of_splits (fun h => nomatch h) splits)⟩

end Sys2Proof.Machine
end

section
/-! PROOFS. The stages of the audio pipeline: pushes, pulls with either resampler, commits, pops and creations. -/

namespace Sys2Proof.Machine

/-! Pushes -/

theorem exec_aPush_stores {s : State} (v : Byte) (h : s.audio.nr.length < 128) :
    exec (.aPush v) s = .next { s with audio := { s.audio with nr := s.audio.nr ++ [v] } } :=
  congrArg Host.Outcome.next (if_pos h)

theorem exec_aPush_drops {s : State} (v : Byte) (h : 128 ≤ s.audio.nr.length) :
    exec (.aPush v) s = .next (logged s (.nativeOverflow v)) :=
  congrArg Host.Outcome.next (if_neg (Nat.not_lt.2 h))

/-- Settles O46: the two cases of a push. -/
theorem pushStoresOrDrops : Obligations.PushStoresOrDrops :=
  fun _ v => ⟨exec_aPush_stores v, exec_aPush_drops v⟩

/-- Pushes with no drain between them keep the 128 oldest samples, and log one record for each of the others (R335). -/
theorem exec_pushes (vs : List Byte) {s : State} (h : s.audio.nr.length ≤ 128) :
    ∃ d, vs.foldl (fun o v => thenDo o (exec (.aPush v))) (.next s) =
        .next { s with
          audio := { s.audio with nr := (s.audio.nr ++ vs).take 128 }
          env := { s.env with diags := d } } ∧
      d.length = s.env.diags.length + (s.audio.nr.length + vs.length - 128) := by
  induction vs generalizing s with
  | nil =>
    refine ⟨s.env.diags, ?_, by rw [List.length_nil]; omega⟩
    rw [List.append_nil, List.take_of_length_le h]
    rfl
  | cons v vs ih =>
    rw [List.foldl_cons, thenDo, List.length_cons]
    rcases Nat.lt_or_ge s.audio.nr.length 128 with free | full
    · have room : (s.audio.nr ++ [v]).length ≤ 128 := by rw [List.length_append, List.length_singleton]; omega
      obtain ⟨d, e, hd⟩ := ih (s := { s with audio := { s.audio with nr := s.audio.nr ++ [v] } }) room
      rw [exec_aPush_stores v free, e]
      refine ⟨d, by simp only [List.append_assoc, List.singleton_append], hd.trans ?_⟩
      simp only [List.length_append, List.length_singleton]
      omega
    · obtain ⟨d, e, hd⟩ := ih (s := logged s (.nativeOverflow v)) h
      rw [exec_aPush_drops v full, e]
      refine ⟨d, ?_, hd.trans ?_⟩
      · simp only [logged, List.take_append_of_le_length full]
      · simp only [logged, List.length_cons]
        omega

/-- Settles O47: `exec_pushes` from an empty native ring. -/
theorem backpressure : Obligations.Backpressure := by
  intro s vs empty
  obtain ⟨d, e, hd⟩ := exec_pushes vs (s := s) (by simp [empty])
  rw [empty, List.nil_append] at e
  exact ⟨_, d, e, rfl, by rw [List.length_take, Nat.min_comm], by simpa [empty] using hd⟩

/-! The default resampler -/

/-- The outputs below `zohEnd r n` are those whose input is among the first `n` (R326). -/
theorem zohIndex_lt_iff {r : Rate} (hn : 0 < r.num) (hd : 0 < r.den) {k n : Nat} :
    zohIndex r k < n ↔ k < zohEnd r n := by
  have period : 0 < Config.targetRate * r.den := Nat.mul_pos (by decide) hd
  rw [zohIndex, zohEnd, Nat.div_lt_iff_lt_mul period, Nat.lt_iff_add_one_le (m := k), Nat.le_div_iff_mul_le hn,
    Nat.add_one_mul]
  omega

theorem zohIndex_mono (r : Rate) {j k : Nat} (h : j ≤ k) : zohIndex r j ≤ zohIndex r k :=
  Nat.div_le_div_right (Nat.mul_le_mul_right _ h)

theorem zohEnd_mono (r : Rate) {m n : Nat} (h : m ≤ n) : zohEnd r m ≤ zohEnd r n :=
  Nat.div_le_div_right (Nat.sub_le_sub_right (Nat.add_le_add_right (Nat.mul_le_mul_right _ h) _) _)

theorem zohPull_length (rs : Resampler) (y : List F32) :
    (zohPull rs y).2.length = zohEnd rs.rate (rs.nIn + y.length) - rs.nOut := by simp [zohPull]

/-- A pull counts its samples in and its samples out (R326). -/
theorem zohPull_next (rs : Resampler) (y : List F32) :
    (zohPull rs y).1 = { rs with nIn := rs.nIn + y.length, nOut := rs.nOut + (zohPull rs y).2.length } := by
  have out : rs.nOut + (zohPull rs y).2.length = max rs.nOut (zohEnd rs.rate (rs.nIn + y.length)) := by
    rw [zohPull_length]
    omega
  rw [out]
  rfl

/-- The outputs of a pull are those whose input it has consumed (R326). -/
theorem zohPull_consumed {rs : Resampler} (hn : 0 < rs.rate.num) (hd : 0 < rs.rate.den) (y : List F32) (j : Nat) :
    j < (zohPull rs y).2.length ↔ zohIndex rs.rate (rs.nOut + j) < rs.nIn + y.length := by
  rw [zohPull_length, zohIndex_lt_iff hn hd]
  omega

/-- Each output of a pull repeats its input (R326). -/
theorem zohPull_getElem? {rs : Resampler} (hn : 0 < rs.rate.num) (hd : 0 < rs.rate.den) {y : List F32} {j : Nat}
    (waiting : rs.nIn ≤ zohIndex rs.rate rs.nOut) (h : j < (zohPull rs y).2.length) :
    (zohPull rs y).2[j]? = y[zohIndex rs.rate (rs.nOut + j) - rs.nIn]? := by
  have consumed := (zohPull_consumed hn hd y j).1 h
  have later : zohIndex rs.rate rs.nOut ≤ zohIndex rs.rate (rs.nOut + j) := zohIndex_mono _ (Nat.le_add_right ..)
  have inside : zohIndex rs.rate (rs.nOut + j) - rs.nIn < y.length := by omega
  rw [List.getElem?_eq_getElem h, List.getElem?_eq_getElem inside]
  simp [zohPull, inside]

/-- Settles O49. The first output that the pull does not emit has its input still to come. -/
theorem zeroOrderHoldPull : Obligations.ZeroOrderHoldPull := by
  intro rs rs' y out hn hd hy waiting h
  obtain ⟨rfl, rfl⟩ := Prod.mk.inj h
  rw [← hy]
  exact ⟨zohPull_next rs y, fun j hj => ⟨(zohPull_consumed hn hd y j).1 hj, zohPull_getElem? hn hd waiting hj⟩,
    Nat.not_lt.1 fun more => Nat.lt_irrefl _ ((zohPull_consumed hn hd y _).2 more)⟩

/-! The contract of any other resampler -/

theorem steadyAfter_eq_some_iff (rs : Resampler) {y : List F32} (hy : y ≠ []) (v : F32) :
    steadyAfter rs y = some v ↔ (∀ x, x ∈ y → x = v) ∧ (rs.nIn = 0 ∨ rs.steady = some v) := by
  obtain ⟨first, rest, rfl⟩ := List.exists_cons_of_ne_nil hy
  simp only [steadyAfter, List.head?_cons, Option.bind_some, Option.ite_none_right_eq_some, Option.some.injEq]
  constructor
  · rintro ⟨h, rfl⟩
    exact h
  · intro h
    obtain rfl : first = v := h.1 first List.mem_cons_self
    exact ⟨h, rfl⟩

theorem freePull_nOut (rs : Resampler) (y : List F32) :
    (freePull rs y).1.nOut = rs.nOut + (freePull rs y).2.length := by simp [freePull]

/-- A pull keeps the number of outputs between the two bounds, if it was below the upper one (R326). -/
theorem freePull_nOut_bounds {rs : Resampler} (y : List F32)
    (h : rs.nOut ≤ zohEnd rs.rate rs.nIn + Config.resampleSlack) :
    outputFloor rs.rate (rs.nIn + y.length) - Config.resampleSlack ≤ (freePull rs y).1.nOut ∧
    (freePull rs y).1.nOut ≤ zohEnd rs.rate (rs.nIn + y.length) + Config.resampleSlack := by
  have mono : zohEnd rs.rate rs.nIn ≤ zohEnd rs.rate (rs.nIn + y.length) := zohEnd_mono _ (Nat.le_add_right ..)
  have bounds := boundOutputs_bounds rs.rate (rs.nIn + y.length)
    (rs.nOut + Config.resampleCount (reducedRate rs.rate) rs.inner y)
  simp only [freePull]
  omega

/-- Every output of a pull over a settled input has the input's value (R326). -/
theorem freePull_settled {rs : Resampler} {y : List F32} {v x : F32} (steady : (freePull rs y).1.steady = some v)
    (settled : Config.resampleSettle (reducedRate rs.rate) v ≤ rs.nIn) (hx : x ∈ (freePull rs y).2) : x = v := by
  obtain ⟨j, -, rfl⟩ := List.mem_map.1 hx
  exact freeSample_settled steady settled j

/-! Pulls -/

/-- The values of V-AUD-1 (R323). -/
theorem toF32_values :
    ([0, 1, 64, 127, 128, 129, 191, 254, 255] : List Byte).map toF32 =
      [0xBF800000, 0xBF7DFDFE, 0xBEFEFEFE, 0xBB808080, 0x3B808100, 0x3C40C100, 0x3EFEFF00, 0x3F7DFDFE, 0x3F800000] := by
  decide +kernel

theorem audioResample_exhausted {s : State} (h : s.audio.nr.length < 64) : audioResample s = (.exhausted, s) :=
  if_pos (decide_eq_true h)

theorem audioResample_pulled {s : State} {rs : Resampler} (h : 64 ≤ s.audio.nr.length) (hrs : s.audio.rs = some rs) :
    audioResample s = (.pulled, pullChunk s rs) := by
  rw [audioResample, (not_exhausted_iff _).2 h, hrs]
  rfl

/-- The states in which a pull and a drain have a meaning: no chunk waits, or there is a resampler (R325). -/
def Pullable (s : State) : Prop := s.audio.nr.length < 64 ∨ s.audio.rs ≠ none

theorem Pullable.not_missing {s : State} (h : Pullable s) : ¬resamplerMissing s = true := fun missing =>
  let ⟨full, uncreated⟩ := (resamplerMissing_iff s).1 missing
  h.elim (Nat.not_lt.2 full) fun created => created uncreated

theorem exec_aResample {s : State} (h : Pullable s) :
    exec .aResample s = .next (handedOut (audioResample s).2 (.resample (audioResample s).1)) := if_neg h.not_missing

/-- Settles O48: the free resampler's contract clause by clause, and a pull by the number of waiting samples. -/
theorem resamplerPull : Obligations.ResamplerPull := by
  refine ⟨toF32_values, fun rs rs' y out _ _ hy h => ?_, fun s => ⟨fun short => ?_, fun rs rs' out full hrs h => ?_⟩⟩
  · obtain ⟨rfl, rfl⟩ := Prod.mk.inj h
    have nonempty : y ≠ [] := List.ne_nil_of_length_pos (by omega)
    rw [← hy]
    exact ⟨rfl, rfl, freePull_nOut rs y, freePull_nOut_bounds y, steadyAfter_eq_some_iff rs nonempty,
      fun v x => freePull_settled⟩
  · rw [exec_aResample (.inl short), audioResample_exhausted short]
  · rw [exec_aResample (.inr (by simp [hrs])), audioResample_pulled full hrs]
    simp only [pullChunk, Config.exhaustMin, h, handedOut]

/-! Commits -/

theorem exec_aCommit (s : State) :
    exec .aCommit s = .next (handedOut (audioCommit s).2 (.commit (audioCommit s).1)) := rfl

/-- Settles O50: in each clause the other two cases of a commit are shut out; the block is the only one with the 64
samples. -/
theorem commitMovesOneBlock : Obligations.CommitMovesOneBlock := by
  intro s
  simp only [exec_aCommit]
  rcases audioCommit_cases s with ⟨short, e⟩ | ⟨full, noRoom, e⟩ | ⟨full, room, b', hb', e⟩ <;> rw [e]
  · refine ⟨fun _ => rfl, fun full _ => absurd full (Nat.not_le.2 short), fun b hb _ => ?_⟩
    have full : 64 ≤ s.audio.aq.length := by simpa using congrArg List.length hb
    exact absurd full (Nat.not_le.2 short)
  · exact ⟨fun short => absurd full (Nat.not_le.2 short), fun _ _ => rfl,
      fun _ _ room => absurd noRoom (Nat.not_lt.2 room)⟩
  · refine ⟨fun short => absurd full (Nat.not_le.2 short), fun _ noRoom => absurd noRoom (Nat.not_lt.2 room),
      fun b hb _ => ?_⟩
    obtain rfl : b = b' := Vector.toList_inj.1 (hb.trans hb'.symm)
    rfl

/-! Pops and creations -/

/-- Settles O52: the two cases of a pop; a creation and the fresh resamplers are as defined. -/
theorem popAndRecreate : Obligations.PopAndRecreate := by
  intro s
  refine ⟨fun b rest full => ?_, fun empty => ?_, fun num den hn hd =>
    ⟨if_pos ⟨hn, hd⟩, rfl, rfl⟩⟩
  · rcases audioPop_cases s with ⟨empty, -⟩ | ⟨b', rest', full', e⟩
    · simp [empty] at full
    · obtain ⟨rfl, rfl⟩ := List.cons.inj (full.symm.trans full')
      exact congrArg Host.Outcome.next e
  · rcases audioPop_cases s with ⟨-, e⟩ | ⟨b, rest, full, -⟩
    · exact congrArg Host.Outcome.next e
    · simp [empty] at full

end Sys2Proof.Machine
end

section
/-! PROOFS. The drain: both of its loops end by themselves, and what they leave. -/

namespace Sys2Proof.Machine

/-- A loop that does `round` while `goes` holds, and `last` then, cut off after `n` rounds, where each round lowers the
measure `left`: with `n` above the measure it ends because `goes` fails. -/
theorem exists_rounds_until {loop : Nat → State → State} {round last : State → State} {goes : State → Prop}
    {left : State → Nat} (again : ∀ n s, goes s → loop (n + 1) s = loop n (round s))
    (stop : ∀ n s, ¬goes s → loop (n + 1) s = last s) (lower : ∀ s, goes s → left (round s) < left s) (n : Nat)
    {s : State} (bound : left s < n) :
    ∃ m, loop n s = last (round^[m] s) ∧ (∀ j, j < m → goes (round^[j] s)) ∧ ¬goes (round^[m] s) := by
  induction n generalizing s with
  | zero => exact absurd bound (Nat.not_lt_zero _)
  | succ n ih =>
    by_cases first : goes s
    · obtain ⟨m, e, rounds, ends⟩ := ih (Nat.lt_of_lt_of_le (lower s first) (Nat.le_of_lt_succ bound))
      refine ⟨m + 1, (again n s first).trans e, fun j hj => ?_, ends⟩
      cases j with
      | zero => exact first
      | succ j => exact rounds j (Nat.lt_of_succ_lt_succ hj)
    · exact ⟨0, stop n s first, fun j hj => absurd hj (Nat.not_lt_zero j), first⟩

/-! The pulls of a drain -/

/-- One round of the first loop of a drain (R328). -/
def pullRound (s : State) : State := (audioResample s).2

/-- A pull goes through the resampler (R324, R325). -/
def Pulls (s : State) : Prop := (audioResample s).1 = .pulled

theorem pulls_iff (s : State) : Pulls s ↔ 64 ≤ s.audio.nr.length ∧ s.audio.rs ≠ none := by
  rw [Pulls, ← not_exhausted_iff]
  rcases audioResample_cases s with ⟨short, e⟩ | ⟨-, none, e⟩ | ⟨full, rs, hrs, e⟩
  · simp [e, short]
  · simp [e, none]
  · simp [e, full, hrs]

theorem audioResample_of_pulls {s : State} (h : Pulls s) : audioResample s = (.pulled, pullRound s) := Prod.ext h rfl

theorem pullRound_audio {s : State} (h : Pulls s) :
    (pullRound s).audio.nr = s.audio.nr.drop 64 ∧ (pullRound s).audio.rs ≠ none := by
  obtain ⟨full, created⟩ := (pulls_iff s).1 h
  obtain ⟨rs, hrs⟩ := Option.ne_none_iff_exists'.1 created
  rw [pullRound, audioResample_pulled full hrs]
  exact ⟨rfl, Option.some_ne_none _⟩

theorem pullRound_lowers {s : State} (h : Pulls s) :
    (pullRound s).audio.nr.length / 64 < s.audio.nr.length / 64 := by
  obtain ⟨full, -⟩ := (pulls_iff s).1 h
  obtain ⟨nr, -⟩ := pullRound_audio h
  rw [nr, List.length_drop]
  omega

theorem drainResample_again (n : Nat) {s : State} (h : Pulls s) :
    drainResample (n + 1) s = drainResample n (pullRound s) := by
  rw [drainResample, audioResample_of_pulls h]

theorem drainResample_stop (n : Nat) {s : State} (h : ¬Pulls s) : drainResample (n + 1) s = s := by
  unfold drainResample
  split
  · rename_i e
    exact absurd (congrArg Prod.fst e) h
  · rfl

/-- Pulls in a row take the oldest chunks of the native ring (R325). -/
theorem pullRounds_nr {s : State} {k : Nat} (rounds : ∀ j, j < k → Pulls (pullRound^[j] s)) :
    (pullRound^[k] s).audio.nr = s.audio.nr.drop (k * 64) := by
  induction k with
  | zero => simp
  | succ k ih =>
    obtain ⟨nr, -⟩ := pullRound_audio (rounds k (Nat.lt_succ_self k))
    rw [Function.iterate_succ_apply', nr, ih fun j hj => rounds j (Nat.lt_succ_of_lt hj), List.drop_drop, Nat.succ_mul]

theorem pullRounds_pullable {s : State} (h : Pullable s) {k : Nat} (rounds : ∀ j, j < k → Pulls (pullRound^[j] s)) :
    Pullable (pullRound^[k] s) := by
  cases k with
  | zero => exact h
  | succ k =>
    obtain ⟨-, created⟩ := pullRound_audio (rounds k (Nat.lt_succ_self k))
    rw [Function.iterate_succ_apply']
    exact .inr created

/-- Pulls in a row each find a full chunk (R324). -/
theorem pullRounds_chunks {s : State} {k : Nat} (rounds : ∀ j, j < k → Pulls (pullRound^[j] s)) :
    k * 64 ≤ s.audio.nr.length := by
  cases k with
  | zero => simp
  | succ k =>
    obtain ⟨full, -⟩ := (pulls_iff _).1 (rounds k (Nat.lt_succ_self k))
    rw [pullRounds_nr fun j hj => rounds j (Nat.lt_succ_of_lt hj), List.length_drop] at full
    omega

/-- The first loop of a drain: a pull for each full chunk of the native ring (R328). -/
theorem drainResample_rounds {s : State} (h : Pullable s) :
    ∃ k, k = s.audio.nr.length / 64 ∧
      drainResample (s.audio.nr.length / Config.exhaustMin + 1) s = pullRound^[k] s ∧
      (∀ j, j < k → Pulls (pullRound^[j] s)) ∧ (pullRound^[k] s).audio.nr.length < 64 := by
  obtain ⟨k, e, rounds, ends⟩ := exists_rounds_until (left := fun s => s.audio.nr.length / 64)
    (fun n _ => drainResample_again n) (fun n _ => drainResample_stop n)
    (fun _ => pullRound_lowers) (s.audio.nr.length / Config.exhaustMin + 1) (Nat.lt_succ_self _)
  have short : (pullRound^[k] s).audio.nr.length < 64 :=
    (pullRounds_pullable h rounds).elim id fun created =>
      Nat.not_le.1 fun full => ends ((pulls_iff _).2 ⟨full, created⟩)
  refine ⟨k, ?_, e, rounds, short⟩
  have chunks := pullRounds_chunks rounds
  rw [pullRounds_nr rounds, List.length_drop] at short
  omega

/-! The commits of a drain -/

/-- One round of the second loop of a drain: the callback's turn and a commit (R328). -/
def commitRound (s : State) : State := (audioCommit (audioThread s)).2

/-- The commit that follows the callback's turn moves a block (R327). -/
def Commits (s : State) : Prop := (audioCommit (audioThread s)).1 = .committed

/-- A pop takes from the output ring only (R329). -/
theorem audioPop_audio (s : State) : ∃ ring, (audioPop s).audio = { s.audio with ring := ring } := by
  rcases audioPop_cases s with ⟨-, e⟩ | ⟨b, rest, -, e⟩ <;> rw [e]
  · exact ⟨_, rfl⟩
  · exact ⟨rest, rfl⟩

theorem audioPops_audio (n : Nat) (s : State) : ∃ ring, (audioPops n s).audio = { s.audio with ring := ring } := by
  induction n generalizing s with
  | zero => exact ⟨_, rfl⟩
  | succ n ih =>
    obtain ⟨_, first⟩ := audioPop_audio s
    obtain ⟨ring, rest⟩ := ih (audioPop s)
    exact ⟨ring, by rw [audioPops, rest, first]⟩

/-- The callback's turn takes from the output ring only (R321). -/
theorem audioThread_audio (s : State) : ∃ ring, (audioThread s).audio = { s.audio with ring := ring } := by
  unfold audioThread
  split
  · exact ⟨_, rfl⟩
  · exact audioPops_audio ..

theorem audioThread_nr (s : State) : (audioThread s).audio.nr = s.audio.nr := by
  obtain ⟨_, e⟩ := audioThread_audio s
  rw [e]

theorem audioThread_aq (s : State) : (audioThread s).audio.aq = s.audio.aq := by
  obtain ⟨_, e⟩ := audioThread_audio s
  rw [e]

theorem audioCommit_nr (s : State) : (audioCommit s).2.audio.nr = s.audio.nr := by
  rcases audioCommit_cases s with ⟨-, e⟩ | ⟨-, -, e⟩ | ⟨-, -, b, -, e⟩ <;> rw [e]

theorem commitRounds_nr (m : Nat) (s : State) : (commitRound^[m] s).audio.nr = s.audio.nr := by
  induction m generalizing s with
  | zero => rfl
  | succ m ih => rw [Function.iterate_succ_apply, ih, commitRound, audioCommit_nr, audioThread_nr]

theorem commitRound_aq {s : State} (h : Commits s) :
    64 ≤ s.audio.aq.length ∧ (commitRound s).audio.aq = s.audio.aq.drop 64 := by
  rw [← audioThread_aq]
  unfold commitRound
  rcases audioCommit_cases (audioThread s) with ⟨-, e⟩ | ⟨-, -, e⟩ | ⟨full, -, b, -, e⟩
  · simp [Commits, e] at h
  · simp [Commits, e] at h
  · rw [e]
    exact ⟨full, rfl⟩

theorem commitRound_lowers {s : State} (h : Commits s) :
    (commitRound s).audio.aq.length / 64 < s.audio.aq.length / 64 := by
  obtain ⟨full, aq⟩ := commitRound_aq h
  rw [aq, List.length_drop]
  omega

/-- A commit that moves no block says why, and leaves the state as it is (R327). -/
theorem audioCommit_of_not_committed {t : State} (h : (audioCommit t).1 ≠ .committed) :
    (audioCommit t = (.notReady, t) ∨ audioCommit t = (.noRoom, t)) ∧
      (t.audio.aq.length < 64 ∨ 512 - t.audio.ring.length < 8) := by
  rcases audioCommit_cases t with ⟨short, e⟩ | ⟨-, noRoom, e⟩ | ⟨-, -, b, -, e⟩
  · exact ⟨.inl e, .inl short⟩
  · exact ⟨.inr e, .inr noRoom⟩
  · simp [e] at h

theorem audioCommit_of_commits {s : State} (h : Commits s) :
    audioCommit (audioThread s) = (.committed, commitRound s) := Prod.ext h rfl

theorem drainCommit_again (n : Nat) {s : State} (h : Commits s) :
    drainCommit (n + 1) s = drainCommit n (commitRound s) := by
  rw [drainCommit, audioCommit_of_commits h]

theorem drainCommit_stop (n : Nat) {s : State} (h : ¬Commits s) : drainCommit (n + 1) s = audioThread s := by
  rcases (audioCommit_of_not_committed h).1 with e | e <;> rw [drainCommit, e]

/-- The second loop of a drain is a number of commits, each after the callback's turn, until one moves none (R328). -/
theorem drainCommit_rounds (s : State) :
    ∃ m, drainCommit (s.audio.aq.length / Config.blockLen + 1) s = audioThread (commitRound^[m] s) ∧
      (∀ j, j < m → Commits (commitRound^[j] s)) ∧ ¬Commits (commitRound^[m] s) :=
  exists_rounds_until (left := fun s => s.audio.aq.length / 64)
    (fun n _ => drainCommit_again n) (fun n _ => drainCommit_stop n)
    (fun _ => commitRound_lowers) _ (Nat.lt_succ_self _)

/-! The drain -/

/-- A drain is not refused where its first pull is not (R328). -/
theorem exec_aDrain_of_pullable {s : State} (h : Pullable s) : exec .aDrain s = .next (audioDrain s) :=
  if_neg h.not_missing

/-- A pull of a drain, as an operation (R325). -/
theorem exec_aResample_of_pulls {s : State} (h : Pulls s) :
    exec .aResample s = .next (handedOut (pullRound s) (.resample .pulled)) := by
  obtain ⟨-, created⟩ := (pulls_iff s).1 h
  rw [exec_aResample (.inr created), audioResample_of_pulls h]

/-- A commit of a drain, as an operation behind the callback's turn (R327). -/
theorem exec_aCommit_of_commits {s : State} (h : Commits s) :
    exec .aCommit (audioThread s) = .next (handedOut (commitRound s) (.commit .committed)) := by
  rw [exec_aCommit, audioCommit_of_commits h]

/-- Settles O51: the rounds of the two loops of a drain. -/
theorem drainRunsEachStageOut : Obligations.DrainRunsEachStageOut := by
  intro s h
  obtain ⟨k, number, pulled, pulls, short⟩ := drainResample_rounds h
  obtain ⟨m, committed, commits, ends⟩ := drainCommit_rounds (pullRound^[k] s)
  have run : audioDrain s = audioThread (commitRound^[m] (pullRound^[k] s)) := by rw [audioDrain, pulled, committed]
  obtain ⟨answer, why⟩ := audioCommit_of_not_committed ends
  have kept := run ▸ audioDrain_effect s
  refine ⟨_, k, m, (pullRound^[·] s), (commitRound^[·] (pullRound^[k] s)), run ▸ exec_aDrain_of_pullable h, rfl,
    fun j hj => ?_, ?_, rfl, fun j hj => ?_, rfl, ?_, number, ?_, why,
    kept.mem, kept.regs, kept.blit, kept.pad1, kept.pad2, kept.orch, kept.lines, kept.cfg⟩
  · simp only [Function.iterate_succ_apply', exec_aResample_of_pulls (pulls j hj)]
  · rw [exec_aResample (.inl short), audioResample_exhausted short]
  · simp only [Function.iterate_succ_apply', exec_aCommit_of_commits (commits j hj)]
  · exact answer.imp (fun e => by rw [exec_aCommit, e]) fun e => by rw [exec_aCommit, e]
  · rw [audioThread_nr, commitRounds_nr, pullRounds_nr pulls, number]

end Sys2Proof.Machine
end

section
/-! PROOFS. The host's operations: a load and what the window then shows, the instant blit, the buttons and the
read-out. -/

namespace Sys2Proof.Machine

/-! The load of an image -/

theorem cartOfImage_8K {bytes : List Byte} (h : bytes.length = 0x2000) :
    ∃ rom, cartOfImage bytes = some (.cart8K rom) ∧ rom.toList = bytes :=
  ⟨_, dif_pos h, rfl⟩

theorem cartOfImage_32K {bytes : List Byte} (h : bytes.length = 0x8000) :
    ∃ rom, cartOfImage bytes = some (.cart32K rom) ∧ rom.toList = bytes :=
  ⟨_, (dif_neg (by omega)).trans (dif_pos h), rfl⟩

theorem cartOfImage_2M {bytes : List Byte} (h : bytes.length = 0x200000) :
    ∃ rom, cartOfImage bytes = some (.cart2M rom) ∧ rom.toList = bytes :=
  ⟨_, (dif_neg (by omega)).trans ((dif_neg (by omega)).trans (dif_pos h)), rfl⟩

theorem cartOfImage_illegal {bytes : List Byte} (h : bytes.length ∉ [0x2000, 0x8000, 0x200000]) :
    cartOfImage bytes = none := by
  simp only [List.mem_cons, List.not_mem_nil, or_false, not_or] at h
  obtain ⟨not8K, not32K, not2M⟩ := h
  rw [cartOfImage, dif_neg not8K, dif_neg not32K, dif_neg not2M]

/-- A load whose image has a cartridge inserts that cartridge (R360, R362). -/
theorem exec_hLoadrom_of_cart {bytes : List Byte} {c : Cart} (h : cartOfImage bytes = some c) (s : State) :
    exec (.hLoadrom bytes) s =
      .next { handedOut s .romLoaded with
        mem := { s.mem with cart := some c }
        blit := { s.blit with irqPending := false }
        lines := { s.lines with cpuReset := true, acpReset := true } } := by
  simp only [exec, execHLoadrom, loadRom, h]
  rfl

/-- Settles O53: each legal length selects its own variant of the cartridge, which holds the image. -/
theorem loadRomAccepts : Obligations.LoadRomAccepts := by
  intro s bytes legal
  simp only [List.mem_cons, List.not_mem_nil, or_false] at legal
  rcases legal with len | len | len
  · obtain ⟨rom, hc, image⟩ := cartOfImage_8K len
    exact ⟨_, exec_hLoadrom_of_cart hc s, fun _ => ⟨rom, rfl, image⟩, by omega, by omega⟩
  · obtain ⟨rom, hc, image⟩ := cartOfImage_32K len
    exact ⟨_, exec_hLoadrom_of_cart hc s, by omega, fun _ => ⟨rom, rfl, image⟩, by omega⟩
  · obtain ⟨rom, hc, image⟩ := cartOfImage_2M len
    exact ⟨_, exec_hLoadrom_of_cart hc s, by omega, by omega, fun _ => ⟨rom, rfl, image⟩⟩

/-- Settles O54: an image of another length has no cartridge. -/
theorem loadRomRejects : Obligations.LoadRomRejects := by
  intro s bytes illegal
  simp only [exec, execHLoadrom, loadRom, cartOfImage_illegal illegal]
  rfl

/-- A place of an image read with a default, as an array or as a list. -/
theorem rom_getD_toList {n : Nat} (rom : Vector Byte n) (k : Nat) : rom.toArray.getD k 0 = rom.toList.getD k 0 := by
  simp [Array.getD_eq_getD_getElem?]

/-- Settles O24: the load leaves the cartridge that holds the image, and its reads are those of its variant. -/
theorem loadedImageAppearsInTheWindow : Obligations.LoadedImageAppearsInTheWindow := by
  intro s bytes legal
  obtain ⟨c, loaded, is8K, is32K, is2M⟩ := loadRomAccepts s bytes legal
  obtain ⟨t, run, inserted⟩ : ∃ t, exec (.hLoadrom bytes) s = .next t ∧ t.mem.cart = some c := ⟨_, loaded, rfl⟩
  refine ⟨t, run, fun o => ?_⟩
  obtain ⟨read8K, read32K, read2M⟩ := cartridgeReads t o
  refine ⟨fun len => ?_, fun len => ?_, fun len => ?_⟩
  · obtain ⟨rom, rfl, rfl⟩ := is8K len
    rw [read8K rom inserted, rom_getD_toList]
  · obtain ⟨rom, rfl, rfl⟩ := is32K len
    rw [read32K rom inserted, rom_getD_toList]
  · obtain ⟨rom, rfl, rfl⟩ := is2M len
    rw [read2M rom inserted, rom_getD_toList]

/-! The instant blit -/

/-- The loop of the instant blit goes on: the blitter runs or a start waits (R367). -/
def BlitBusy (s : State) : Prop := s.blit.bstate = .running ∨ s.regs.startStrobe = true

theorem not_blitBusy_iff (s : State) : ¬BlitBusy s ↔ s.blit.bstate = .idle ∧ s.regs.startStrobe = false := by
  have idle : ¬s.blit.bstate = .running ↔ s.blit.bstate = .idle := by cases s.blit.bstate <;> decide
  rw [BlitBusy, not_or, idle, Bool.not_eq_true]

theorem blitUntilIdle_again (n : Nat) {s : State} (h : BlitBusy s) :
    blitUntilIdle (n + 1) s = blitUntilIdle n (blitStep s) := if_pos h

theorem blitUntilIdle_stop (n : Nat) {s : State} (h : ¬BlitBusy s) : blitUntilIdle (n + 1) s = s := if_neg h

/-- Where some number of steps within the bound leaves nothing to do, the loop takes the least such number. -/
theorem blitUntilIdle_ends {n k : Nat} {s : State} (bound : k ≤ n) (done : ¬BlitBusy (blitSteps k s)) :
    ∃ m, blitUntilIdle n s = blitSteps m s ∧ ¬BlitBusy (blitSteps m s) ∧ ∀ j, j < m → BlitBusy (blitSteps j s) := by
  induction n generalizing k s with
  | zero =>
    obtain rfl := Nat.le_zero.1 bound
    exact ⟨0, rfl, done, fun j hj => absurd hj (Nat.not_lt_zero j)⟩
  | succ n ih =>
    by_cases busy : BlitBusy s
    · cases k with
      | zero => exact absurd busy done
      | succ k =>
        obtain ⟨m, run, idle, before⟩ := ih (Nat.le_of_succ_le_succ bound) (s := blitStep s) done
        refine ⟨m + 1, (blitUntilIdle_again n busy).trans run, idle, fun j hj => ?_⟩
        cases j with
        | zero => exact busy
        | succ j => exact before j (Nat.lt_of_succ_lt_succ hj)
    · exact ⟨0, blitUntilIdle_stop n busy, busy, fun j hj => absurd hj (Nat.not_lt_zero j)⟩

/-- The first step uses up the strobe, and a blit that runs then ends within the rest of the bound (R251). -/
theorem exists_steps_not_blitBusy (s : State) : ∃ k, k ≤ Config.blitStepBound ∧ ¬BlitBusy (blitSteps k s) := by
  cases after : (blitStep s).blit.bstate with
  | idle => exact ⟨1, by decide, (not_blitBusy_iff _).2 ⟨after, blitStep_strobe s⟩⟩
  | running =>
    obtain ⟨n, few, idle⟩ := blit_ends after (blitStep_strobe s)
    refine ⟨n + 2, Nat.succ_le_succ few, (not_blitBusy_iff _).2 ⟨idle, ?_⟩⟩
    rw [blitSteps_succ, blitStep_strobe]

/-- Settles O37: the loop ends at the first state with nothing to do, which its bound is above. -/
theorem instantBlitIsRepeatedSteps : Obligations.InstantBlitIsRepeatedSteps := by
  intro s
  obtain ⟨k, bound, done⟩ := exists_steps_not_blitBusy s
  obtain ⟨n, run, ended, before⟩ := blitUntilIdle_ends bound done
  obtain ⟨idle, unstrobed⟩ := (not_blitBusy_iff _).1 ended
  have kept := blitSteps_effect n s
  exact ⟨n, _, congrArg Host.Outcome.next run, rfl, idle, unstrobed, kept.orch, kept.lines, before⟩

/-! The buttons and the read-out -/

/-- One bit of a button record, raised or cleared, and every other as it was (R364). -/
theorem getLsbD_setBit (old : BitVec 256) (b : BitVec 8) (pressed : Bool) (k : Nat) :
    (if pressed then old ||| 1#256 <<< b.toNat else old &&& ~~~(1#256 <<< b.toNat)).getLsbD k =
      if k = b.toNat then pressed else old.getLsbD k := by
  have hb : b.toNat < 256 := b.isLt
  have bit : (1#256 <<< b.toNat).getLsbD k = decide (k = b.toNat) := by
    simp only [← BitVec.twoPow_eq, BitVec.getLsbD_twoPow, hb, decide_true, Bool.true_and, eq_comm]
  have inside : old.getLsbD k = true → k < 256 := BitVec.lt_of_getLsbD
  by_cases hk : k = b.toNat
  · cases pressed <;> simp [hk, hb]
  · cases pressed with
    | true => simp [bit, hk]
    | false => simpa [bit, hk] using inside

/-- A button of the set is written in the record of its pad, for either pad (R364). -/
theorem exec_hSetbtn {s : State} {b : BitVec 8} (hb : b.toNat < s.cfg.buttons) (p : PadPort) (pressed : Bool) :
    ∃ x : BitVec 256, exec (.hSetbtn p b pressed) s = .next (s.setPad p { s.pad p with pressed := x }) ∧
      ∀ k, x.getLsbD k = if k = b.toNat then pressed else (s.pad p).pressed.getLsbD k :=
  ⟨_, if_pos hb, getLsbD_setBit _ b pressed⟩

/-- The view is the buffer row by row (R366). -/
theorem frameView_getElem? (s : State) (f : Bool) {y x : Nat} (hy : y < 128) (hx : x < 128) :
    (frameView s f)[y * 128 + x]? = some (s.byte .fb (fbCell f y x)) := by
  have inView : y * 128 + x < 16384 := by omega
  have row : (y * 128 + x) / 128 = y := by omega
  have column : (y * 128 + x) % 128 = x := by omega
  rw [frameView, List.getElem?_map, List.getElem?_range inView, Option.map_some, row, column]

/-- Settles O55: one lemma for both pads, and the cell that each place of the view shows. -/
theorem buttonsAndReadOut : Obligations.ButtonsAndReadOut :=
  fun s =>
    ⟨fun _ pressed hb => exec_hSetbtn hb .pad1 pressed, fun _ pressed hb => exec_hSetbtn hb .pad2 pressed,
      fun _ _ _ hb => if_neg (Nat.not_lt.2 hb), rfl, fun f _ _ hy hx => frameView_getElem? s f hy hx⟩

end Sys2Proof.Machine
end

section
/-! PROOFS. The steps that run no operation: none waits, or the decoder rejects the one that does. -/

namespace Sys2Proof.Machine

/-- With nothing waiting the step keeps all state (R414). -/
theorem step_of_nothing_pending {s : State} (hp : s.env.pending = []) : step s = .next s := by
  simp only [step, State.fetch, hp]

/-- A waiting operation that the decoder rejects is refused for the decoder's reason. -/
theorem step_of_rejected {s : State} {raw : RawOp} {rest : List RawOp} {r : Reject} (hp : s.env.pending = raw :: rest)
    (hd : decode s.windowMode raw = .error r) : step s = .refused (.undecodable r) := by
  simp only [step, State.fetch, hp, hd]

/-- The event codes of Table E2 (R137). -/
def eventCodes : List Nat :=
  [0x00, 0x01, 0x02, 0x03, 0x04, 0x05, 0x06, 0x10, 0x11, 0x12, 0x13, 0x14, 0x15, 0x20, 0x21, 0x22, 0x23, 0x24, 0x30, 0x31]

/-- A code that reaches none of the decoder's arms is reserved (R137). -/
theorem decodeEvt_reserved {code : Byte} (hc : code.toNat ∉ eventCodes) (ops : List Byte) :
    decodeEvt code ops = .error (.reservedEvent code) := by
  unfold decodeEvt
  split
  case h_21 => rfl
  all_goals
    rename_i listed
    exact absurd (listed ▸ by decide) hc

/-- Only the controllers 0 and 1 exist (R364, U9). -/
theorem decodeSetbtn_noSuchController {ops : List Byte} (hi : 2 ≤ (operand ops 0).toNat) :
    decodeSetbtn ops = .error (.noSuchController (operand ops 0)) := by
  unfold decodeSetbtn
  split
  case h_1 zero => omega
  case h_2 one => omega
  case h_3 => rfl

/-- Settles O2, by the two ways in which a step runs no operation. -/
theorem stepWithoutAnOperation : Obligations.StepWithoutAnOperation :=
  ⟨fun _ => step_of_nothing_pending,
    fun _ _ ops _ hp hc => step_of_rejected hp (decodeEvt_reserved hc ops),
    fun _ _ _ hp hi => step_of_rejected hp (decodeSetbtn_noSuchController hi)⟩

end Sys2Proof.Machine
end


section
/-! PROOFS. Power-on, and the machine after reset, which is a power-on under the defaults. -/

namespace Sys2Proof.Machine

/-- After power-on no cell of any memory is written, so each holds its unspecified byte (R54, U13). -/
@[simp] theorem State.byte_powerOn (cfg : Params) (env : Environment) (now : Nat) (id : MemId) (a : Nat) :
    (State.powerOn cfg env now).byte id a = Config.powerOnByte env.powerOns id a := by
  cases id <;> rfl

/-- Power-on counts itself, so that its unspecified bytes are new ones (R431, log entry 1). -/
theorem exec_hPoweron (s : State) (now : Nat) :
    exec (.hPoweron now) s =
      .next (State.powerOn s.cfg { s.env with powerOns := s.env.powerOns + 1 } now) := rfl

/-- With `DMA_FLAGS` all zero the window shows `VRAM` (R55, R200). -/
theorem windowMode_reset : State.reset.windowMode = .vram := by decide

/-- Settles O56: every field is read off the power-on column, at the machine's own configuration and at the defaults; the
bytes of the memories are `State.byte_powerOn`. -/
theorem powerOnValues : Obligations.PowerOnValues := by
  refine ⟨fun s now => ⟨_, exec_hPoweron s now, ?column⟩, ?reset⟩
  case column =>
    exact ⟨rfl, rfl, rfl, rfl, rfl, rfl, rfl, rfl, rfl, rfl, fun id a => State.byte_powerOn _ _ _ id a⟩
  case reset =>
    exact ⟨rfl, rfl, rfl, rfl, rfl, rfl, rfl, rfl, rfl, windowMode_reset, rfl,
      fun id a => State.byte_powerOn _ _ _ id a⟩

end Sys2Proof.Machine
end
